-- ==== Sys2Proof/Word.lean ====
section
/-! DEFINITION. The widths every file of the model uses (`00_scope.md` R2, R6, R9): a word is 32 bits, a byte 8,
a register number 5. -/

namespace Sys2Proof

/-- A word: every register, the program counter, every data path and every instruction (R2). -/
abbrev Word := BitVec 32

/-- The unit of memory (R60). -/
abbrev Byte := BitVec 8

/-- A 5-bit register-number field of an instruction, `r0` to `r31` (R22). -/
abbrev RegNum := BitVec 5

end Sys2Proof
end

