-- ==== Sys2Proof/Syntax.lean ====
section
/-! DEFINITION. The instructions: one constructor for each row of spec/opcode_table.json, holding every field the row's
word has, the fields without effect (`JJJJJ`, `E`, `YLE`) among them, so that no bit of a word is lost
(`30_encoding.md` R93 to R108). -/

namespace Sys2Proof

/-- The first operation of a three-register instruction, field `CCC` (R97, R211). -/
inductive Op1 where
  | add | addc | sub | subb | and | or | xor | sha
deriving DecidableEq, Repr

/-- The addressing mode `PQ` of RM, RRM and SPLS (R99): `P` says that the effective address is the sum, `Q` that the base
register is updated with it. -/
inductive AddrMode where
  /-- `PQ = 00`: the address is the base. -/
  | base
  /-- `PQ = 01`: the address is the base, which is then updated. -/
  | postModify
  /-- `PQ = 10`: the address is the sum. -/
  | sum
  /-- `PQ = 11`: the address is the sum, with which the base is updated. -/
  | preModify
deriving DecidableEq, Repr

/-- The instructions of the LANai3, row by row of the opcode table. -/
inductive Instr where
  -- Register-Immediate (`41_ri.md`)
  /-- `add<.f> Rs1, CONST, Rd` (RI, R162). -/
  | addRI (rd rs1 : RegNum) (f h : Bool) (k : BitVec 16)
  /-- `addc<.f> Rs1, CONST, Rd` (RI, R163). -/
  | addcRI (rd rs1 : RegNum) (f h : Bool) (k : BitVec 16)
  /-- `sub<.f> Rs1, CONST, Rd` (RI, R164). -/
  | subRI (rd rs1 : RegNum) (f h : Bool) (k : BitVec 16)
  /-- `subb<.f> Rs1, CONST, Rd` (RI, R165). -/
  | subbRI (rd rs1 : RegNum) (f h : Bool) (k : BitVec 16)
  /-- `and<.f> Rs1, AND_CONST, Rd` (RI, R166). -/
  | andRI (rd rs1 : RegNum) (f h : Bool) (k : BitVec 16)
  /-- `or<.f> Rs1, CONST, Rd` (RI, R167). -/
  | orRI (rd rs1 : RegNum) (f h : Bool) (k : BitVec 16)
  /-- `xor<.f> Rs1, CONST, Rd` (RI, R168). -/
  | xorRI (rd rs1 : RegNum) (f h : Bool) (k : BitVec 16)
  /-- `sh<.f> Rs1, SHIFT_CONST, Rd` (RI, R174). -/
  | shRI (rd rs1 : RegNum) (f : Bool) (k : BitVec 16)
  /-- `sha<.f> Rs1, SHIFT_CONST, Rd` (RI, R175). -/
  | shaRI (rd rs1 : RegNum) (f : Bool) (k : BitVec 16)
  -- Register-Register (`42_rr.md`)
  /-- `add<.f> Rs1, Rs2, Rd` (RR, R194); `j` is `JJJJJ`, irrelevant here (R96). -/
  | addRR (rd rs1 : RegNum) (f : Bool) (rs2 : RegNum) (j : BitVec 5)
  /-- `addc<.f> Rs1, Rs2, Rd` (RR, R195); `j` is `JJJJJ`, irrelevant here (R96). -/
  | addcRR (rd rs1 : RegNum) (f : Bool) (rs2 : RegNum) (j : BitVec 5)
  /-- `sub<.f> Rs1, Rs2, Rd` (RR, R196); `j` is `JJJJJ`, irrelevant here (R96). -/
  | subRR (rd rs1 : RegNum) (f : Bool) (rs2 : RegNum) (j : BitVec 5)
  /-- `subb<.f> Rs1, Rs2, Rd` (RR, R197); `j` is `JJJJJ`, irrelevant here (R96). -/
  | subbRR (rd rs1 : RegNum) (f : Bool) (rs2 : RegNum) (j : BitVec 5)
  /-- `and<.f> Rs1, Rs2, Rd` (RR, R198); `j` is `JJJJJ`, irrelevant here (R96). -/
  | andRR (rd rs1 : RegNum) (f : Bool) (rs2 : RegNum) (j : BitVec 5)
  /-- `or<.f> Rs1, Rs2, Rd` (RR, R199); `j` is `JJJJJ`, irrelevant here (R96). -/
  | orRR (rd rs1 : RegNum) (f : Bool) (rs2 : RegNum) (j : BitVec 5)
  /-- `xor<.f> Rs1, Rs2, Rd` (RR, R200); `j` is `JJJJJ`, irrelevant here (R96). -/
  | xorRR (rd rs1 : RegNum) (f : Bool) (rs2 : RegNum) (j : BitVec 5)
  /-- `sh<.f> Rs1, Rs2, Rd` (RR, R201). -/
  | shRR (rd rs1 : RegNum) (f : Bool) (rs2 : RegNum)
  /-- `sha<.f> Rs1, Rs2, Rd` (RR, R202). -/
  | shaRR (rd rs1 : RegNum) (f : Bool) (rs2 : RegNum)
  -- Three-Register (`43_rrr.md`)
  /-- `put Rs1 add<.f> (Rs2 op1 Rs3), Rd` (RRR, R217). -/
  | putAdd (rd rs1 : RegNum) (f : Bool) (rs2 rs3 : RegNum) (op1 : Op1)
  /-- `put Rs1 addc<.f> (Rs2 op1 Rs3), Rd` (RRR, R218). -/
  | putAddc (rd rs1 : RegNum) (f : Bool) (rs2 rs3 : RegNum) (op1 : Op1)
  /-- `put Rs1 sub<.f> (Rs2 op1 Rs3), Rd` (RRR, R219). -/
  | putSub (rd rs1 : RegNum) (f : Bool) (rs2 rs3 : RegNum) (op1 : Op1)
  /-- `put Rs1 subb<.f> (Rs2 op1 Rs3), Rd` (RRR, R220). -/
  | putSubb (rd rs1 : RegNum) (f : Bool) (rs2 rs3 : RegNum) (op1 : Op1)
  /-- `put Rs1 and<.f> (Rs2 op1 Rs3), Rd` (RRR, R221). -/
  | putAnd (rd rs1 : RegNum) (f : Bool) (rs2 rs3 : RegNum) (op1 : Op1)
  /-- `put Rs1 or<.f> (Rs2 op1 Rs3), Rd` (RRR, R222). -/
  | putOr (rd rs1 : RegNum) (f : Bool) (rs2 rs3 : RegNum) (op1 : Op1)
  /-- `put Rs1 xor<.f> (Rs2 op1 Rs3), Rd` (RRR, R223). -/
  | putXor (rd rs1 : RegNum) (f : Bool) (rs2 rs3 : RegNum) (op1 : Op1)
  /-- `put Rs1 sh<.f> (Rs2 op1 Rs3), Rd` (RRR, R224). -/
  | putSh (rd rs1 : RegNum) (f : Bool) (rs2 rs3 : RegNum) (op1 : Op1)
  /-- `put Rs1 sha<.f> (Rs2 op1 Rs3), Rd` (RRR, R225). -/
  | putSha (rd rs1 : RegNum) (f : Bool) (rs2 rs3 : RegNum) (op1 : Op1)
  -- Register-Memory (`44_rm.md`)
  /-- `ld` with base `Rs1` and a 16-bit signed constant (RM, R244). -/
  | ldRM (rd rs1 : RegNum) (m : AddrMode) (k : BitVec 16)
  /-- `st` with base `Rs1` and a 16-bit signed constant (RM, R245). -/
  | stRM (rd rs1 : RegNum) (m : AddrMode) (k : BitVec 16)
  -- Register-Register-Memory (`45_rrm.md`)
  /-- `ld` of the word addressed with `Rs1 add Rs2` (RRM, R267, R275); `j` and `e` have no effect (R96, D19). -/
  | ldAddRRM (rd rs1 : RegNum) (m : AddrMode) (rs2 : RegNum) (j : BitVec 5) (e : Bool)
  /-- `ld` of the word addressed with `Rs1 addc Rs2` (RRM, R267, R275); `j` and `e` have no effect (R96, D19). -/
  | ldAddcRRM (rd rs1 : RegNum) (m : AddrMode) (rs2 : RegNum) (j : BitVec 5) (e : Bool)
  /-- `ld` of the word addressed with `Rs1 sub Rs2` (RRM, R267, R275); `j` and `e` have no effect (R96, D19). -/
  | ldSubRRM (rd rs1 : RegNum) (m : AddrMode) (rs2 : RegNum) (j : BitVec 5) (e : Bool)
  /-- `ld` of the word addressed with `Rs1 subb Rs2` (RRM, R267, R275); `j` and `e` have no effect (R96, D19). -/
  | ldSubbRRM (rd rs1 : RegNum) (m : AddrMode) (rs2 : RegNum) (j : BitVec 5) (e : Bool)
  /-- `ld` of the word addressed with `Rs1 and Rs2` (RRM, R267, R275); `j` and `e` have no effect (R96, D19). -/
  | ldAndRRM (rd rs1 : RegNum) (m : AddrMode) (rs2 : RegNum) (j : BitVec 5) (e : Bool)
  /-- `ld` of the word addressed with `Rs1 or Rs2` (RRM, R267, R275); `j` and `e` have no effect (R96, D19). -/
  | ldOrRRM (rd rs1 : RegNum) (m : AddrMode) (rs2 : RegNum) (j : BitVec 5) (e : Bool)
  /-- `ld` of the word addressed with `Rs1 xor Rs2` (RRM, R267, R275); `j` and `e` have no effect (R96, D19). -/
  | ldXorRRM (rd rs1 : RegNum) (m : AddrMode) (rs2 : RegNum) (j : BitVec 5) (e : Bool)
  /-- `ld.h` of the half-word addressed with `Rs1 add Rs2` (RRM, R268, R275); `j` has no effect (R96, D19). -/
  | ldhAddRRM (rd rs1 : RegNum) (m : AddrMode) (rs2 : RegNum) (j : BitVec 5)
  /-- `ld.h` of the half-word addressed with `Rs1 addc Rs2` (RRM, R268, R275); `j` has no effect (R96, D19). -/
  | ldhAddcRRM (rd rs1 : RegNum) (m : AddrMode) (rs2 : RegNum) (j : BitVec 5)
  /-- `ld.h` of the half-word addressed with `Rs1 sub Rs2` (RRM, R268, R275); `j` has no effect (R96, D19). -/
  | ldhSubRRM (rd rs1 : RegNum) (m : AddrMode) (rs2 : RegNum) (j : BitVec 5)
  /-- `ld.h` of the half-word addressed with `Rs1 subb Rs2` (RRM, R268, R275); `j` has no effect (R96, D19). -/
  | ldhSubbRRM (rd rs1 : RegNum) (m : AddrMode) (rs2 : RegNum) (j : BitVec 5)
  /-- `ld.h` of the half-word addressed with `Rs1 and Rs2` (RRM, R268, R275); `j` has no effect (R96, D19). -/
  | ldhAndRRM (rd rs1 : RegNum) (m : AddrMode) (rs2 : RegNum) (j : BitVec 5)
  /-- `ld.h` of the half-word addressed with `Rs1 or Rs2` (RRM, R268, R275); `j` has no effect (R96, D19). -/
  | ldhOrRRM (rd rs1 : RegNum) (m : AddrMode) (rs2 : RegNum) (j : BitVec 5)
  /-- `ld.h` of the half-word addressed with `Rs1 xor Rs2` (RRM, R268, R275); `j` has no effect (R96, D19). -/
  | ldhXorRRM (rd rs1 : RegNum) (m : AddrMode) (rs2 : RegNum) (j : BitVec 5)
  /-- `uld.h` of the half-word addressed with `Rs1 add Rs2` (RRM, R269, R275); `j` has no effect (R96, D19). -/
  | uldhAddRRM (rd rs1 : RegNum) (m : AddrMode) (rs2 : RegNum) (j : BitVec 5)
  /-- `uld.h` of the half-word addressed with `Rs1 addc Rs2` (RRM, R269, R275); `j` has no effect (R96, D19). -/
  | uldhAddcRRM (rd rs1 : RegNum) (m : AddrMode) (rs2 : RegNum) (j : BitVec 5)
  /-- `uld.h` of the half-word addressed with `Rs1 sub Rs2` (RRM, R269, R275); `j` has no effect (R96, D19). -/
  | uldhSubRRM (rd rs1 : RegNum) (m : AddrMode) (rs2 : RegNum) (j : BitVec 5)
  /-- `uld.h` of the half-word addressed with `Rs1 subb Rs2` (RRM, R269, R275); `j` has no effect (R96, D19). -/
  | uldhSubbRRM (rd rs1 : RegNum) (m : AddrMode) (rs2 : RegNum) (j : BitVec 5)
  /-- `uld.h` of the half-word addressed with `Rs1 and Rs2` (RRM, R269, R275); `j` has no effect (R96, D19). -/
  | uldhAndRRM (rd rs1 : RegNum) (m : AddrMode) (rs2 : RegNum) (j : BitVec 5)
  /-- `uld.h` of the half-word addressed with `Rs1 or Rs2` (RRM, R269, R275); `j` has no effect (R96, D19). -/
  | uldhOrRRM (rd rs1 : RegNum) (m : AddrMode) (rs2 : RegNum) (j : BitVec 5)
  /-- `uld.h` of the half-word addressed with `Rs1 xor Rs2` (RRM, R269, R275); `j` has no effect (R96, D19). -/
  | uldhXorRRM (rd rs1 : RegNum) (m : AddrMode) (rs2 : RegNum) (j : BitVec 5)
  /-- `ld.b` of the byte addressed with `Rs1 add Rs2` (RRM, R270, R275); `j` has no effect (R96, D19). -/
  | ldbAddRRM (rd rs1 : RegNum) (m : AddrMode) (rs2 : RegNum) (j : BitVec 5)
  /-- `ld.b` of the byte addressed with `Rs1 addc Rs2` (RRM, R270, R275); `j` has no effect (R96, D19). -/
  | ldbAddcRRM (rd rs1 : RegNum) (m : AddrMode) (rs2 : RegNum) (j : BitVec 5)
  /-- `ld.b` of the byte addressed with `Rs1 sub Rs2` (RRM, R270, R275); `j` has no effect (R96, D19). -/
  | ldbSubRRM (rd rs1 : RegNum) (m : AddrMode) (rs2 : RegNum) (j : BitVec 5)
  /-- `ld.b` of the byte addressed with `Rs1 subb Rs2` (RRM, R270, R275); `j` has no effect (R96, D19). -/
  | ldbSubbRRM (rd rs1 : RegNum) (m : AddrMode) (rs2 : RegNum) (j : BitVec 5)
  /-- `ld.b` of the byte addressed with `Rs1 and Rs2` (RRM, R270, R275); `j` has no effect (R96, D19). -/
  | ldbAndRRM (rd rs1 : RegNum) (m : AddrMode) (rs2 : RegNum) (j : BitVec 5)
  /-- `ld.b` of the byte addressed with `Rs1 or Rs2` (RRM, R270, R275); `j` has no effect (R96, D19). -/
  | ldbOrRRM (rd rs1 : RegNum) (m : AddrMode) (rs2 : RegNum) (j : BitVec 5)
  /-- `ld.b` of the byte addressed with `Rs1 xor Rs2` (RRM, R270, R275); `j` has no effect (R96, D19). -/
  | ldbXorRRM (rd rs1 : RegNum) (m : AddrMode) (rs2 : RegNum) (j : BitVec 5)
  /-- `uld.b` of the byte addressed with `Rs1 add Rs2` (RRM, R271, R275); `j` has no effect (R96, D19). -/
  | uldbAddRRM (rd rs1 : RegNum) (m : AddrMode) (rs2 : RegNum) (j : BitVec 5)
  /-- `uld.b` of the byte addressed with `Rs1 addc Rs2` (RRM, R271, R275); `j` has no effect (R96, D19). -/
  | uldbAddcRRM (rd rs1 : RegNum) (m : AddrMode) (rs2 : RegNum) (j : BitVec 5)
  /-- `uld.b` of the byte addressed with `Rs1 sub Rs2` (RRM, R271, R275); `j` has no effect (R96, D19). -/
  | uldbSubRRM (rd rs1 : RegNum) (m : AddrMode) (rs2 : RegNum) (j : BitVec 5)
  /-- `uld.b` of the byte addressed with `Rs1 subb Rs2` (RRM, R271, R275); `j` has no effect (R96, D19). -/
  | uldbSubbRRM (rd rs1 : RegNum) (m : AddrMode) (rs2 : RegNum) (j : BitVec 5)
  /-- `uld.b` of the byte addressed with `Rs1 and Rs2` (RRM, R271, R275); `j` has no effect (R96, D19). -/
  | uldbAndRRM (rd rs1 : RegNum) (m : AddrMode) (rs2 : RegNum) (j : BitVec 5)
  /-- `uld.b` of the byte addressed with `Rs1 or Rs2` (RRM, R271, R275); `j` has no effect (R96, D19). -/
  | uldbOrRRM (rd rs1 : RegNum) (m : AddrMode) (rs2 : RegNum) (j : BitVec 5)
  /-- `uld.b` of the byte addressed with `Rs1 xor Rs2` (RRM, R271, R275); `j` has no effect (R96, D19). -/
  | uldbXorRRM (rd rs1 : RegNum) (m : AddrMode) (rs2 : RegNum) (j : BitVec 5)
  /-- `st` to the word addressed with `Rs1 add Rs2` (RRM, R272, R275); `j` and `e` have no effect (R96, D19). -/
  | stAddRRM (rd rs1 : RegNum) (m : AddrMode) (rs2 : RegNum) (j : BitVec 5) (e : Bool)
  /-- `st` to the word addressed with `Rs1 addc Rs2` (RRM, R272, R275); `j` and `e` have no effect (R96, D19). -/
  | stAddcRRM (rd rs1 : RegNum) (m : AddrMode) (rs2 : RegNum) (j : BitVec 5) (e : Bool)
  /-- `st` to the word addressed with `Rs1 sub Rs2` (RRM, R272, R275); `j` and `e` have no effect (R96, D19). -/
  | stSubRRM (rd rs1 : RegNum) (m : AddrMode) (rs2 : RegNum) (j : BitVec 5) (e : Bool)
  /-- `st` to the word addressed with `Rs1 subb Rs2` (RRM, R272, R275); `j` and `e` have no effect (R96, D19). -/
  | stSubbRRM (rd rs1 : RegNum) (m : AddrMode) (rs2 : RegNum) (j : BitVec 5) (e : Bool)
  /-- `st` to the word addressed with `Rs1 and Rs2` (RRM, R272, R275); `j` and `e` have no effect (R96, D19). -/
  | stAndRRM (rd rs1 : RegNum) (m : AddrMode) (rs2 : RegNum) (j : BitVec 5) (e : Bool)
  /-- `st` to the word addressed with `Rs1 or Rs2` (RRM, R272, R275); `j` and `e` have no effect (R96, D19). -/
  | stOrRRM (rd rs1 : RegNum) (m : AddrMode) (rs2 : RegNum) (j : BitVec 5) (e : Bool)
  /-- `st` to the word addressed with `Rs1 xor Rs2` (RRM, R272, R275); `j` and `e` have no effect (R96, D19). -/
  | stXorRRM (rd rs1 : RegNum) (m : AddrMode) (rs2 : RegNum) (j : BitVec 5) (e : Bool)
  /-- `st.h` to the half-word addressed with `Rs1 add Rs2` (RRM, R273, R275); `j` and `e` have no effect (R96, D19). -/
  | sthAddRRM (rd rs1 : RegNum) (m : AddrMode) (rs2 : RegNum) (j : BitVec 5) (e : Bool)
  /-- `st.h` to the half-word addressed with `Rs1 addc Rs2` (RRM, R273, R275); `j` and `e` have no effect (R96, D19). -/
  | sthAddcRRM (rd rs1 : RegNum) (m : AddrMode) (rs2 : RegNum) (j : BitVec 5) (e : Bool)
  /-- `st.h` to the half-word addressed with `Rs1 sub Rs2` (RRM, R273, R275); `j` and `e` have no effect (R96, D19). -/
  | sthSubRRM (rd rs1 : RegNum) (m : AddrMode) (rs2 : RegNum) (j : BitVec 5) (e : Bool)
  /-- `st.h` to the half-word addressed with `Rs1 subb Rs2` (RRM, R273, R275); `j` and `e` have no effect (R96, D19). -/
  | sthSubbRRM (rd rs1 : RegNum) (m : AddrMode) (rs2 : RegNum) (j : BitVec 5) (e : Bool)
  /-- `st.h` to the half-word addressed with `Rs1 and Rs2` (RRM, R273, R275); `j` and `e` have no effect (R96, D19). -/
  | sthAndRRM (rd rs1 : RegNum) (m : AddrMode) (rs2 : RegNum) (j : BitVec 5) (e : Bool)
  /-- `st.h` to the half-word addressed with `Rs1 or Rs2` (RRM, R273, R275); `j` and `e` have no effect (R96, D19). -/
  | sthOrRRM (rd rs1 : RegNum) (m : AddrMode) (rs2 : RegNum) (j : BitVec 5) (e : Bool)
  /-- `st.h` to the half-word addressed with `Rs1 xor Rs2` (RRM, R273, R275); `j` and `e` have no effect (R96, D19). -/
  | sthXorRRM (rd rs1 : RegNum) (m : AddrMode) (rs2 : RegNum) (j : BitVec 5) (e : Bool)
  /-- `st.b` to the byte addressed with `Rs1 add Rs2` (RRM, R274, R275); `j` and `e` have no effect (R96, D19). -/
  | stbAddRRM (rd rs1 : RegNum) (m : AddrMode) (rs2 : RegNum) (j : BitVec 5) (e : Bool)
  /-- `st.b` to the byte addressed with `Rs1 addc Rs2` (RRM, R274, R275); `j` and `e` have no effect (R96, D19). -/
  | stbAddcRRM (rd rs1 : RegNum) (m : AddrMode) (rs2 : RegNum) (j : BitVec 5) (e : Bool)
  /-- `st.b` to the byte addressed with `Rs1 sub Rs2` (RRM, R274, R275); `j` and `e` have no effect (R96, D19). -/
  | stbSubRRM (rd rs1 : RegNum) (m : AddrMode) (rs2 : RegNum) (j : BitVec 5) (e : Bool)
  /-- `st.b` to the byte addressed with `Rs1 subb Rs2` (RRM, R274, R275); `j` and `e` have no effect (R96, D19). -/
  | stbSubbRRM (rd rs1 : RegNum) (m : AddrMode) (rs2 : RegNum) (j : BitVec 5) (e : Bool)
  /-- `st.b` to the byte addressed with `Rs1 and Rs2` (RRM, R274, R275); `j` and `e` have no effect (R96, D19). -/
  | stbAndRRM (rd rs1 : RegNum) (m : AddrMode) (rs2 : RegNum) (j : BitVec 5) (e : Bool)
  /-- `st.b` to the byte addressed with `Rs1 or Rs2` (RRM, R274, R275); `j` and `e` have no effect (R96, D19). -/
  | stbOrRRM (rd rs1 : RegNum) (m : AddrMode) (rs2 : RegNum) (j : BitVec 5) (e : Bool)
  /-- `st.b` to the byte addressed with `Rs1 xor Rs2` (RRM, R274, R275); `j` and `e` have no effect (R96, D19). -/
  | stbXorRRM (rd rs1 : RegNum) (m : AddrMode) (rs2 : RegNum) (j : BitVec 5) (e : Bool)
  /-- `ld` of the word addressed with `Rs1 sh Rs2` (RRM, `BBB = 111`, R267, R275); `y` is `YLE`, without effect (R263). -/
  | ldShRRM (rd rs1 : RegNum) (m : AddrMode) (rs2 : RegNum) (y : BitVec 3)
  /-- `ld` of the word addressed with `Rs1 sha Rs2` (RRM, `BBB = 111`, R267, R275); `y` is `YLE`, without effect (R263). -/
  | ldShaRRM (rd rs1 : RegNum) (m : AddrMode) (rs2 : RegNum) (y : BitVec 3)
  /-- `st` of the word addressed with `Rs1 sh Rs2` (RRM, `BBB = 111`, R272, R275); `y` is `YLE`, without effect (R263). -/
  | stShRRM (rd rs1 : RegNum) (m : AddrMode) (rs2 : RegNum) (y : BitVec 3)
  /-- `st` of the word addressed with `Rs1 sha Rs2` (RRM, `BBB = 111`, R272, R275); `y` is `YLE`, without effect (R263). -/
  | stShaRRM (rd rs1 : RegNum) (m : AddrMode) (rs2 : RegNum) (y : BitVec 3)
  -- Conditional Branch (`46_br.md`)
  /-- `bt BRABS` (`r` = 0) or `bt.r BROFF` (`r` = 1): branch if 1 (BR, R294). -/
  | btBR (k : BitVec 23) (r : Bool)
  /-- `bf BRABS` (`r` = 0) or `bf.r BROFF` (`r` = 1): branch if 0 (BR, R295). -/
  | bfBR (k : BitVec 23) (r : Bool)
  /-- `bhi BRABS` (`r` = 0) or `bhi.r BROFF` (`r` = 1): branch if `C AND Z'` (BR, R296). -/
  | bhiBR (k : BitVec 23) (r : Bool)
  /-- `bls BRABS` (`r` = 0) or `bls.r BROFF` (`r` = 1): branch if `C' OR Z` (BR, R297). -/
  | blsBR (k : BitVec 23) (r : Bool)
  /-- `bcc BRABS` (`r` = 0) or `bcc.r BROFF` (`r` = 1): branch if `C'` (BR, R298). -/
  | bccBR (k : BitVec 23) (r : Bool)
  /-- `bcs BRABS` (`r` = 0) or `bcs.r BROFF` (`r` = 1): branch if `C` (BR, R299). -/
  | bcsBR (k : BitVec 23) (r : Bool)
  /-- `bne BRABS` (`r` = 0) or `bne.r BROFF` (`r` = 1): branch if `Z'` (BR, R300). -/
  | bneBR (k : BitVec 23) (r : Bool)
  /-- `beq BRABS` (`r` = 0) or `beq.r BROFF` (`r` = 1): branch if `Z` (BR, R301). -/
  | beqBR (k : BitVec 23) (r : Bool)
  /-- `bvc BRABS` (`r` = 0) or `bvc.r BROFF` (`r` = 1): branch if `V'` (BR, R302). -/
  | bvcBR (k : BitVec 23) (r : Bool)
  /-- `bvs BRABS` (`r` = 0) or `bvs.r BROFF` (`r` = 1): branch if `V` (BR, R303). -/
  | bvsBR (k : BitVec 23) (r : Bool)
  /-- `bpl BRABS` (`r` = 0) or `bpl.r BROFF` (`r` = 1): branch if `N'` (BR, R304). -/
  | bplBR (k : BitVec 23) (r : Bool)
  /-- `bmi BRABS` (`r` = 0) or `bmi.r BROFF` (`r` = 1): branch if `N` (BR, R305). -/
  | bmiBR (k : BitVec 23) (r : Bool)
  /-- `bge BRABS` (`r` = 0) or `bge.r BROFF` (`r` = 1): branch if `(N AND V) OR (N' AND V')` (BR, R306). -/
  | bgeBR (k : BitVec 23) (r : Bool)
  /-- `blt BRABS` (`r` = 0) or `blt.r BROFF` (`r` = 1): branch if `(N AND V') OR (N' AND V)` (BR, R307). -/
  | bltBR (k : BitVec 23) (r : Bool)
  /-- `bgt BRABS` (`r` = 0) or `bgt.r BROFF` (`r` = 1): branch if `(N AND V AND Z') OR (N' AND V' AND Z')` (BR, R308). -/
  | bgtBR (k : BitVec 23) (r : Bool)
  /-- `ble BRABS` (`r` = 0) or `ble.r BROFF` (`r` = 1): branch if `Z OR (N AND V') OR (N' AND V)` (BR, R309). -/
  | bleBR (k : BitVec 23) (r : Bool)
  -- PUNT (`47_punt.md`)
  /-- `punt`: switch to the other context (PUNT, R310, R311). -/
  | punt
  -- Special Load/Store (`48_special_ls.md`)
  /-- `ld [LCONST], Rd` (SLS, R322). -/
  | ldSLS (rd : RegNum) (a : BitVec 21)
  /-- `st Rd, [LCONST]` (SLS, R323). -/
  | stSLS (rd : RegNum) (a : BitVec 21)
  -- Special Load Immediate (`48_special_ls.md`)
  /-- `mov LCONST, Rd` (SLI, R325, R326). -/
  | movSLI (rd : RegNum) (k : BitVec 21)
  -- Part-word Load/Store (`48_special_ls.md`)
  /-- `ld.h` with base `Rs1` and a 10-bit signed constant (SPLS, R330). -/
  | ldhSPLS (rd rs1 : RegNum) (m : AddrMode) (k : BitVec 10)
  /-- `uld.h` with base `Rs1` and a 10-bit signed constant (SPLS, R331). -/
  | uldhSPLS (rd rs1 : RegNum) (m : AddrMode) (k : BitVec 10)
  /-- `ld.b` with base `Rs1` and a 10-bit signed constant (SPLS, R332). -/
  | ldbSPLS (rd rs1 : RegNum) (m : AddrMode) (k : BitVec 10)
  /-- `uld.b` with base `Rs1` and a 10-bit signed constant (SPLS, R333). -/
  | uldbSPLS (rd rs1 : RegNum) (m : AddrMode) (k : BitVec 10)
  /-- `st.h` with base `Rs1` and a 10-bit signed constant (SPLS, R334); `e` has no effect (D19). -/
  | sthSPLS (rd rs1 : RegNum) (m : AddrMode) (k : BitVec 10) (e : Bool)
  /-- `st.b` with base `Rs1` and a 10-bit signed constant (SPLS, R335); `e` has no effect (D19). -/
  | stbSPLS (rd rs1 : RegNum) (m : AddrMode) (k : BitVec 10) (e : Bool)
  -- Special Branch (`49_sbr.md`)
  /-- `bt Rs1 add Rs3`: branch to the sum if 1 (SBR, R351, R352). -/
  | btSBR (rs1 rs3 : RegNum)
  /-- `bf Rs1 add Rs3`: branch to the sum if 0 (SBR, R351, R352). -/
  | bfSBR (rs1 rs3 : RegNum)
  /-- `bhi Rs1 add Rs3`: branch to the sum if `C AND Z'` (SBR, R351, R352). -/
  | bhiSBR (rs1 rs3 : RegNum)
  /-- `bls Rs1 add Rs3`: branch to the sum if `C' OR Z` (SBR, R351, R352). -/
  | blsSBR (rs1 rs3 : RegNum)
  /-- `bcc Rs1 add Rs3`: branch to the sum if `C'` (SBR, R351, R352). -/
  | bccSBR (rs1 rs3 : RegNum)
  /-- `bcs Rs1 add Rs3`: branch to the sum if `C` (SBR, R351, R352). -/
  | bcsSBR (rs1 rs3 : RegNum)
  /-- `bne Rs1 add Rs3`: branch to the sum if `Z'` (SBR, R351, R352). -/
  | bneSBR (rs1 rs3 : RegNum)
  /-- `beq Rs1 add Rs3`: branch to the sum if `Z` (SBR, R351, R352). -/
  | beqSBR (rs1 rs3 : RegNum)
  /-- `bvc Rs1 add Rs3`: branch to the sum if `V'` (SBR, R351, R352). -/
  | bvcSBR (rs1 rs3 : RegNum)
  /-- `bvs Rs1 add Rs3`: branch to the sum if `V` (SBR, R351, R352). -/
  | bvsSBR (rs1 rs3 : RegNum)
  /-- `bpl Rs1 add Rs3`: branch to the sum if `N'` (SBR, R351, R352). -/
  | bplSBR (rs1 rs3 : RegNum)
  /-- `bmi Rs1 add Rs3`: branch to the sum if `N` (SBR, R351, R352). -/
  | bmiSBR (rs1 rs3 : RegNum)
  /-- `bge Rs1 add Rs3`: branch to the sum if `(N AND V) OR (N' AND V')` (SBR, R351, R352). -/
  | bgeSBR (rs1 rs3 : RegNum)
  /-- `blt Rs1 add Rs3`: branch to the sum if `(N AND V') OR (N' AND V)` (SBR, R351, R352). -/
  | bltSBR (rs1 rs3 : RegNum)
  /-- `bgt Rs1 add Rs3`: branch to the sum if `(N AND V AND Z') OR (N' AND V' AND Z')` (SBR, R351, R352). -/
  | bgtSBR (rs1 rs3 : RegNum)
  /-- `ble Rs1 add Rs3`: branch to the sum if `Z OR (N AND V') OR (N' AND V)` (SBR, R351, R352). -/
  | bleSBR (rs1 rs3 : RegNum)
deriving DecidableEq, Repr

end Sys2Proof
end

