-- ==== Sys2Proof/Decode.lean ====
section
/-! DEFINITION. From a word to an instruction and back (`30_encoding.md`). `decode` is total and rejects by name the
words of R110; `encode` is written from the same figures, field by field as they are drawn. -/

namespace Sys2Proof

/-- Why a word has no defined meaning (R110). -/
inductive DecodeError where
  /-- A reserved bit is 1 (R91, item 1; decision D1). -/
  | reservedBit
  /-- RR or RRM with `BBB = 111` and bit 7 clear (item 2; decision D2). -/
  | reservedOperation
  /-- RRM with `BBB != 111` and `YL = 11`, to which no width is assigned (item 3; decision D2). -/
  | noAccessWidth
  /-- Major opcode `1111` with bits 17:15 set that is neither SBR nor PUNT (item 4; decision D2). -/
  | unassignedSpecial
  /-- Fewer than the four bytes of a word. -/
  | truncated
deriving DecidableEq, Repr

/-- `w[lo+n-1 : lo]` (R8). -/
def field (w : Word) (lo n : Nat) : BitVec n := w.extractLsb' lo n

/-- `w[i]` (R8). -/
def bit (w : Word) (i : Nat) : Bool := w.getLsbD i

/-- The addressing mode of the bits `P` and `Q` (R99). -/
def addrModeOf (p q : Bool) : AddrMode :=
  match p, q with
  | false, false => .base
  | false, true => .postModify
  | true, false => .sum
  | true, true => .preModify

/-- The bits `PQ` of an addressing mode (R99). -/
def AddrMode.bits : AddrMode → BitVec 2
  | .base => 0#2
  | .postModify => 1#2
  | .sum => 2#2
  | .preModify => 3#2

/-- The first operation that `CCC` selects (R211). -/
def op1Of (ccc : BitVec 3) : Op1 :=
  match ccc.toNat with
  | 0 => .add
  | 1 => .addc
  | 2 => .sub
  | 3 => .subb
  | 4 => .and
  | 5 => .or
  | 6 => .xor
  | _ => .sha

/-- The field `CCC` of a first operation (R211). -/
def Op1.bits : Op1 → BitVec 3
  | .add => 0#3
  | .addc => 1#3
  | .sub => 2#3
  | .subb => 3#3
  | .and => 4#3
  | .or => 5#3
  | .xor => 6#3
  | .sha => 7#3

/-! ## Decoding, format by format -/

/-- RI (R93): bits 30:28 are `AAA`. -/
def decodeRI (w : Word) : Instr :=
  let rd := field w 23 5
  let rs1 := field w 18 5
  let f := bit w 17
  let h := bit w 16
  let k := field w 0 16
  match (field w 28 3).toNat with
  | 0 => .addRI rd rs1 f h k
  | 1 => .addcRI rd rs1 f h k
  | 2 => .subRI rd rs1 f h k
  | 3 => .subbRI rd rs1 f h k
  | 4 => .andRI rd rs1 f h k
  | 5 => .orRI rd rs1 f h k
  | 6 => .xorRI rd rs1 f h k
  | _ => if h then .shaRI rd rs1 f k else .shRI rd rs1 f k

/-- Which shift `JJJJJ` selects when `BBB = 111` (R96): true for the arithmetic one, an error where it is reserved. -/
def decodeShift (w : Word) : Except DecodeError Bool :=
  if bit w 7 then
    if field w 3 3 = 0#3 then .ok (bit w 6) else .error .reservedBit
  else .error .reservedOperation

/-- RR (R95, R96): bits 10:8 are `BBB`; bit 16 and bits 2:0 are reserved. -/
def decodeRR (w : Word) : Except DecodeError Instr :=
  let rd := field w 23 5
  let rs1 := field w 18 5
  let f := bit w 17
  let rs2 := field w 11 5
  let j := field w 3 5
  if bit w 16 || field w 0 3 != 0#3 then .error .reservedBit
  else
    match (field w 8 3).toNat with
    | 0 => .ok (.addRR rd rs1 f rs2 j)
    | 1 => .ok (.addcRR rd rs1 f rs2 j)
    | 2 => .ok (.subRR rd rs1 f rs2 j)
    | 3 => .ok (.subbRR rd rs1 f rs2 j)
    | 4 => .ok (.andRR rd rs1 f rs2 j)
    | 5 => .ok (.orRR rd rs1 f rs2 j)
    | 6 => .ok (.xorRR rd rs1 f rs2 j)
    | _ =>
      match decodeShift w with
      | .ok true => .ok (.shaRR rd rs1 f rs2)
      | .ok false => .ok (.shRR rd rs1 f rs2)
      | .error e => .error e

/-- RRR (R97): bits 10:8 are `AAA`; `H` is reserved but for the shifts (R212). -/
def decodeRRR (w : Word) : Except DecodeError Instr :=
  let rd := field w 23 5
  let rs1 := field w 18 5
  let f := bit w 17
  let h := bit w 16
  let rs2 := field w 11 5
  let rs3 := field w 3 5
  let op1 := op1Of (field w 0 3)
  match (field w 8 3).toNat, h with
  | 7, false => .ok (.putSh rd rs1 f rs2 rs3 op1)
  | 7, true => .ok (.putSha rd rs1 f rs2 rs3 op1)
  | _, true => .error .reservedBit
  | 0, false => .ok (.putAdd rd rs1 f rs2 rs3 op1)
  | 1, false => .ok (.putAddc rd rs1 f rs2 rs3 op1)
  | 2, false => .ok (.putSub rd rs1 f rs2 rs3 op1)
  | 3, false => .ok (.putSubb rd rs1 f rs2 rs3 op1)
  | 4, false => .ok (.putAnd rd rs1 f rs2 rs3 op1)
  | 5, false => .ok (.putOr rd rs1 f rs2 rs3 op1)
  | _, false => .ok (.putXor rd rs1 f rs2 rs3 op1)

/-- The RRM word load whose operation is `BBB` (R96, R275). -/
def rrmLd (op : Nat) (rd rs1 : RegNum) (m : AddrMode) (rs2 : RegNum) (j : BitVec 5) (e : Bool) : Instr :=
  match op with
  | 0 => .ldAddRRM rd rs1 m rs2 j e
  | 1 => .ldAddcRRM rd rs1 m rs2 j e
  | 2 => .ldSubRRM rd rs1 m rs2 j e
  | 3 => .ldSubbRRM rd rs1 m rs2 j e
  | 4 => .ldAndRRM rd rs1 m rs2 j e
  | 5 => .ldOrRRM rd rs1 m rs2 j e
  | _ => .ldXorRRM rd rs1 m rs2 j e

/-- The RRM sign-extending half-word load whose operation is `BBB` (R96, R275). -/
def rrmLdh (op : Nat) (rd rs1 : RegNum) (m : AddrMode) (rs2 : RegNum) (j : BitVec 5) : Instr :=
  match op with
  | 0 => .ldhAddRRM rd rs1 m rs2 j
  | 1 => .ldhAddcRRM rd rs1 m rs2 j
  | 2 => .ldhSubRRM rd rs1 m rs2 j
  | 3 => .ldhSubbRRM rd rs1 m rs2 j
  | 4 => .ldhAndRRM rd rs1 m rs2 j
  | 5 => .ldhOrRRM rd rs1 m rs2 j
  | _ => .ldhXorRRM rd rs1 m rs2 j

/-- The RRM zero-extending half-word load whose operation is `BBB` (R96, R275). -/
def rrmUldh (op : Nat) (rd rs1 : RegNum) (m : AddrMode) (rs2 : RegNum) (j : BitVec 5) : Instr :=
  match op with
  | 0 => .uldhAddRRM rd rs1 m rs2 j
  | 1 => .uldhAddcRRM rd rs1 m rs2 j
  | 2 => .uldhSubRRM rd rs1 m rs2 j
  | 3 => .uldhSubbRRM rd rs1 m rs2 j
  | 4 => .uldhAndRRM rd rs1 m rs2 j
  | 5 => .uldhOrRRM rd rs1 m rs2 j
  | _ => .uldhXorRRM rd rs1 m rs2 j

/-- The RRM sign-extending byte load whose operation is `BBB` (R96, R275). -/
def rrmLdb (op : Nat) (rd rs1 : RegNum) (m : AddrMode) (rs2 : RegNum) (j : BitVec 5) : Instr :=
  match op with
  | 0 => .ldbAddRRM rd rs1 m rs2 j
  | 1 => .ldbAddcRRM rd rs1 m rs2 j
  | 2 => .ldbSubRRM rd rs1 m rs2 j
  | 3 => .ldbSubbRRM rd rs1 m rs2 j
  | 4 => .ldbAndRRM rd rs1 m rs2 j
  | 5 => .ldbOrRRM rd rs1 m rs2 j
  | _ => .ldbXorRRM rd rs1 m rs2 j

/-- The RRM zero-extending byte load whose operation is `BBB` (R96, R275). -/
def rrmUldb (op : Nat) (rd rs1 : RegNum) (m : AddrMode) (rs2 : RegNum) (j : BitVec 5) : Instr :=
  match op with
  | 0 => .uldbAddRRM rd rs1 m rs2 j
  | 1 => .uldbAddcRRM rd rs1 m rs2 j
  | 2 => .uldbSubRRM rd rs1 m rs2 j
  | 3 => .uldbSubbRRM rd rs1 m rs2 j
  | 4 => .uldbAndRRM rd rs1 m rs2 j
  | 5 => .uldbOrRRM rd rs1 m rs2 j
  | _ => .uldbXorRRM rd rs1 m rs2 j

/-- The RRM word store whose operation is `BBB` (R96, R275). -/
def rrmSt (op : Nat) (rd rs1 : RegNum) (m : AddrMode) (rs2 : RegNum) (j : BitVec 5) (e : Bool) : Instr :=
  match op with
  | 0 => .stAddRRM rd rs1 m rs2 j e
  | 1 => .stAddcRRM rd rs1 m rs2 j e
  | 2 => .stSubRRM rd rs1 m rs2 j e
  | 3 => .stSubbRRM rd rs1 m rs2 j e
  | 4 => .stAndRRM rd rs1 m rs2 j e
  | 5 => .stOrRRM rd rs1 m rs2 j e
  | _ => .stXorRRM rd rs1 m rs2 j e

/-- The RRM half-word store whose operation is `BBB` (R96, R275). -/
def rrmSth (op : Nat) (rd rs1 : RegNum) (m : AddrMode) (rs2 : RegNum) (j : BitVec 5) (e : Bool) : Instr :=
  match op with
  | 0 => .sthAddRRM rd rs1 m rs2 j e
  | 1 => .sthAddcRRM rd rs1 m rs2 j e
  | 2 => .sthSubRRM rd rs1 m rs2 j e
  | 3 => .sthSubbRRM rd rs1 m rs2 j e
  | 4 => .sthAndRRM rd rs1 m rs2 j e
  | 5 => .sthOrRRM rd rs1 m rs2 j e
  | _ => .sthXorRRM rd rs1 m rs2 j e

/-- The RRM byte store whose operation is `BBB` (R96, R275). -/
def rrmStb (op : Nat) (rd rs1 : RegNum) (m : AddrMode) (rs2 : RegNum) (j : BitVec 5) (e : Bool) : Instr :=
  match op with
  | 0 => .stbAddRRM rd rs1 m rs2 j e
  | 1 => .stbAddcRRM rd rs1 m rs2 j e
  | 2 => .stbSubRRM rd rs1 m rs2 j e
  | 3 => .stbSubbRRM rd rs1 m rs2 j e
  | 4 => .stbAndRRM rd rs1 m rs2 j e
  | 5 => .stbOrRRM rd rs1 m rs2 j e
  | _ => .stbXorRRM rd rs1 m rs2 j e

/-- RRM (R100, R101): bit 28 is `S`, bits 10:8 are `BBB`, bits 2:0 are `YLE`. -/
def decodeRRM (w : Word) : Except DecodeError Instr :=
  let rd := field w 23 5
  let rs1 := field w 18 5
  let m := addrModeOf (bit w 17) (bit w 16)
  let rs2 := field w 11 5
  let j := field w 3 5
  let op := (field w 8 3).toNat
  let e := bit w 0
  if op = 7 then
    match decodeShift w, bit w 28 with
    | .error x, _ => .error x
    | .ok false, false => .ok (.ldShRRM rd rs1 m rs2 (field w 0 3))
    | .ok true, false => .ok (.ldShaRRM rd rs1 m rs2 (field w 0 3))
    | .ok false, true => .ok (.stShRRM rd rs1 m rs2 (field w 0 3))
    | .ok true, true => .ok (.stShaRRM rd rs1 m rs2 (field w 0 3))
  else
    match bit w 2, bit w 1, bit w 28 with
    | true, true, _ => .error .noAccessWidth
    | false, true, false => .ok (rrmLd op rd rs1 m rs2 j e)
    | false, true, true => .ok (rrmSt op rd rs1 m rs2 j e)
    | false, false, false => .ok (if e then rrmUldh op rd rs1 m rs2 j else rrmLdh op rd rs1 m rs2 j)
    | false, false, true => .ok (rrmSth op rd rs1 m rs2 j e)
    | true, false, false => .ok (if e then rrmUldb op rd rs1 m rs2 j else rrmLdb op rd rs1 m rs2 j)
    | true, false, true => .ok (rrmStb op rd rs1 m rs2 j e)

/-- The BR instruction of condition code `DDDI` (R103). -/
def brInstr (d : Nat) (k : BitVec 23) (r : Bool) : Instr :=
  match d with
  | 0 => .btBR k r
  | 1 => .bfBR k r
  | 2 => .bhiBR k r
  | 3 => .blsBR k r
  | 4 => .bccBR k r
  | 5 => .bcsBR k r
  | 6 => .bneBR k r
  | 7 => .beqBR k r
  | 8 => .bvcBR k r
  | 9 => .bvsBR k r
  | 10 => .bplBR k r
  | 11 => .bmiBR k r
  | 12 => .bgeBR k r
  | 13 => .bltBR k r
  | 14 => .bgtBR k r
  | _ => .bleBR k r

/-- The SBR instruction of condition code `DDDI` (R103). -/
def sbrInstr (d : Nat) (rs1 rs3 : RegNum) : Instr :=
  match d with
  | 0 => .btSBR rs1 rs3
  | 1 => .bfSBR rs1 rs3
  | 2 => .bhiSBR rs1 rs3
  | 3 => .blsSBR rs1 rs3
  | 4 => .bccSBR rs1 rs3
  | 5 => .bcsSBR rs1 rs3
  | 6 => .bneSBR rs1 rs3
  | 7 => .beqSBR rs1 rs3
  | 8 => .bvcSBR rs1 rs3
  | 9 => .bvsSBR rs1 rs3
  | 10 => .bplSBR rs1 rs3
  | 11 => .bmiSBR rs1 rs3
  | 12 => .bgeSBR rs1 rs3
  | 13 => .bltSBR rs1 rs3
  | 14 => .bgtSBR rs1 rs3
  | _ => .bleSBR rs1 rs3

/-- The condition code `DDDI`: bits 27:25, then bit 0 (R103). -/
def condCode (w : Word) : Nat := 2 * (field w 25 3).toNat + (bit w 0).toNat

/-- SPLS (R107): bits 14 to 10 are `Y`, `S`, `E`, `P`, `Q`. -/
def decodeSPLS (w : Word) : Instr :=
  let rd := field w 23 5
  let rs1 := field w 18 5
  let m := addrModeOf (bit w 11) (bit w 10)
  let k := field w 0 10
  let e := bit w 12
  match bit w 14, bit w 13 with
  | false, false => if e then .uldhSPLS rd rs1 m k else .ldhSPLS rd rs1 m k
  | true, false => if e then .uldbSPLS rd rs1 m k else .ldbSPLS rd rs1 m k
  | false, true => .sthSPLS rd rs1 m k e
  | true, true => .stbSPLS rd rs1 m k e

/-- Major opcode `1111` with bits 17:15 set (R104, R108, R109): SBR, PUNT or nothing. -/
def decodeBranchPunt (w : Word) : Except DecodeError Instr :=
  if field w 8 7 = 0x40#7 ∧ field w 1 2 = 0#2 then
    if field w 23 2 = 0#2 then .ok (sbrInstr (condCode w) (field w 18 5) (field w 3 5)) else .error .reservedBit
  else if field w 8 7 = 0x7F#7 ∧ bit w 6 = true ∧ field w 0 3 = 7#3 then
    if w = 0xF003FF47#32 then .ok .punt else .error .reservedBit
  else .error .unassignedSpecial

/-- Major opcode `1111` (R109): bits 17:16 select SLS, SLI or the rest. -/
def decodeSpecial (w : Word) : Except DecodeError Instr :=
  let rd := field w 23 5
  let a := field w 18 5 ++ field w 0 16
  match (field w 16 2).toNat with
  | 0 => .ok (.ldSLS rd a)
  | 1 => .ok (.stSLS rd a)
  | 2 => .ok (.movSLI rd a)
  | _ => if bit w 15 then decodeBranchPunt w else .ok (decodeSPLS w)

/-- The instruction of a word (R92: bits 31:28 are the major opcode), or the reason it has none (R110). -/
def decode (w : Word) : Except DecodeError Instr :=
  match (field w 28 4).toNat with
  | 0 | 1 | 2 | 3 | 4 | 5 | 6 | 7 => .ok (decodeRI w)
  | 8 => .ok (.ldRM (field w 23 5) (field w 18 5) (addrModeOf (bit w 17) (bit w 16)) (field w 0 16))
  | 9 => .ok (.stRM (field w 23 5) (field w 18 5) (addrModeOf (bit w 17) (bit w 16)) (field w 0 16))
  | 10 | 11 => decodeRRM w
  | 12 => decodeRR w
  | 13 => decodeRRR w
  | 14 => .ok (brInstr (condCode w) (field w 2 23) (bit w 1))
  | _ => decodeSpecial w

/-- The word whose bytes are `b0` to `b3`, `b0` at the lowest address (R62, R65: instruction words are big-endian). -/
def wordOfBytes (b0 b1 b2 b3 : Byte) : Word := b0 ++ b1 ++ b2 ++ b3

/-- The instruction at the head of a list of bytes, lowest address first, and the bytes after it (R65, R90). -/
def decodeBytes : List Byte → Except DecodeError (Instr × List Byte)
  | b0 :: b1 :: b2 :: b3 :: rest =>
    match decode (wordOfBytes b0 b1 b2 b3) with
    | .ok i => .ok (i, rest)
    | .error e => .error e
  | _ => .error .truncated

/-- The four bytes of a word as memory holds it, lowest address first (R62). -/
def bytesOfWord (w : Word) : List Byte := [field w 24 8, field w 16 8, field w 8 8, field w 0 8]

/-- The word that `nbits` bits of `w` stand for, every bit above them 0. -/
def tableWord (nbits w : Nat) : Word := BitVec.ofNat 32 (w % 2 ^ nbits)

/-- The instruction the decoder reads from the opcode-table bits `w`, laid out in memory as the hardware stores them. -/
def decodeTableWord (nbits w : Nat) : Option Instr :=
  match decodeBytes (bytesOfWord (tableWord nbits w)) with
  | .ok (i, _) => some i
  | .error _ => none

/-! ## Encoding, format by format: the cells of each figure from bit 31 down -/

/-- The figure of RI (R93). -/
def encodeRI (aaa : BitVec 3) (rd rs1 : RegNum) (f h : Bool) (k : BitVec 16) : Word :=
  (0#1 ++ aaa ++ rd ++ rs1 ++ BitVec.ofBool f ++ BitVec.ofBool h ++ k).setWidth 32

/-- The figure of RR (R95), its reserved bits 0. -/
def encodeRR (rd rs1 : RegNum) (f : Bool) (rs2 : RegNum) (bbb : BitVec 3) (j : BitVec 5) : Word :=
  (12#4 ++ rd ++ rs1 ++ BitVec.ofBool f ++ 0#1 ++ rs2 ++ bbb ++ j ++ 0#3).setWidth 32

/-- The figure of RRR (R97). -/
def encodeRRR (rd rs1 : RegNum) (f h : Bool) (rs2 : RegNum) (aaa : BitVec 3) (rs3 : RegNum) (op1 : Op1) : Word :=
  (13#4 ++ rd ++ rs1 ++ BitVec.ofBool f ++ BitVec.ofBool h ++ rs2 ++ aaa ++ rs3 ++ op1.bits).setWidth 32

/-- The figure of RM (R98). -/
def encodeRM (st : Bool) (rd rs1 : RegNum) (m : AddrMode) (k : BitVec 16) : Word :=
  (4#3 ++ BitVec.ofBool st ++ rd ++ rs1 ++ m.bits ++ k).setWidth 32

/-- The bits `YLE` (R101). -/
def yle (y l e : Bool) : BitVec 3 := BitVec.ofBool y ++ BitVec.ofBool l ++ BitVec.ofBool e

/-- The figure of RRM (R100). -/
def encodeRRM (st : Bool) (rd rs1 : RegNum) (m : AddrMode) (rs2 : RegNum) (bbb : BitVec 3) (j : BitVec 5)
    (y : BitVec 3) : Word :=
  (5#3 ++ BitVec.ofBool st ++ rd ++ rs1 ++ m.bits ++ rs2 ++ bbb ++ j ++ y).setWidth 32

/-- The figure of BR (R102), with the condition code `DDDI`. -/
def encodeBR (d : BitVec 4) (k : BitVec 23) (r : Bool) : Word :=
  (14#4 ++ d.extractLsb' 1 3 ++ k ++ BitVec.ofBool r ++ d.extractLsb' 0 1).setWidth 32

/-- The figure of SLS (R105). -/
def encodeSLS (st : Bool) (rd : RegNum) (a : BitVec 21) : Word :=
  (15#4 ++ rd ++ a.extractLsb' 16 5 ++ 0#1 ++ BitVec.ofBool st ++ a.extractLsb' 0 16).setWidth 32

/-- The figure of SLI (R106). -/
def encodeSLI (rd : RegNum) (k : BitVec 21) : Word :=
  (15#4 ++ rd ++ k.extractLsb' 16 5 ++ 2#2 ++ k.extractLsb' 0 16).setWidth 32

/-- The figure of SPLS (R107). -/
def encodeSPLS (rd rs1 : RegNum) (y st e : Bool) (m : AddrMode) (k : BitVec 10) : Word :=
  (15#4 ++ rd ++ rs1 ++ 6#3 ++ BitVec.ofBool y ++ BitVec.ofBool st ++ BitVec.ofBool e ++ m.bits ++ k).setWidth 32

/-- The figure of SBR (R108), its reserved bits 0, with the condition code `DDDI` and `Rs3` in bits 7:3. -/
def encodeSBR (d : BitVec 4) (rs1 rs3 : RegNum) : Word :=
  (15#4 ++ d.extractLsb' 1 3 ++ 0#2 ++ rs1 ++ 0x3C0#10 ++ rs3 ++ 0#2 ++ d.extractLsb' 0 1).setWidth 32

/-- The word of an instruction. -/
def encode : Instr → Word
  | .addRI rd rs1 f h k => encodeRI 0#3 rd rs1 f h k
  | .addcRI rd rs1 f h k => encodeRI 1#3 rd rs1 f h k
  | .subRI rd rs1 f h k => encodeRI 2#3 rd rs1 f h k
  | .subbRI rd rs1 f h k => encodeRI 3#3 rd rs1 f h k
  | .andRI rd rs1 f h k => encodeRI 4#3 rd rs1 f h k
  | .orRI rd rs1 f h k => encodeRI 5#3 rd rs1 f h k
  | .xorRI rd rs1 f h k => encodeRI 6#3 rd rs1 f h k
  | .shRI rd rs1 f k => encodeRI 7#3 rd rs1 f false k
  | .shaRI rd rs1 f k => encodeRI 7#3 rd rs1 f true k
  | .addRR rd rs1 f rs2 j => encodeRR rd rs1 f rs2 0#3 j
  | .addcRR rd rs1 f rs2 j => encodeRR rd rs1 f rs2 1#3 j
  | .subRR rd rs1 f rs2 j => encodeRR rd rs1 f rs2 2#3 j
  | .subbRR rd rs1 f rs2 j => encodeRR rd rs1 f rs2 3#3 j
  | .andRR rd rs1 f rs2 j => encodeRR rd rs1 f rs2 4#3 j
  | .orRR rd rs1 f rs2 j => encodeRR rd rs1 f rs2 5#3 j
  | .xorRR rd rs1 f rs2 j => encodeRR rd rs1 f rs2 6#3 j
  | .shRR rd rs1 f rs2 => encodeRR rd rs1 f rs2 7#3 16#5
  | .shaRR rd rs1 f rs2 => encodeRR rd rs1 f rs2 7#3 24#5
  | .putAdd rd rs1 f rs2 rs3 op1 => encodeRRR rd rs1 f false rs2 0#3 rs3 op1
  | .putAddc rd rs1 f rs2 rs3 op1 => encodeRRR rd rs1 f false rs2 1#3 rs3 op1
  | .putSub rd rs1 f rs2 rs3 op1 => encodeRRR rd rs1 f false rs2 2#3 rs3 op1
  | .putSubb rd rs1 f rs2 rs3 op1 => encodeRRR rd rs1 f false rs2 3#3 rs3 op1
  | .putAnd rd rs1 f rs2 rs3 op1 => encodeRRR rd rs1 f false rs2 4#3 rs3 op1
  | .putOr rd rs1 f rs2 rs3 op1 => encodeRRR rd rs1 f false rs2 5#3 rs3 op1
  | .putXor rd rs1 f rs2 rs3 op1 => encodeRRR rd rs1 f false rs2 6#3 rs3 op1
  | .putSh rd rs1 f rs2 rs3 op1 => encodeRRR rd rs1 f false rs2 7#3 rs3 op1
  | .putSha rd rs1 f rs2 rs3 op1 => encodeRRR rd rs1 f true rs2 7#3 rs3 op1
  | .ldRM rd rs1 m k => encodeRM false rd rs1 m k
  | .stRM rd rs1 m k => encodeRM true rd rs1 m k
  | .ldAddRRM rd rs1 m rs2 j e => encodeRRM false rd rs1 m rs2 0#3 j (yle false true e)
  | .ldAddcRRM rd rs1 m rs2 j e => encodeRRM false rd rs1 m rs2 1#3 j (yle false true e)
  | .ldSubRRM rd rs1 m rs2 j e => encodeRRM false rd rs1 m rs2 2#3 j (yle false true e)
  | .ldSubbRRM rd rs1 m rs2 j e => encodeRRM false rd rs1 m rs2 3#3 j (yle false true e)
  | .ldAndRRM rd rs1 m rs2 j e => encodeRRM false rd rs1 m rs2 4#3 j (yle false true e)
  | .ldOrRRM rd rs1 m rs2 j e => encodeRRM false rd rs1 m rs2 5#3 j (yle false true e)
  | .ldXorRRM rd rs1 m rs2 j e => encodeRRM false rd rs1 m rs2 6#3 j (yle false true e)
  | .ldhAddRRM rd rs1 m rs2 j => encodeRRM false rd rs1 m rs2 0#3 j (yle false false false)
  | .ldhAddcRRM rd rs1 m rs2 j => encodeRRM false rd rs1 m rs2 1#3 j (yle false false false)
  | .ldhSubRRM rd rs1 m rs2 j => encodeRRM false rd rs1 m rs2 2#3 j (yle false false false)
  | .ldhSubbRRM rd rs1 m rs2 j => encodeRRM false rd rs1 m rs2 3#3 j (yle false false false)
  | .ldhAndRRM rd rs1 m rs2 j => encodeRRM false rd rs1 m rs2 4#3 j (yle false false false)
  | .ldhOrRRM rd rs1 m rs2 j => encodeRRM false rd rs1 m rs2 5#3 j (yle false false false)
  | .ldhXorRRM rd rs1 m rs2 j => encodeRRM false rd rs1 m rs2 6#3 j (yle false false false)
  | .uldhAddRRM rd rs1 m rs2 j => encodeRRM false rd rs1 m rs2 0#3 j (yle false false true)
  | .uldhAddcRRM rd rs1 m rs2 j => encodeRRM false rd rs1 m rs2 1#3 j (yle false false true)
  | .uldhSubRRM rd rs1 m rs2 j => encodeRRM false rd rs1 m rs2 2#3 j (yle false false true)
  | .uldhSubbRRM rd rs1 m rs2 j => encodeRRM false rd rs1 m rs2 3#3 j (yle false false true)
  | .uldhAndRRM rd rs1 m rs2 j => encodeRRM false rd rs1 m rs2 4#3 j (yle false false true)
  | .uldhOrRRM rd rs1 m rs2 j => encodeRRM false rd rs1 m rs2 5#3 j (yle false false true)
  | .uldhXorRRM rd rs1 m rs2 j => encodeRRM false rd rs1 m rs2 6#3 j (yle false false true)
  | .ldbAddRRM rd rs1 m rs2 j => encodeRRM false rd rs1 m rs2 0#3 j (yle true false false)
  | .ldbAddcRRM rd rs1 m rs2 j => encodeRRM false rd rs1 m rs2 1#3 j (yle true false false)
  | .ldbSubRRM rd rs1 m rs2 j => encodeRRM false rd rs1 m rs2 2#3 j (yle true false false)
  | .ldbSubbRRM rd rs1 m rs2 j => encodeRRM false rd rs1 m rs2 3#3 j (yle true false false)
  | .ldbAndRRM rd rs1 m rs2 j => encodeRRM false rd rs1 m rs2 4#3 j (yle true false false)
  | .ldbOrRRM rd rs1 m rs2 j => encodeRRM false rd rs1 m rs2 5#3 j (yle true false false)
  | .ldbXorRRM rd rs1 m rs2 j => encodeRRM false rd rs1 m rs2 6#3 j (yle true false false)
  | .uldbAddRRM rd rs1 m rs2 j => encodeRRM false rd rs1 m rs2 0#3 j (yle true false true)
  | .uldbAddcRRM rd rs1 m rs2 j => encodeRRM false rd rs1 m rs2 1#3 j (yle true false true)
  | .uldbSubRRM rd rs1 m rs2 j => encodeRRM false rd rs1 m rs2 2#3 j (yle true false true)
  | .uldbSubbRRM rd rs1 m rs2 j => encodeRRM false rd rs1 m rs2 3#3 j (yle true false true)
  | .uldbAndRRM rd rs1 m rs2 j => encodeRRM false rd rs1 m rs2 4#3 j (yle true false true)
  | .uldbOrRRM rd rs1 m rs2 j => encodeRRM false rd rs1 m rs2 5#3 j (yle true false true)
  | .uldbXorRRM rd rs1 m rs2 j => encodeRRM false rd rs1 m rs2 6#3 j (yle true false true)
  | .stAddRRM rd rs1 m rs2 j e => encodeRRM true rd rs1 m rs2 0#3 j (yle false true e)
  | .stAddcRRM rd rs1 m rs2 j e => encodeRRM true rd rs1 m rs2 1#3 j (yle false true e)
  | .stSubRRM rd rs1 m rs2 j e => encodeRRM true rd rs1 m rs2 2#3 j (yle false true e)
  | .stSubbRRM rd rs1 m rs2 j e => encodeRRM true rd rs1 m rs2 3#3 j (yle false true e)
  | .stAndRRM rd rs1 m rs2 j e => encodeRRM true rd rs1 m rs2 4#3 j (yle false true e)
  | .stOrRRM rd rs1 m rs2 j e => encodeRRM true rd rs1 m rs2 5#3 j (yle false true e)
  | .stXorRRM rd rs1 m rs2 j e => encodeRRM true rd rs1 m rs2 6#3 j (yle false true e)
  | .sthAddRRM rd rs1 m rs2 j e => encodeRRM true rd rs1 m rs2 0#3 j (yle false false e)
  | .sthAddcRRM rd rs1 m rs2 j e => encodeRRM true rd rs1 m rs2 1#3 j (yle false false e)
  | .sthSubRRM rd rs1 m rs2 j e => encodeRRM true rd rs1 m rs2 2#3 j (yle false false e)
  | .sthSubbRRM rd rs1 m rs2 j e => encodeRRM true rd rs1 m rs2 3#3 j (yle false false e)
  | .sthAndRRM rd rs1 m rs2 j e => encodeRRM true rd rs1 m rs2 4#3 j (yle false false e)
  | .sthOrRRM rd rs1 m rs2 j e => encodeRRM true rd rs1 m rs2 5#3 j (yle false false e)
  | .sthXorRRM rd rs1 m rs2 j e => encodeRRM true rd rs1 m rs2 6#3 j (yle false false e)
  | .stbAddRRM rd rs1 m rs2 j e => encodeRRM true rd rs1 m rs2 0#3 j (yle true false e)
  | .stbAddcRRM rd rs1 m rs2 j e => encodeRRM true rd rs1 m rs2 1#3 j (yle true false e)
  | .stbSubRRM rd rs1 m rs2 j e => encodeRRM true rd rs1 m rs2 2#3 j (yle true false e)
  | .stbSubbRRM rd rs1 m rs2 j e => encodeRRM true rd rs1 m rs2 3#3 j (yle true false e)
  | .stbAndRRM rd rs1 m rs2 j e => encodeRRM true rd rs1 m rs2 4#3 j (yle true false e)
  | .stbOrRRM rd rs1 m rs2 j e => encodeRRM true rd rs1 m rs2 5#3 j (yle true false e)
  | .stbXorRRM rd rs1 m rs2 j e => encodeRRM true rd rs1 m rs2 6#3 j (yle true false e)
  | .ldShRRM rd rs1 m rs2 y => encodeRRM false rd rs1 m rs2 7#3 16#5 y
  | .ldShaRRM rd rs1 m rs2 y => encodeRRM false rd rs1 m rs2 7#3 24#5 y
  | .stShRRM rd rs1 m rs2 y => encodeRRM true rd rs1 m rs2 7#3 16#5 y
  | .stShaRRM rd rs1 m rs2 y => encodeRRM true rd rs1 m rs2 7#3 24#5 y
  | .btBR k r => encodeBR 0#4 k r
  | .bfBR k r => encodeBR 1#4 k r
  | .bhiBR k r => encodeBR 2#4 k r
  | .blsBR k r => encodeBR 3#4 k r
  | .bccBR k r => encodeBR 4#4 k r
  | .bcsBR k r => encodeBR 5#4 k r
  | .bneBR k r => encodeBR 6#4 k r
  | .beqBR k r => encodeBR 7#4 k r
  | .bvcBR k r => encodeBR 8#4 k r
  | .bvsBR k r => encodeBR 9#4 k r
  | .bplBR k r => encodeBR 10#4 k r
  | .bmiBR k r => encodeBR 11#4 k r
  | .bgeBR k r => encodeBR 12#4 k r
  | .bltBR k r => encodeBR 13#4 k r
  | .bgtBR k r => encodeBR 14#4 k r
  | .bleBR k r => encodeBR 15#4 k r
  | .punt => 0xF003FF47#32
  | .ldSLS rd a => encodeSLS false rd a
  | .stSLS rd a => encodeSLS true rd a
  | .movSLI rd k => encodeSLI rd k
  | .ldhSPLS rd rs1 m k => encodeSPLS rd rs1 false false false m k
  | .uldhSPLS rd rs1 m k => encodeSPLS rd rs1 false false true m k
  | .ldbSPLS rd rs1 m k => encodeSPLS rd rs1 true false false m k
  | .uldbSPLS rd rs1 m k => encodeSPLS rd rs1 true false true m k
  | .sthSPLS rd rs1 m k e => encodeSPLS rd rs1 false true e m k
  | .stbSPLS rd rs1 m k e => encodeSPLS rd rs1 true true e m k
  | .btSBR rs1 rs3 => encodeSBR 0#4 rs1 rs3
  | .bfSBR rs1 rs3 => encodeSBR 1#4 rs1 rs3
  | .bhiSBR rs1 rs3 => encodeSBR 2#4 rs1 rs3
  | .blsSBR rs1 rs3 => encodeSBR 3#4 rs1 rs3
  | .bccSBR rs1 rs3 => encodeSBR 4#4 rs1 rs3
  | .bcsSBR rs1 rs3 => encodeSBR 5#4 rs1 rs3
  | .bneSBR rs1 rs3 => encodeSBR 6#4 rs1 rs3
  | .beqSBR rs1 rs3 => encodeSBR 7#4 rs1 rs3
  | .bvcSBR rs1 rs3 => encodeSBR 8#4 rs1 rs3
  | .bvsSBR rs1 rs3 => encodeSBR 9#4 rs1 rs3
  | .bplSBR rs1 rs3 => encodeSBR 10#4 rs1 rs3
  | .bmiSBR rs1 rs3 => encodeSBR 11#4 rs1 rs3
  | .bgeSBR rs1 rs3 => encodeSBR 12#4 rs1 rs3
  | .bltSBR rs1 rs3 => encodeSBR 13#4 rs1 rs3
  | .bgtSBR rs1 rs3 => encodeSBR 14#4 rs1 rs3
  | .bleSBR rs1 rs3 => encodeSBR 15#4 rs1 rs3

/-! ## The assembler's operands and pseudo-instructions (R114 to R119)

What a field holds for an operand as the assembler's tables write it, and the instructions they have other names for. The
machine does not read them. -/

/-- `CONST`: "A 32 bit unsigned constant with either the high or low halfword == 0": `H` and the field (R114). -/
def constOperand (c : Word) : Option (Bool × BitVec 16) :=
  if field c 16 16 = 0x0000#16 then some (false, field c 0 16)
  else if field c 0 16 = 0x0000#16 then some (true, field c 16 16)
  else none

/-- `AND_CONST`: one half-word is 0xFFFF (R114). -/
def andConstOperand (c : Word) : Option (Bool × BitVec 16) :=
  if field c 16 16 = 0xFFFF#16 then some (false, field c 0 16)
  else if field c 0 16 = 0xFFFF#16 then some (true, field c 16 16)
  else none

/-- `SHIFT_CONST`: -31 to 31, written with a sign or as a 32-bit constant (R114). -/
def shiftConstOperand (c : Word) : Option (BitVec 16) :=
  if -31 ≤ c.toInt ∧ c.toInt ≤ 31 then some (c.setWidth 16) else none

/-- `SIGNED_CONST` (16 bits) and `SIGNED_CONST_10` (R114): the field whose sign extension is the constant. -/
def signedConstOperand (n : Nat) (c : Word) : Option (BitVec n) :=
  if (c.setWidth n).signExtend 32 = c then some (c.setWidth n) else none

/-- `LCONST`: a 21-bit unsigned constant (R114). -/
def lconstOperand (c : Word) : Option (BitVec 21) := if c.toNat < 2 ^ 21 then some (c.setWidth 21) else none

/-- `BRABS`: a multiple of 4 up to 2^25 - 4, divided by 4 in the field (R114, C9). -/
def brabsOperand (c : Word) : Option (BitVec 23) :=
  if field c 0 2 = 0#2 ∧ c.toNat < 2 ^ 25 then some (field c 2 23) else none

/-- `BROFF`: a multiple of 4 from -2^24 to 2^24 - 4, divided by 4 in the field (R114). -/
def broffOperand (c : Word) : Option (BitVec 23) :=
  if field c 0 2 = 0#2 ∧ -2 ^ 24 ≤ c.toInt ∧ c.toInt < 2 ^ 24 then some (field c 2 23) else none

/-- `nop` (R116, R177). -/
def Instr.nop : Instr := .addRI 0#5 0#5 false false 0#16

/-- `mov CONST, Rd` (R116; decision D17). -/
def Instr.movConst (c : Word) (rd : RegNum) : Option Instr :=
  (constOperand c).map fun k => .addRI rd 0#5 false k.1 k.2

/-- `mov AND_CONST, Rd` (R116; decision D17). -/
def Instr.movAndConst (c : Word) (rd : RegNum) : Option Instr :=
  (andConstOperand c).map fun k => .andRI rd 1#5 false k.1 k.2

/-- `mov Rs, Rd` (R116, R204; decision D17). -/
def Instr.movReg (rs rd : RegNum) : Instr := .addRR rd rs false 0#5 0#5

/-- `mov LCONST, Rd` (R116). -/
def Instr.movLconst (c : Word) (rd : RegNum) : Option Instr := (lconstOperand c).map (.movSLI rd)

/-- `b?? SRC3` (R116, R354; decision D17), for the SBR instruction of the condition. -/
def Instr.branchTo (sbr : RegNum → RegNum → Instr) (src3 : RegNum) : Instr := sbr 0#5 src3

/-- The constant of `--` and `++` (R118, R119): the access width, subtracted or added. -/
def stepConst (n : Nat) (increment : Bool) (width : Nat) : BitVec n :=
  BitVec.ofInt n (if increment then (width : Int) else -(width : Int))

/-- `ld [--SRC1], Rd` and the like (R118): RM, pre- or post-modified by 4. -/
def Instr.ldStep (rd src1 : RegNum) (m : AddrMode) (increment : Bool) : Instr :=
  .ldRM rd src1 m (stepConst 16 increment 4)

/-- `st SRC1, [--SRC3]` and the like (R119). -/
def Instr.stStep (src1 src3 : RegNum) (m : AddrMode) (increment : Bool) : Instr :=
  .stRM src1 src3 m (stepConst 16 increment 4)

/-- `ld.h`, `uld.h` and `st.h` with `--` or `++` (R118 to R120): SPLS, modified by 2, for the SPLS instruction named. -/
def Instr.halfStep (spls : RegNum → RegNum → AddrMode → BitVec 10 → Instr) (r base : RegNum) (m : AddrMode)
    (increment : Bool) : Instr :=
  spls r base m (stepConst 10 increment 2)

/-- `ld.b`, `uld.b` and `st.b` with `--` or `++` (R118 to R120): SPLS, modified by 1. -/
def Instr.byteStep (spls : RegNum → RegNum → AddrMode → BitVec 10 → Instr) (r base : RegNum) (m : AddrMode)
    (increment : Bool) : Instr :=
  spls r base m (stepConst 10 increment 1)

end Sys2Proof
end

