-- ==== Sys2Proof/Config.lean ====
section
/-! DEFINITION. What the spec calls parameters of the model (`00_scope.md` R7, the table at the end of
`92_eei_decisions.md`), and the free values: the answers nothing in the spec determines.

A parameter that a claim or a host supplies is a field of `Params`, which State carries and no step changes, so a
statement about every state holds for every setting. A value nothing determines is an OPAQUE constant with no body,
so no proof can know what it is. -/

namespace Sys2Proof

/-- A range of byte addresses, `base` up to but not including `base + size`. -/
structure Region where
  base : Nat
  size : Nat
deriving DecidableEq, Repr

/-- `RD_RESTRICTION` (R7, R35; decision D3, conflicts C1 and C15): what a word of format RRR, RM, RRM, SLS or SPLS
whose `Rd` field is 2 (`pc`) or 31 (`isr`) does. -/
inductive RdRestriction where
  /-- The word has no meaning: the model refuses it (the spec's default). -/
  | refuse
  /-- The word runs by the general rules of the time step: one shadow for RRR, two for a load into `pc`. -/
  | pipeline
deriving DecidableEq, Repr

/-- `RRR_LOGIC_C` (R214; decision D7, conflict C3): the carry flag after an RRR whose second operation is `and`, `or` or
`xor`, with `F = 1`. -/
inductive RrrLogicC where
  /-- `C` keeps its value, as in RR (the spec's default). -/
  | unchanged
  /-- `C` becomes 0, as in RI. -/
  | cleared
deriving DecidableEq, Repr

/-- `ISR_WRITE` (R31, R34; decision D10): what a write of register 31 does. The source states nothing. -/
inductive IsrWrite where
  /-- The step is refused (the spec's default). -/
  | refuse
  /-- DESIGN CHOICE (log 13): the write goes to whatever drives `isr` outside the core and changes nothing in the core
  but through the next value of `ISR_INPUT`, which nothing constrains. -/
  | environment
deriving DecidableEq, Repr

/-- `RESET_LATCHES_USER` (R7, R45; decision D11): what the user context's two latches hold after reset. The source says
nothing. -/
inductive ResetLatchesUser where
  /-- Nothing: a bubble and no pending operation (the spec's default). -/
  | bubble
  /-- Any instruction and any operation: free values. -/
  | unspecified
deriving DecidableEq, Repr

/-- The parameters a claim or a host gives the model (R7). No step changes them. -/
structure Params where
  /-- `DBG_BIT`: the position of the always-set bit of `isr` (R31, D10). -/
  dbgBit : Fin 32
  /-- `MEM_IMPLEMENTED`: the byte addresses that are backed by memory (R61, D14). -/
  memImplemented : List Region
  /-- `STATE_REG_ADDRS`: the addresses of `IPF`, `CUR`, `PREV`, `DPF` and `DATA` of both contexts (R41, D15). -/
  stateRegAddrs : List Region
  rdRestriction : RdRestriction
  rrrLogicC : RrrLogicC
  isrWrite : IsrWrite
  /-- Read by the reset alone (`State.resetWith`). -/
  resetLatchesUser : ResetLatchesUser
deriving DecidableEq, Repr

/-- `DBG_BIT` of the machine that `State.reset` describes: any of 0 to 31 (D10, OPEN), so an opaque constant. -/
opaque Config.dbgBit : Fin 32

/-- The 32-bit result `any32` of a shift the source leaves undefined (R10, R169, D6), one for each time step. -/
opaque Config.freeWord : Nat → Word

/-- The four flags `C V N Z` (bits 3 to 0) after such a shift with `F = 1` (R169, D6), one for each time step. -/
opaque Config.freeFlags : Nat → BitVec 4

/-- The order of a store and an instruction fetch of the same word in one time step (R71, D16): true when the fetch
sees the stored word. -/
opaque Config.storeBeforeFetch : Nat → Bool

/-- `ISR_INPUT` (R7, R377, D10): the 32-bit input that drives `isr` at the end of each time step. -/
opaque Config.isrInput : Nat → Word

/-- What a byte of memory holds that nothing has written (R45, `93_implementation_defined.md` U16: any value). -/
opaque Config.powerOnByte : Nat → Byte

/-- The parameters of the machine that `State.reset` describes: the spec's default of every parameter that has one
(the table at the end of `92_eei_decisions.md`). DESIGN CHOICE (log 9): all 2^32 addresses are backed by memory. -/
def Params.atReset : Params :=
  { dbgBit := Config.dbgBit
    memImplemented := [⟨0, 0x100000000⟩]
    stateRegAddrs := []
    rdRestriction := .refuse
    rrrLogicC := .unchanged
    isrWrite := .refuse
    resetLatchesUser := .bubble }

end Sys2Proof
end

