-- ==== Sys2Proof/Machine/State.lean ====
section
/-! DEFINITION. The state of the machine as plain data (`10_state.md` R20), the reasons a step stops, and the state after
reset (R44, R45). -/

namespace Sys2Proof.Machine

/-- The two contexts (R37, R372). The constructors' order is the value of `cur` and of `ps.U`: 0, then 1. -/
inductive Context where
  /-- `cur` = 0: not interruptible. -/
  | system
  /-- `cur` = 1: interruptible. -/
  | user
deriving DecidableEq, Repr

/-- The four condition flags of a context (R27). -/
structure Flags where
  c : Bool
  v : Bool
  n : Bool
  z : Bool
deriving DecidableEq, Repr

/-- The width of a memory access (R67). -/
inductive Width where
  | byte | half | word
deriving DecidableEq, Repr, Inhabited

/-- How a part-word load fills the high bits of its register (R67). -/
inductive Extension where
  | sign | zero
deriving DecidableEq, Repr, Inhabited

/-- `IR[c]`: the fetched-instruction latch (R39). -/
inductive Latch where
  /-- An empty latch, which computes as the no-op. -/
  | bubble
  | word (w : Word)
deriving DecidableEq, Repr, Inhabited

/-- `MS[c]`: the memory-stage latch (R40). -/
inductive MemOp where
  /-- `none` of R40. -/
  | idle
  | load (ea : Word) (n : Width) (ext : Extension) (rd : RegNum)
  | store (ea : Word) (n : Width) (data : Word)
  /-- The delayed write of SLI (R325). -/
  | imm (value : Word) (rd : RegNum)
deriving DecidableEq, Repr, Inhabited

end Sys2Proof.Machine

namespace Sys2Proof

/-- `IR[1]` after reset where `RESET_LATCHES_USER` is `unspecified` (D11): a free value. -/
opaque Config.powerOnLatch : Machine.Latch

/-- `MS[1]` after reset where `RESET_LATCHES_USER` is `unspecified` (D11): a free value. -/
opaque Config.powerOnMemOp : Machine.MemOp

end Sys2Proof

namespace Sys2Proof.Machine

/-- What each context has of its own (R37). -/
structure CtxState where
  /-- `PC[c]`, bits 1:0 hard-wired to zero (R25). -/
  pc : Word
  /-- `FL[c]`. -/
  flags : Flags
  /-- `IR[c]`. -/
  ir : Latch
  /-- `MS[c]`. -/
  ms : MemOp
deriving DecidableEq, Repr

/-- Memory (R60): the bytes that have been written, as (address, byte) pairs with strictly rising addresses. An address
that is not listed has no byte of its own, and what a read of it gives is `unwrittenByte`. -/
abbrev Memory := List Host.Cell

/-- What the Compute stage of one time step produces (R133). -/
structure Compute where
  /-- `cw`: the compute-port register write. -/
  cw : Option (RegNum × Word)
  /-- `fl`: the flag update. -/
  fl : Option Flags
  /-- `ms`: the operation for the Memory stage of the context's next time step. -/
  ms : MemOp
  /-- Whether the instruction is PUNT. -/
  punt : Bool
deriving DecidableEq, Repr

/-- The complete state (R20), and beside it the parameters, the environment's input and the count of time steps. -/
structure State where
  /-- The context that is executing. -/
  cur : Context
  /-- The system context's own state. -/
  sys : CtxState
  /-- The user context's own state. -/
  usr : CtxState
  /-- `G[0..23]`, shared by both contexts under reversed numberings (R28). -/
  gpr : Vector Word 24
  /-- The interrupt mask register (R31). -/
  imr : Word
  /-- The interrupt status register's bits as the environment last drove them; the bit `DBG_BIT` reads 1 whatever
  this holds (`isrValue`, R31). -/
  isr : Word
  mem : Memory
  /-- The parameters of the model (R7). No step changes them. -/
  params : Params
  /-- The environment's next values of `ISR_INPUT`, one for each time step (R377); when the list is empty the value is the
  opaque `Config.isrInput`. -/
  isrInputs : List Word
  /-- The model's own: how many time steps have run, the index of the free values. -/
  tick : Nat
deriving DecidableEq, Repr

/-- There is no fault: "The LANai3 raises no synchronous exception" (R360), and `93_implementation_defined.md` says of
`fault` and `stuck` that they are never used. The type has no constructor. -/
inductive Fault where
deriving DecidableEq, Repr

/-- Why a step has no next state: the spec's `refuse` (`93_implementation_defined.md`). Every one is safe: the hardware has
no trap and goes on in a way the source does not say, and the model says nothing of it. -/
inductive Refusal where
  /-- An instruction that has no meaning yet. Safe. No arm of `exec` answers it. -/
  | notModelled (mnemonic : String)
  /-- `step`, for a latched word with a reserved bit set (R91, R110 item 1; D1). Safe. -/
  | reservedBit
  /-- `step`, for a latched RR or RRM word with a reserved `JJJJJ` (R96, R110 item 2; D2). Safe. -/
  | reservedOperation
  /-- `step`, for a latched RRM word with `YL = 11` (R266, R110 item 3; D2). Safe. -/
  | noAccessWidth
  /-- `step`, for a latched word under `1111` that is neither SBR nor PUNT (R109, R110 item 4; D2). Safe. -/
  | unassignedSpecial
  /-- RRR, RM, RRM, SLS and SPLS with `Rd` 2 or 31 under `RD_RESTRICTION = refuse` (R35, R110 item 5; D3). Safe. -/
  | restrictedDestination
  /-- RRM with an undefined shift as its address or new base (R276; D6). Safe. -/
  | unspecifiedAddress
  /-- A write of `isr` through either port under `ISR_WRITE = refuse` (R34; D10). Safe. -/
  | isrWrite
  /-- A fetch, load or store outside `MEM_IMPLEMENTED` (R61; D14, U22). Safe. -/
  | unimplementedMemory
  /-- A fetch, load or store that touches a memory-mapped state register, whose content the source never says
  (R41; D15, U23). Safe. -/
  | stateRegister
deriving DecidableEq, Repr

/-- The outcome of one time step. -/
abbrev StepResult := Host.Outcome State Fault Refusal

/-- A context right after reset: fetching at 0, nothing in its latches (R45). DESIGN CHOICE (log 3, log 4): the flags are
0, and so is the user context's `pc`. -/
def CtxState.reset : CtxState :=
  { pc := 0#32, flags := ⟨false, false, false, false⟩, ir := .bubble, ms := .idle }

/-- The user context right after reset: its latches as `RESET_LATCHES_USER` says (R45, D11; log 7). -/
def CtxState.resetUser : ResetLatchesUser → CtxState
  | .bubble => CtxState.reset
  | .unspecified => { CtxState.reset with ir := Config.powerOnLatch, ms := Config.powerOnMemOp }

/-- The machine with the parameters `p` right after reset (R44, R45, R400): the system context begins at address 0. DESIGN
CHOICE (log 2 to 6): the registers whose reset value the source does not give hold 0. -/
def State.resetWith (p : Params) : State :=
  { cur := .system
    sys := CtxState.reset
    usr := CtxState.resetUser p.resetLatchesUser
    gpr := Vector.replicate 24 0#32
    imr := 0#32
    isr := 0#32
    mem := []
    params := p
    isrInputs := []
    tick := 0 }

/-- The machine right after reset, with the spec's default of every parameter that has one. -/
def State.reset : State := State.resetWith Params.atReset

end Sys2Proof.Machine
end

