-- ==== Sys2Proof/Machine/Ops.lean ====
section
/-! DEFINITION. The named operations over registers and memory, and the time step (`10_state.md` R28 to R34, `20_memory.md`
R60 to R71, `40_timestep.md` R131 to R137, `60_exceptions.md` R362, R363). -/

namespace Sys2Proof.Machine

/-! ## Contexts -/

/-- The alternate context. -/
def Context.other : Context → Context
  | .system => .user
  | .user => .system

/-- `U` of a context's `ps`: 0 for system, 1 for user (R26). -/
def Context.u : Context → Bool
  | .system => false
  | .user => true

/-- What a context has of its own. -/
def State.ctx (s : State) : Context → CtxState
  | .system => s.sys
  | .user => s.usr

/-- The state with a context's own part replaced. -/
def State.setCtx (s : State) (c : Context) (x : CtxState) : State :=
  match c with
  | .system => { s with sys := x }
  | .user => { s with usr := x }

/-- The state with memory replaced. -/
def State.setMem (s : State) (m : Memory) : State := { s with mem := m }

/-! ## Registers -/

/-- A value written to a program counter: bits 1:0 are dropped (R25). -/
def pcValue (v : Word) : Word := v &&& 0xFFFFFFFC#32

/-- The index in `G` of register `i` of context `c`, 4 <= i <= 27 (R28): `i - 4` in the system context, `27 - i` in the user
context. The remainder only serves the other register numbers, which are never looked up here. -/
def phys (c : Context) (i : RegNum) : Fin 24 :=
  match c with
  | .system => ⟨(i.toNat - 4) % 24, Nat.mod_lt _ (by decide)⟩
  | .user => ⟨(27 - i.toNat) % 24, Nat.mod_lt _ (by decide)⟩

/-- The program status word of a context (R26): bits 31:5 read 0, then `U C V N Z`. -/
def psValue (c : Context) (f : Flags) : Word :=
  (BitVec.ofBool c.u ++ BitVec.ofBool f.c ++ BitVec.ofBool f.v ++ BitVec.ofBool f.n ++ BitVec.ofBool f.z).setWidth 32

/-- The flags that a write of `v` to `ps` or `aps` sets (R26, R29): bits 3:0; the other bits are ignored (D13). -/
def flagsOfPs (v : Word) : Flags :=
  { c := v.getLsbD 3, v := v.getLsbD 2, n := v.getLsbD 1, z := v.getLsbD 0 }

/-- `ISR` as a program or the interrupt request reads it (R31): bit `DBG_BIT` is always 1. -/
def isrValue (s : State) : Word := s.isr ||| (1#32 <<< s.params.dbgBit.val)

/-- `x[i]` as context `c` reads it (R33). -/
def readReg (s : State) (c : Context) (i : RegNum) : Word :=
  if i = 0#5 then 0#32
  else if i = 1#5 then 0xFFFFFFFF#32
  else if i = 2#5 then (s.ctx c).pc
  else if i = 3#5 then psValue c (s.ctx c).flags
  else if i = 28#5 then psValue c.other (s.ctx c.other).flags
  else if i = 29#5 then (s.ctx c.other).pc
  else if i = 30#5 then s.imr
  else if i = 31#5 then isrValue s
  else s.gpr[phys c i]

/-- `x[i]` of the executing context (R33). -/
def State.x (s : State) (i : RegNum) : Word := readReg s s.cur i

/-- The flags of the executing context. -/
def State.flags (s : State) : Flags := (s.ctx s.cur).flags

/-- The write of `v` to register `i` by context `c` (R34). A write of `isr` changes nothing in the core; whether the step may
make one is `isrWriteRefused`. -/
def writeReg (s : State) (c : Context) (i : RegNum) (v : Word) : State :=
  if i = 0#5 then s
  else if i = 1#5 then s
  else if i = 2#5 then s.setCtx c { s.ctx c with pc := pcValue v }
  else if i = 3#5 then s.setCtx c { s.ctx c with flags := flagsOfPs v }
  else if i = 28#5 then s.setCtx c.other { s.ctx c.other with flags := flagsOfPs v }
  else if i = 29#5 then s.setCtx c.other { s.ctx c.other with pc := pcValue v }
  else if i = 30#5 then { s with imr := v }
  else if i = 31#5 then s
  else { s with gpr := s.gpr.set (phys c i).val v (phys c i).isLt }

/-- A register write that may be absent. -/
def writePort (s : State) (c : Context) : Option (RegNum × Word) → State
  | some (i, v) => writeReg s c i v
  | none => s

/-- `ISR_WRITE` refuses a write of register 31 (R31, R34; D10). -/
def isrWriteRefused (p : Params) (i : RegNum) : Bool := i == 31#5 && p.isrWrite == .refuse

/-- `RD_RESTRICTION` refuses this `Rd` field (R35; D3). -/
def rdRefused (p : Params) (rd : RegNum) : Bool := (rd == 2#5 || rd == 31#5) && p.rdRestriction == .refuse

/-! ## Memory -/

/-- The canonical form: strictly rising addresses of the address space. An unlisted address reads as no written byte, so
no entry equals what an unlisted address reads as. -/
abbrev Memory.wf (m : Memory) : Prop :=
  m.Pairwise (fun p q => p.1 < q.1) ∧ ∀ p ∈ m, p.1 < 0x100000000

/-- The byte written at an address, if one was. -/
def Memory.lookup : Memory → Nat → Option Byte
  | [], _ => none
  | (b, v) :: m, a => if a = b then some v else Memory.lookup m a

/-- The memory with one byte written, the addresses still rising. -/
def Memory.insert : Memory → Nat → Byte → Memory
  | [], a, v => [(a, v)]
  | (b, u) :: m, a, v =>
    if a < b then (a, v) :: (b, u) :: m
    else if a = b then (a, v) :: m
    else (b, u) :: Memory.insert m a v

/-- What a byte that nothing has written reads as: a free value, the same at every read (R45, U16: any value). -/
def unwrittenByte (a : Nat) : Byte := Config.powerOnByte a

/-- `M[a]`, the byte at byte address `a` (R62). -/
def byteAt (m : Memory) (a : Word) : Byte := (m.lookup a.toNat).getD (unwrittenByte a.toNat)

/-- `M[a] <- b` (R63). -/
def setByte (m : Memory) (a : Word) (b : Byte) : Memory := m.insert a.toNat b

/-- The bytes of an access. -/
def Width.bytes : Width → Nat
  | .byte => 1
  | .half => 2
  | .word => 4

/-- The address given to memory: the low bits that would make the access non-aligned are ignored (R64). -/
def alignTo (n : Width) (a : Word) : Word :=
  match n with
  | .byte => a
  | .half => a &&& 0xFFFFFFFE#32
  | .word => a &&& 0xFFFFFFFC#32

/-- `MemRead(ea, n)` (R62), the `8n`-bit value in the low bits: big-endian, the byte at the lowest address first. -/
def memRead (m : Memory) (ea : Word) (n : Width) : Word :=
  let a := alignTo n ea
  match n with
  | .byte => (byteAt m a).setWidth 32
  | .half => (byteAt m a ++ byteAt m (a + 1#32)).setWidth 32
  | .word => (byteAt m a ++ byteAt m (a + 1#32) ++ byteAt m (a + 2#32) ++ byteAt m (a + 3#32)).setWidth 32

/-- `MemWrite(ea, n, v)` (R63): the low `8n` bits of `v`, big-endian. -/
def memWrite (m : Memory) (ea : Word) (n : Width) (v : Word) : Memory :=
  let a := alignTo n ea
  match n with
  | .byte => setByte m a (v.extractLsb' 0 8)
  | .half => setByte (setByte m a (v.extractLsb' 8 8)) (a + 1#32) (v.extractLsb' 0 8)
  | .word =>
    setByte (setByte (setByte (setByte m a (v.extractLsb' 24 8)) (a + 1#32) (v.extractLsb' 16 8))
      (a + 2#32) (v.extractLsb' 8 8)) (a + 3#32) (v.extractLsb' 0 8)

/-- The register value of a load of width `n` (R67, R134). -/
def extend (n : Width) (ext : Extension) (v : Word) : Word :=
  match n, ext with
  | .word, _ => v
  | .half, .zero => (v.setWidth 16).setWidth 32
  | .half, .sign => (v.setWidth 16).signExtend 32
  | .byte, .zero => (v.setWidth 8).setWidth 32
  | .byte, .sign => (v.setWidth 8).signExtend 32

/-- An address lies in a region. -/
def Region.contains (r : Region) (a : Nat) : Bool := decide (r.base ≤ a ∧ a < r.base + r.size)

/-- Why an access to the `n` bytes at `ea` has no meaning, if it has none: it touches a memory-mapped state register (R41)
or an address that is not memory (R61). -/
def accessRefusal (p : Params) (ea : Word) (n : Width) : Option Refusal :=
  let a := (alignTo n ea).toNat
  let bytes := (List.range n.bytes).map (a + ·)
  if bytes.any (fun b => p.stateRegAddrs.any (Region.contains · b)) then some .stateRegister
  else if bytes.all (fun b => p.memImplemented.any (Region.contains · b)) then none
  else some .unimplementedMemory

/-! ## The Memory stage -/

/-- `lw`: the load-port register write of this time step (R134). -/
def loadPort (s : State) : Option (RegNum × Word) :=
  match (s.ctx s.cur).ms with
  | .idle => none
  | .load ea n ext rd => some (rd, extend n ext (memRead s.mem ea n))
  | .store _ _ _ => none
  | .imm v rd => some (rd, v)

/-- Memory after the Memory stage of this time step (R134). -/
def memAfter (s : State) : Memory :=
  match (s.ctx s.cur).ms with
  | .store ea n data => memWrite s.mem ea n data
  | .idle | .load _ _ _ _ | .imm _ _ => s.mem

/-- Why the Memory stage's access has no meaning, if it has none. -/
def memStageRefusal (s : State) : Option Refusal :=
  match (s.ctx s.cur).ms with
  | .load ea n _ _ => accessRefusal s.params ea n
  | .store ea n _ => accessRefusal s.params ea n
  | .idle | .imm _ _ => none

/-! ## The Fetch stage -/

/-- The Memory stage of this time step stores into the word the Fetch stage reads (R71). -/
def storeMeetsFetch (s : State) : Bool :=
  match (s.ctx s.cur).ms with
  | .store ea n _ => alignTo .word (alignTo n ea) == alignTo .word (s.ctx s.cur).pc
  | .idle | .load _ _ _ _ | .imm _ _ => false

/-- The word the Fetch stage reads at `PC[cur]` (R65, R131): as memory stood before this step, or, where this step stores
into that word, as it stood before or after the store, whole (R71, D16). -/
def fetchedWord (s : State) : Word :=
  if storeMeetsFetch s && Config.storeBeforeFetch s.tick then memRead (memAfter s) (s.ctx s.cur).pc .word
  else memRead s.mem (s.ctx s.cur).pc .word

/-! ## The interrupt and the context switch -/

/-- The interrupt request (R362): `(ISR & IMR) != 0`. With `IMR` 0 there is none, and an enabled `dbg_bit`, which is always
set, is one whatever else `ISR` holds (`Laws.interruptRequest_iff`). -/
def interruptRequest (s : State) : Bool :=
  s.imr != 0#32 && (s.imr.getLsbD s.params.dbgBit.val || (isrValue s &&& s.imr) != 0#32)

/-- Taking the interrupt (R363, R365): execution moves to the system context, and nothing is copied or changed. -/
def takeInterrupt (s : State) : State := { s with cur := .system }

/-- The toggle of `punt` (R311): from the system context it starts the user context or returns to it (R369), from the
user context it enters the system context. -/
def toggleContext (s : State) : State := { s with cur := s.cur.other }

/-- The context switch at the very end of a time step (R137, R363; D9): `punt` toggles; otherwise a step of the user
context at whose end the request is asserted is followed by the system context. -/
def switchContext (punt : Bool) (s : State) : State :=
  if punt then toggleContext s
  else if s.cur = .user ∧ interruptRequest s = true then takeInterrupt s
  else s

/-! ## The time step -/

/-- The next value of `isr`'s driven bits: `ISR_INPUT` of this time step (R377). -/
def isrNext (s : State) : Word :=
  match s.isrInputs with
  | v :: _ => v
  | [] => Config.isrInput s.tick

/-- The environment's part of a time step: the input of `isr` arrives and the step is counted. -/
def environment (s : State) : State :=
  { s with isr := isrNext s, isrInputs := s.isrInputs.tail, tick := s.tick + 1 }

/-- Line 1 of the end of a time step (R136): the `pc` is incremented by 4, modulo 2^32 (R42). -/
def incrementPc (s : State) : State :=
  s.setCtx s.cur { s.ctx s.cur with pc := (s.ctx s.cur).pc + 4#32 }

/-- Line 4 of the end of a time step (R136): the flag update, if there is one. -/
def updateFlags (s : State) : Option Flags → State
  | some f => s.setCtx s.cur { s.ctx s.cur with flags := f }
  | none => s

/-- The latches at the end of a time step (R137): `IR[c] <- W`, `MS[c] <- ms`. -/
def latch (s : State) (w : Word) (ms : MemOp) : State :=
  s.setCtx s.cur { s.ctx s.cur with ir := .word w, ms := ms }

/-- The register writes and the flag update at the end of a time step, in the order of R136: the increment, the load
port, the compute port, the flags. -/
def commit (s : State) (lw cw : Option (RegNum × Word)) (fl : Option Flags) : State :=
  updateFlags (writePort (writePort (incrementPc s) s.cur lw) s.cur cw) fl

/-- The state after a time step whose Compute stage produced `k` (R137). -/
def advance (s : State) (k : Compute) : State :=
  let t := latch (commit s (loadPort s) k.cw k.fl) (fetchedWord s) k.ms
  switchContext k.punt (environment (t.setMem (memAfter s)))

/-- A port's write of `isr` is refused. -/
def portRefusal (p : Params) : Option (RegNum × Word) → Option Refusal
  | some (i, _) => if isrWriteRefused p i then some .isrWrite else none
  | none => none

/-- Why a time step whose Compute stage produced `k` has no next state, if it has none: the fetch, then the Memory
stage's access, then a write of `isr` through the load port or the compute port. -/
def stepRefusal (s : State) (k : Compute) : Option Refusal :=
  ((accessRefusal s.params (s.ctx s.cur).pc .word).or (memStageRefusal s)).or
    ((portRefusal s.params (loadPort s)).or (portRefusal s.params k.cw))

/-- One time step of the executing context, whose Compute stage produced `k` (R137). -/
def timeStep (s : State) (k : Compute) : StepResult :=
  match stepRefusal s k with
  | some r => .refused r
  | none => .next (advance s k)

/-- A Compute stage that produces nothing: that of a bubble (R133). -/
def Compute.nothing : Compute := { cw := none, fl := none, ms := .idle, punt := false }

/-- The time step of an empty instruction latch (R39, R133). -/
def bubbleStep (s : State) : StepResult := timeStep s Compute.nothing

end Sys2Proof.Machine
end

