-- ==== Sys2Proof/Machine/Flags.lean ====
section
/-! DEFINITION. The adder, the shifter, the nine operations, the flags they give and the sixteen branch conditions
(`41_ri.md` R161, R169 to R173; `42_rr.md` R192, R193; `43_rrr.md` R211 to R216; `46_br.md` R294 to R309). -/

namespace Sys2Proof.Machine

/-- The operations of RI, RR, RRR (`op2`) and RRM (R93, R96, R97). -/
inductive AluOp where
  | add | addc | sub | subb | and | or | xor
  /-- The logical shift. -/
  | sh
  /-- The arithmetic shift. -/
  | sha
deriving DecidableEq, Repr

/-- The result of an operation: the value, the carry where the operation has one of its own, the overflow. -/
structure AluResult where
  r : Word
  /-- `none` for `and`, `or` and `xor`, whose formats differ in what they leave in `C` (R173, R193, R214). -/
  c : Option Bool
  v : Bool
deriving DecidableEq, Repr

/-- `adder(p, q, cin)` (R161): the 33-bit sum; the carry is its top bit; the overflow compares the sign bits of the two
addends (for a subtraction `a` and `~b`, D4) with the result's. -/
def adder (p q : Word) (cin : Bool) : AluResult :=
  let sum := p.setWidth 33 + q.setWidth 33 + (BitVec.ofBool cin).setWidth 33
  let r := sum.setWidth 32
  { r := r, c := some (sum.getLsbD 32), v := p.msb == q.msb && r.msb != p.msb }

/-- `shift(a, b, kind)` (R169): `b` is a signed amount, left from 0 to 31, right from -1 to -31; `none` outside, where the
result is undefined. The carry of a left shift is the last bit shifted out, 0 for an amount of 0 (D5); right shifts
clear it (R173). -/
def shift (a b : Word) (arithmetic : Bool) : Option AluResult :=
  let n := b.toInt
  if 0 ≤ n ∧ n ≤ 31 then
    some { r := a <<< n.toNat, c := some (decide (1 ≤ n) && a.getLsbD (32 - n.toNat)), v := false }
  else if -31 ≤ n ∧ n ≤ -1 then
    some { r := if arithmetic then a.sshiftRight (-n).toNat else a >>> (-n).toNat, c := some false, v := false }
  else none

/-- `OP(a, b, C)` (R161 to R175, R212): `none` where "result undefined". -/
def aluOp (op : AluOp) (a b : Word) (c : Bool) : Option AluResult :=
  match op with
  | .add => some (adder a b false)
  | .addc => some (adder a b c)
  | .sub => some (adder a (~~~b) true)
  | .subb => some (adder a (~~~b) c)
  | .and => some { r := a &&& b, c := none, v := false }
  | .or => some { r := a ||| b, c := none, v := false }
  | .xor => some { r := a ^^^ b, c := none, v := false }
  | .sh => shift a b false
  | .sha => shift a b true

/-- The operation of the field `CCC` (R211): there is no logical shift among them. -/
def opOfOp1 : Op1 → AluOp
  | .add => .add
  | .addc => .addc
  | .sub => .sub
  | .subb => .subb
  | .and => .and
  | .or => .or
  | .xor => .xor
  | .sha => .sha

/-- `C V N Z` after a flag update (R170 to R173); `logicC` is the format's `C` after `and`, `or` and `xor` (log 38). -/
def flagsOf (o : AluResult) (logicC : Bool) : Flags :=
  { c := o.c.getD logicC, v := o.v, n := o.r.msb, z := o.r == 0#32 }

/-- What the Compute stage of RI, RR and RRR produces: `Rd` and, with `F = 1`, the flags of the result. Where the result is
undefined (R169, R216; D6) the value is free and so are all four flags. -/
def aluCompute (tick : Nat) (rd : RegNum) (f : Bool) (logicC : Bool) : Option AluResult → Compute
  | some o => { cw := some (rd, o.r), fl := if f then some (flagsOf o logicC) else none, ms := .idle, punt := false }
  | none =>
    { cw := some (rd, Config.freeWord tick)
      fl := if f then some (flagsOfPs ((Config.freeFlags tick).setWidth 32)) else none
      ms := .idle
      punt := false }

/-- The conditions of BR and SBR (R103). -/
inductive Cond where
  | t | f | hi | ls | cc | cs | ne | eq | vc | vs | pl | mi | ge | lt | gt | le
deriving DecidableEq, Repr

/-- Whether a condition holds of the flags (R294 to R309). -/
def Cond.holds (d : Cond) (x : Flags) : Bool :=
  match d with
  | .t => true
  | .f => false
  | .hi => x.c && !x.z
  | .ls => !x.c || x.z
  | .cc => !x.c
  | .cs => x.c
  | .ne => !x.z
  | .eq => x.z
  | .vc => !x.v
  | .vs => x.v
  | .pl => !x.n
  | .mi => x.n
  | .ge => (x.n && x.v) || (!x.n && !x.v)
  | .lt => (x.n && !x.v) || (!x.n && x.v)
  | .gt => (x.n && x.v && !x.z) || (!x.n && !x.v && !x.z)
  | .le => x.z || (x.n && !x.v) || (!x.n && x.v)

end Sys2Proof.Machine
end

