-- ==== Sys2Proof/Machine/Operands.lean ====
section
/-! DEFINITION. The operand forms: constants, addresses, branch targets; and the time step of each instruction shape, which
the meanings of the families call (`30_encoding.md` R93 to R108, `41_ri.md` to `49_sbr.md`). -/

namespace Sys2Proof.Machine

/-! ## Constants and addresses -/

/-- `K` of RI but for `and` and the shifts (R94): the constant in the low half, or in the high half with `H = 1`. -/
def riConst (h : Bool) (k : BitVec 16) : Word :=
  if h then (k ++ 0x0000#16).setWidth 32 else (0x0000#16 ++ k).setWidth 32

/-- `K` of the RI `and` (R94): the half that does not hold the constant is all ones. -/
def riAndConst (h : Bool) (k : BitVec 16) : Word :=
  if h then (k ++ 0xFFFF#16).setWidth 32 else (0xFFFF#16 ++ k).setWidth 32

/-- `K` of the RI shifts (R94): the constant sign-extended. -/
def riShiftConst (k : BitVec 16) : Word := k.signExtend 32

/-- `Rs1 + constant` of RM (R241, R242). -/
def rmSum (rs1 : RegNum) (k : BitVec 16) (s : State) : Option Word := some (s.x rs1 + k.signExtend 32)

/-- `Rs1 op Rs2` of RRM (R261): the operation's carry and overflow are discarded; `none` for an undefined shift (R276). -/
def rrmSum (op : AluOp) (rs1 rs2 : RegNum) (s : State) : Option Word :=
  (aluOp op (s.x rs1) (s.x rs2) s.flags.c).map AluResult.r

/-- `Rs1 + constant` of SPLS (R328). -/
def splsSum (rs1 : RegNum) (k : BitVec 10) (s : State) : Option Word := some (s.x rs1 + k.signExtend 32)

/-- The effective address of an addressing mode, `none` where it is unspecified (R99, R241, R261). -/
def effectiveAddress (m : AddrMode) (base : Word) (sum : Option Word) : Option Word :=
  match m with
  | .base | .postModify => some base
  | .sum | .preModify => sum

/-- The base update of an addressing mode (R99, R241, R261), the unmasked sum (R243). -/
def baseUpdate (m : AddrMode) (rs1 : RegNum) (sum : Option Word) : Option (RegNum × Word) :=
  match m with
  | .base | .sum => none
  | .postModify | .preModify => sum.map (fun v => (rs1, v))

/-- The address or the new base of this execution is unspecified (R276): the sum is undefined and the mode uses it. -/
def addressUnspecified (m : AddrMode) (sum : Option Word) : Bool := m != .base && sum.isNone

/-- The 21-bit address of SLS, zero-extended (R321). -/
def slsAddr (a : BitVec 21) : Word := a.setWidth 32

/-- The byte quantity of a BR constant before extension: bits 24:2 of the word in place (R291). -/
def brOffset (k : BitVec 23) : BitVec 25 := k ++ 0#2

/-- The target of a BR (R290, R291, R293): absolute and zero-extended, or relative to the `pc` of this step. -/
def brTarget (k : BitVec 23) (r : Bool) (s : State) : Word :=
  if r then (s.ctx s.cur).pc + (brOffset k).signExtend 32 else (brOffset k).setWidth 32

/-! ## The time steps of the instruction shapes -/

/-- RI (R160): `Rd <- Rs1 op K`; `and`, `or` and `xor` clear `C` (R173). -/
def riStep (op : AluOp) (rd rs1 : RegNum) (f : Bool) (k : Word) (s : State) : StepResult :=
  timeStep s (aluCompute s.tick rd f false (aluOp op (s.x rs1) k s.flags.c))

/-- RR (R190): `Rd <- Rs1 op Rs2`; `and`, `or` and `xor` leave `C` (R193). DEDUCED (log 38): the `C` left is that of the
beginning of the step, also where `ps` is written in the same step. -/
def rrStep (op : AluOp) (rd rs1 : RegNum) (f : Bool) (rs2 : RegNum) (s : State) : StepResult :=
  timeStep s (aluCompute s.tick rd f s.flags.c (aluOp op (s.x rs1) (s.x rs2) s.flags.c))

/-- `C` after an RRR `and`, `or` or `xor` (R214): the parameter `RRR_LOGIC_C`. DEDUCED (log 38): an unchanged `C` is that of
the beginning of the step, also where `ps` is written in the same step. -/
def rrrLogicCarry (s : State) : Bool :=
  match s.params.rrrLogicC with
  | .unchanged => s.flags.c
  | .cleared => false

/-- The result of RRR (R210 to R212): both operations read the `C` of the beginning of the step (D21); undefined where
either is an undefined shift (R216). -/
def rrrResult (op2 : AluOp) (op1 : Op1) (a b c : Word) (carry : Bool) : Option AluResult :=
  match aluOp (opOfOp1 op1) b c carry with
  | some t => aluOp op2 a t.r carry
  | none => none

/-- RRR (R210): `Rd <- Rs1 op2 (Rs2 op1 Rs3)`, the flags from `op2` (R213). -/
def rrrStep (op2 : AluOp) (op1 : Op1) (rd rs1 : RegNum) (f : Bool) (rs2 rs3 : RegNum) (s : State) : StepResult :=
  if rdRefused s.params rd then .refused .restrictedDestination
  else
    timeStep s (aluCompute s.tick rd f (rrrLogicCarry s)
      (rrrResult op2 op1 (s.x rs1) (s.x rs2) (s.x rs3) s.flags.c))

/-- What the Compute stage of RM, RRM and SPLS produces once the address is known: the base update and the operation for
the Memory stage. -/
def memCompute (cw : Option (RegNum × Word)) (ms : MemOp) : Compute := { cw := cw, fl := none, ms := ms, punt := false }

/-- A load with base `Rs1` (R244, R264, R329). -/
def loadStep (rd rs1 : RegNum) (m : AddrMode) (sum : Option Word) (n : Width) (ext : Extension) (s : State) :
    StepResult :=
  if rdRefused s.params rd then .refused .restrictedDestination
  else if addressUnspecified m sum then .refused .unspecifiedAddress
  else
    timeStep s (memCompute (baseUpdate m rs1 sum)
      (.load ((effectiveAddress m (s.x rs1) sum).getD (s.x rs1)) n ext rd))

/-- A store with base `Rs1` (R245, R265, R329): the data is `Rd` at the beginning of the Compute stage. -/
def storeStep (rd rs1 : RegNum) (m : AddrMode) (sum : Option Word) (n : Width) (s : State) : StepResult :=
  if rdRefused s.params rd then .refused .restrictedDestination
  else if addressUnspecified m sum then .refused .unspecifiedAddress
  else
    timeStep s (memCompute (baseUpdate m rs1 sum)
      (.store ((effectiveAddress m (s.x rs1) sum).getD (s.x rs1)) n (s.x rd)))

/-- The SLS load (R322). -/
def slsLoadStep (rd : RegNum) (a : BitVec 21) (s : State) : StepResult :=
  if rdRefused s.params rd then .refused .restrictedDestination
  else timeStep s (memCompute none (.load (slsAddr a) .word .sign rd))

/-- The SLS store (R323). -/
def slsStoreStep (rd : RegNum) (a : BitVec 21) (s : State) : StepResult :=
  if rdRefused s.params rd then .refused .restrictedDestination
  else timeStep s (memCompute none (.store (slsAddr a) .word (s.x rd)))

/-- SLI (R325): the constant is written one step late, through the load port. -/
def sliStep (rd : RegNum) (k : BitVec 21) (s : State) : StepResult :=
  timeStep s (memCompute none (.imm (k.setWidth 32) rd))

/-- A conditional write of `pc` (R290, R351): nothing at all where the condition is false. -/
def branchStep (d : Cond) (target : Word) (s : State) : StepResult :=
  timeStep s (memCompute (if d.holds s.flags then some (2#5, target) else none) .idle)

/-- BR (R290). -/
def brStep (d : Cond) (k : BitVec 23) (r : Bool) (s : State) : StepResult := branchStep d (brTarget k r s) s

/-- SBR (R351). -/
def sbrStep (d : Cond) (rs1 rs3 : RegNum) (s : State) : StepResult := branchStep d (s.x rs1 + s.x rs3) s

/-- PUNT (R311, R312). -/
def puntStep (s : State) : StepResult := timeStep s { cw := none, fl := none, ms := .idle, punt := true }

end Sys2Proof.Machine
end

