-- ==== Sys2Proof/Machine/BR.lean ====
section
/-! DEFINITION. The meanings of the conditional branches (Conditional Branch (`46_br.md`)). Each is the whole time step in which the
instruction is in the Compute stage (`40_timestep.md` R137). -/

namespace Sys2Proof.Machine

/-- `bt BRABS` (`r` = 0) or `bt.r BROFF` (`r` = 1): branch if 1 (BR, R294). -/
def execBtBR (k : BitVec 23) (r : Bool) (s : State) : StepResult :=
  brStep .t k r s

/-- `bf BRABS` (`r` = 0) or `bf.r BROFF` (`r` = 1): branch if 0 (BR, R295). -/
def execBfBR (k : BitVec 23) (r : Bool) (s : State) : StepResult :=
  brStep .f k r s

/-- `bhi BRABS` (`r` = 0) or `bhi.r BROFF` (`r` = 1): branch if `C AND Z'` (BR, R296). -/
def execBhiBR (k : BitVec 23) (r : Bool) (s : State) : StepResult :=
  brStep .hi k r s

/-- `bls BRABS` (`r` = 0) or `bls.r BROFF` (`r` = 1): branch if `C' OR Z` (BR, R297). -/
def execBlsBR (k : BitVec 23) (r : Bool) (s : State) : StepResult :=
  brStep .ls k r s

/-- `bcc BRABS` (`r` = 0) or `bcc.r BROFF` (`r` = 1): branch if `C'` (BR, R298). -/
def execBccBR (k : BitVec 23) (r : Bool) (s : State) : StepResult :=
  brStep .cc k r s

/-- `bcs BRABS` (`r` = 0) or `bcs.r BROFF` (`r` = 1): branch if `C` (BR, R299). -/
def execBcsBR (k : BitVec 23) (r : Bool) (s : State) : StepResult :=
  brStep .cs k r s

/-- `bne BRABS` (`r` = 0) or `bne.r BROFF` (`r` = 1): branch if `Z'` (BR, R300). -/
def execBneBR (k : BitVec 23) (r : Bool) (s : State) : StepResult :=
  brStep .ne k r s

/-- `beq BRABS` (`r` = 0) or `beq.r BROFF` (`r` = 1): branch if `Z` (BR, R301). -/
def execBeqBR (k : BitVec 23) (r : Bool) (s : State) : StepResult :=
  brStep .eq k r s

/-- `bvc BRABS` (`r` = 0) or `bvc.r BROFF` (`r` = 1): branch if `V'` (BR, R302). -/
def execBvcBR (k : BitVec 23) (r : Bool) (s : State) : StepResult :=
  brStep .vc k r s

/-- `bvs BRABS` (`r` = 0) or `bvs.r BROFF` (`r` = 1): branch if `V` (BR, R303). -/
def execBvsBR (k : BitVec 23) (r : Bool) (s : State) : StepResult :=
  brStep .vs k r s

/-- `bpl BRABS` (`r` = 0) or `bpl.r BROFF` (`r` = 1): branch if `N'` (BR, R304). -/
def execBplBR (k : BitVec 23) (r : Bool) (s : State) : StepResult :=
  brStep .pl k r s

/-- `bmi BRABS` (`r` = 0) or `bmi.r BROFF` (`r` = 1): branch if `N` (BR, R305). -/
def execBmiBR (k : BitVec 23) (r : Bool) (s : State) : StepResult :=
  brStep .mi k r s

/-- `bge BRABS` (`r` = 0) or `bge.r BROFF` (`r` = 1): branch if `(N AND V) OR (N' AND V')` (BR, R306). -/
def execBgeBR (k : BitVec 23) (r : Bool) (s : State) : StepResult :=
  brStep .ge k r s

/-- `blt BRABS` (`r` = 0) or `blt.r BROFF` (`r` = 1): branch if `(N AND V') OR (N' AND V)` (BR, R307). -/
def execBltBR (k : BitVec 23) (r : Bool) (s : State) : StepResult :=
  brStep .lt k r s

/-- `bgt BRABS` (`r` = 0) or `bgt.r BROFF` (`r` = 1): branch if `(N AND V AND Z') OR (N' AND V' AND Z')` (BR, R308). -/
def execBgtBR (k : BitVec 23) (r : Bool) (s : State) : StepResult :=
  brStep .gt k r s

/-- `ble BRABS` (`r` = 0) or `ble.r BROFF` (`r` = 1): branch if `Z OR (N AND V') OR (N' AND V)` (BR, R309). -/
def execBleBR (k : BitVec 23) (r : Bool) (s : State) : StepResult :=
  brStep .le k r s

end Sys2Proof.Machine
end

