-- ==== Sys2Proof/Machine/PUNT.lean ====
section
/-! DEFINITION. The meanings of `punt` (PUNT (`47_punt.md`)). Each is the whole time step in which the
instruction is in the Compute stage (`40_timestep.md` R137). -/

namespace Sys2Proof.Machine

/-- `punt`: switch to the other context (PUNT, R310, R311). -/
def execPunt (s : State) : StepResult :=
  puntStep s

end Sys2Proof.Machine
end

