-- ==== Sys2Proof/Machine/RI.lean ====
section
/-! DEFINITION. The meanings of the register-immediate instructions (Register-Immediate (`41_ri.md`)). Each is the whole time step in which the
instruction is in the Compute stage (`40_timestep.md` R137). -/

namespace Sys2Proof.Machine

/-- `add<.f> Rs1, CONST, Rd` (RI, R162). -/
def execAddRI (rd rs1 : RegNum) (f h : Bool) (k : BitVec 16) (s : State) : StepResult :=
  riStep .add rd rs1 f (riConst h k) s

/-- `addc<.f> Rs1, CONST, Rd` (RI, R163). -/
def execAddcRI (rd rs1 : RegNum) (f h : Bool) (k : BitVec 16) (s : State) : StepResult :=
  riStep .addc rd rs1 f (riConst h k) s

/-- `sub<.f> Rs1, CONST, Rd` (RI, R164). -/
def execSubRI (rd rs1 : RegNum) (f h : Bool) (k : BitVec 16) (s : State) : StepResult :=
  riStep .sub rd rs1 f (riConst h k) s

/-- `subb<.f> Rs1, CONST, Rd` (RI, R165). -/
def execSubbRI (rd rs1 : RegNum) (f h : Bool) (k : BitVec 16) (s : State) : StepResult :=
  riStep .subb rd rs1 f (riConst h k) s

/-- `and<.f> Rs1, AND_CONST, Rd` (RI, R166). -/
def execAndRI (rd rs1 : RegNum) (f h : Bool) (k : BitVec 16) (s : State) : StepResult :=
  riStep .and rd rs1 f (riAndConst h k) s

/-- `or<.f> Rs1, CONST, Rd` (RI, R167). -/
def execOrRI (rd rs1 : RegNum) (f h : Bool) (k : BitVec 16) (s : State) : StepResult :=
  riStep .or rd rs1 f (riConst h k) s

/-- `xor<.f> Rs1, CONST, Rd` (RI, R168). -/
def execXorRI (rd rs1 : RegNum) (f h : Bool) (k : BitVec 16) (s : State) : StepResult :=
  riStep .xor rd rs1 f (riConst h k) s

/-- `sh<.f> Rs1, SHIFT_CONST, Rd` (RI, R174). -/
def execShRI (rd rs1 : RegNum) (f : Bool) (k : BitVec 16) (s : State) : StepResult :=
  riStep .sh rd rs1 f (riShiftConst k) s

/-- `sha<.f> Rs1, SHIFT_CONST, Rd` (RI, R175). -/
def execShaRI (rd rs1 : RegNum) (f : Bool) (k : BitVec 16) (s : State) : StepResult :=
  riStep .sha rd rs1 f (riShiftConst k) s

end Sys2Proof.Machine
end

