-- ==== Sys2Proof/Machine/RM.lean ====
section
/-! DEFINITION. The meanings of the word loads and stores with a 16-bit constant (Register-Memory (`44_rm.md`)). Each is the whole time step in which the
instruction is in the Compute stage (`40_timestep.md` R137). -/

namespace Sys2Proof.Machine

/-- `ld` with base `Rs1` and a 16-bit signed constant (RM, R244). -/
def execLdRM (rd rs1 : RegNum) (m : AddrMode) (k : BitVec 16) (s : State) : StepResult :=
  loadStep rd rs1 m (rmSum rs1 k s) .word .sign s

/-- `st` with base `Rs1` and a 16-bit signed constant (RM, R245). -/
def execStRM (rd rs1 : RegNum) (m : AddrMode) (k : BitVec 16) (s : State) : StepResult :=
  storeStep rd rs1 m (rmSum rs1 k s) .word s

end Sys2Proof.Machine
end

