-- ==== Sys2Proof/Machine/RR.lean ====
section
/-! DEFINITION. The meanings of the register-register instructions (Register-Register (`42_rr.md`)). Each is the whole time step in which the
instruction is in the Compute stage (`40_timestep.md` R137). -/

namespace Sys2Proof.Machine

/-- `add<.f> Rs1, Rs2, Rd` (RR, R194); `j` is `JJJJJ`, irrelevant here (R96). -/
def execAddRR (rd rs1 : RegNum) (f : Bool) (rs2 : RegNum) (_j : BitVec 5) (s : State) : StepResult :=
  rrStep .add rd rs1 f rs2 s

/-- `addc<.f> Rs1, Rs2, Rd` (RR, R195); `j` is `JJJJJ`, irrelevant here (R96). -/
def execAddcRR (rd rs1 : RegNum) (f : Bool) (rs2 : RegNum) (_j : BitVec 5) (s : State) : StepResult :=
  rrStep .addc rd rs1 f rs2 s

/-- `sub<.f> Rs1, Rs2, Rd` (RR, R196); `j` is `JJJJJ`, irrelevant here (R96). -/
def execSubRR (rd rs1 : RegNum) (f : Bool) (rs2 : RegNum) (_j : BitVec 5) (s : State) : StepResult :=
  rrStep .sub rd rs1 f rs2 s

/-- `subb<.f> Rs1, Rs2, Rd` (RR, R197); `j` is `JJJJJ`, irrelevant here (R96). -/
def execSubbRR (rd rs1 : RegNum) (f : Bool) (rs2 : RegNum) (_j : BitVec 5) (s : State) : StepResult :=
  rrStep .subb rd rs1 f rs2 s

/-- `and<.f> Rs1, Rs2, Rd` (RR, R198); `j` is `JJJJJ`, irrelevant here (R96). -/
def execAndRR (rd rs1 : RegNum) (f : Bool) (rs2 : RegNum) (_j : BitVec 5) (s : State) : StepResult :=
  rrStep .and rd rs1 f rs2 s

/-- `or<.f> Rs1, Rs2, Rd` (RR, R199); `j` is `JJJJJ`, irrelevant here (R96). -/
def execOrRR (rd rs1 : RegNum) (f : Bool) (rs2 : RegNum) (_j : BitVec 5) (s : State) : StepResult :=
  rrStep .or rd rs1 f rs2 s

/-- `xor<.f> Rs1, Rs2, Rd` (RR, R200); `j` is `JJJJJ`, irrelevant here (R96). -/
def execXorRR (rd rs1 : RegNum) (f : Bool) (rs2 : RegNum) (_j : BitVec 5) (s : State) : StepResult :=
  rrStep .xor rd rs1 f rs2 s

/-- `sh<.f> Rs1, Rs2, Rd` (RR, R201). -/
def execShRR (rd rs1 : RegNum) (f : Bool) (rs2 : RegNum) (s : State) : StepResult :=
  rrStep .sh rd rs1 f rs2 s

/-- `sha<.f> Rs1, Rs2, Rd` (RR, R202). -/
def execShaRR (rd rs1 : RegNum) (f : Bool) (rs2 : RegNum) (s : State) : StepResult :=
  rrStep .sha rd rs1 f rs2 s

end Sys2Proof.Machine
end

