-- ==== Sys2Proof/Machine/RRM.lean ====
section
/-! DEFINITION. The meanings of the loads and stores with a register operand (Register-Register-Memory (`45_rrm.md`)). Each is the whole time step in which the
instruction is in the Compute stage (`40_timestep.md` R137). -/

namespace Sys2Proof.Machine

/-- `ld` of the word addressed with `Rs1 add Rs2` (RRM, R267, R275); `j` and `e` have no effect (R96, D19). -/
def execLdAddRRM (rd rs1 : RegNum) (m : AddrMode) (rs2 : RegNum) (_j : BitVec 5) (_e : Bool) (s : State) : StepResult :=
  loadStep rd rs1 m (rrmSum .add rs1 rs2 s) .word .sign s

/-- `ld` of the word addressed with `Rs1 addc Rs2` (RRM, R267, R275); `j` and `e` have no effect (R96, D19). -/
def execLdAddcRRM (rd rs1 : RegNum) (m : AddrMode) (rs2 : RegNum) (_j : BitVec 5) (_e : Bool) (s : State) : StepResult :=
  loadStep rd rs1 m (rrmSum .addc rs1 rs2 s) .word .sign s

/-- `ld` of the word addressed with `Rs1 sub Rs2` (RRM, R267, R275); `j` and `e` have no effect (R96, D19). -/
def execLdSubRRM (rd rs1 : RegNum) (m : AddrMode) (rs2 : RegNum) (_j : BitVec 5) (_e : Bool) (s : State) : StepResult :=
  loadStep rd rs1 m (rrmSum .sub rs1 rs2 s) .word .sign s

/-- `ld` of the word addressed with `Rs1 subb Rs2` (RRM, R267, R275); `j` and `e` have no effect (R96, D19). -/
def execLdSubbRRM (rd rs1 : RegNum) (m : AddrMode) (rs2 : RegNum) (_j : BitVec 5) (_e : Bool) (s : State) : StepResult :=
  loadStep rd rs1 m (rrmSum .subb rs1 rs2 s) .word .sign s

/-- `ld` of the word addressed with `Rs1 and Rs2` (RRM, R267, R275); `j` and `e` have no effect (R96, D19). -/
def execLdAndRRM (rd rs1 : RegNum) (m : AddrMode) (rs2 : RegNum) (_j : BitVec 5) (_e : Bool) (s : State) : StepResult :=
  loadStep rd rs1 m (rrmSum .and rs1 rs2 s) .word .sign s

/-- `ld` of the word addressed with `Rs1 or Rs2` (RRM, R267, R275); `j` and `e` have no effect (R96, D19). -/
def execLdOrRRM (rd rs1 : RegNum) (m : AddrMode) (rs2 : RegNum) (_j : BitVec 5) (_e : Bool) (s : State) : StepResult :=
  loadStep rd rs1 m (rrmSum .or rs1 rs2 s) .word .sign s

/-- `ld` of the word addressed with `Rs1 xor Rs2` (RRM, R267, R275); `j` and `e` have no effect (R96, D19). -/
def execLdXorRRM (rd rs1 : RegNum) (m : AddrMode) (rs2 : RegNum) (_j : BitVec 5) (_e : Bool) (s : State) : StepResult :=
  loadStep rd rs1 m (rrmSum .xor rs1 rs2 s) .word .sign s

/-- `ld.h` of the half-word addressed with `Rs1 add Rs2` (RRM, R268, R275); `j` has no effect (R96, D19). -/
def execLdhAddRRM (rd rs1 : RegNum) (m : AddrMode) (rs2 : RegNum) (_j : BitVec 5) (s : State) : StepResult :=
  loadStep rd rs1 m (rrmSum .add rs1 rs2 s) .half .sign s

/-- `ld.h` of the half-word addressed with `Rs1 addc Rs2` (RRM, R268, R275); `j` has no effect (R96, D19). -/
def execLdhAddcRRM (rd rs1 : RegNum) (m : AddrMode) (rs2 : RegNum) (_j : BitVec 5) (s : State) : StepResult :=
  loadStep rd rs1 m (rrmSum .addc rs1 rs2 s) .half .sign s

/-- `ld.h` of the half-word addressed with `Rs1 sub Rs2` (RRM, R268, R275); `j` has no effect (R96, D19). -/
def execLdhSubRRM (rd rs1 : RegNum) (m : AddrMode) (rs2 : RegNum) (_j : BitVec 5) (s : State) : StepResult :=
  loadStep rd rs1 m (rrmSum .sub rs1 rs2 s) .half .sign s

/-- `ld.h` of the half-word addressed with `Rs1 subb Rs2` (RRM, R268, R275); `j` has no effect (R96, D19). -/
def execLdhSubbRRM (rd rs1 : RegNum) (m : AddrMode) (rs2 : RegNum) (_j : BitVec 5) (s : State) : StepResult :=
  loadStep rd rs1 m (rrmSum .subb rs1 rs2 s) .half .sign s

/-- `ld.h` of the half-word addressed with `Rs1 and Rs2` (RRM, R268, R275); `j` has no effect (R96, D19). -/
def execLdhAndRRM (rd rs1 : RegNum) (m : AddrMode) (rs2 : RegNum) (_j : BitVec 5) (s : State) : StepResult :=
  loadStep rd rs1 m (rrmSum .and rs1 rs2 s) .half .sign s

/-- `ld.h` of the half-word addressed with `Rs1 or Rs2` (RRM, R268, R275); `j` has no effect (R96, D19). -/
def execLdhOrRRM (rd rs1 : RegNum) (m : AddrMode) (rs2 : RegNum) (_j : BitVec 5) (s : State) : StepResult :=
  loadStep rd rs1 m (rrmSum .or rs1 rs2 s) .half .sign s

/-- `ld.h` of the half-word addressed with `Rs1 xor Rs2` (RRM, R268, R275); `j` has no effect (R96, D19). -/
def execLdhXorRRM (rd rs1 : RegNum) (m : AddrMode) (rs2 : RegNum) (_j : BitVec 5) (s : State) : StepResult :=
  loadStep rd rs1 m (rrmSum .xor rs1 rs2 s) .half .sign s

/-- `uld.h` of the half-word addressed with `Rs1 add Rs2` (RRM, R269, R275); `j` has no effect (R96, D19). -/
def execUldhAddRRM (rd rs1 : RegNum) (m : AddrMode) (rs2 : RegNum) (_j : BitVec 5) (s : State) : StepResult :=
  loadStep rd rs1 m (rrmSum .add rs1 rs2 s) .half .zero s

/-- `uld.h` of the half-word addressed with `Rs1 addc Rs2` (RRM, R269, R275); `j` has no effect (R96, D19). -/
def execUldhAddcRRM (rd rs1 : RegNum) (m : AddrMode) (rs2 : RegNum) (_j : BitVec 5) (s : State) : StepResult :=
  loadStep rd rs1 m (rrmSum .addc rs1 rs2 s) .half .zero s

/-- `uld.h` of the half-word addressed with `Rs1 sub Rs2` (RRM, R269, R275); `j` has no effect (R96, D19). -/
def execUldhSubRRM (rd rs1 : RegNum) (m : AddrMode) (rs2 : RegNum) (_j : BitVec 5) (s : State) : StepResult :=
  loadStep rd rs1 m (rrmSum .sub rs1 rs2 s) .half .zero s

/-- `uld.h` of the half-word addressed with `Rs1 subb Rs2` (RRM, R269, R275); `j` has no effect (R96, D19). -/
def execUldhSubbRRM (rd rs1 : RegNum) (m : AddrMode) (rs2 : RegNum) (_j : BitVec 5) (s : State) : StepResult :=
  loadStep rd rs1 m (rrmSum .subb rs1 rs2 s) .half .zero s

/-- `uld.h` of the half-word addressed with `Rs1 and Rs2` (RRM, R269, R275); `j` has no effect (R96, D19). -/
def execUldhAndRRM (rd rs1 : RegNum) (m : AddrMode) (rs2 : RegNum) (_j : BitVec 5) (s : State) : StepResult :=
  loadStep rd rs1 m (rrmSum .and rs1 rs2 s) .half .zero s

/-- `uld.h` of the half-word addressed with `Rs1 or Rs2` (RRM, R269, R275); `j` has no effect (R96, D19). -/
def execUldhOrRRM (rd rs1 : RegNum) (m : AddrMode) (rs2 : RegNum) (_j : BitVec 5) (s : State) : StepResult :=
  loadStep rd rs1 m (rrmSum .or rs1 rs2 s) .half .zero s

/-- `uld.h` of the half-word addressed with `Rs1 xor Rs2` (RRM, R269, R275); `j` has no effect (R96, D19). -/
def execUldhXorRRM (rd rs1 : RegNum) (m : AddrMode) (rs2 : RegNum) (_j : BitVec 5) (s : State) : StepResult :=
  loadStep rd rs1 m (rrmSum .xor rs1 rs2 s) .half .zero s

/-- `ld.b` of the byte addressed with `Rs1 add Rs2` (RRM, R270, R275); `j` has no effect (R96, D19). -/
def execLdbAddRRM (rd rs1 : RegNum) (m : AddrMode) (rs2 : RegNum) (_j : BitVec 5) (s : State) : StepResult :=
  loadStep rd rs1 m (rrmSum .add rs1 rs2 s) .byte .sign s

/-- `ld.b` of the byte addressed with `Rs1 addc Rs2` (RRM, R270, R275); `j` has no effect (R96, D19). -/
def execLdbAddcRRM (rd rs1 : RegNum) (m : AddrMode) (rs2 : RegNum) (_j : BitVec 5) (s : State) : StepResult :=
  loadStep rd rs1 m (rrmSum .addc rs1 rs2 s) .byte .sign s

/-- `ld.b` of the byte addressed with `Rs1 sub Rs2` (RRM, R270, R275); `j` has no effect (R96, D19). -/
def execLdbSubRRM (rd rs1 : RegNum) (m : AddrMode) (rs2 : RegNum) (_j : BitVec 5) (s : State) : StepResult :=
  loadStep rd rs1 m (rrmSum .sub rs1 rs2 s) .byte .sign s

/-- `ld.b` of the byte addressed with `Rs1 subb Rs2` (RRM, R270, R275); `j` has no effect (R96, D19). -/
def execLdbSubbRRM (rd rs1 : RegNum) (m : AddrMode) (rs2 : RegNum) (_j : BitVec 5) (s : State) : StepResult :=
  loadStep rd rs1 m (rrmSum .subb rs1 rs2 s) .byte .sign s

/-- `ld.b` of the byte addressed with `Rs1 and Rs2` (RRM, R270, R275); `j` has no effect (R96, D19). -/
def execLdbAndRRM (rd rs1 : RegNum) (m : AddrMode) (rs2 : RegNum) (_j : BitVec 5) (s : State) : StepResult :=
  loadStep rd rs1 m (rrmSum .and rs1 rs2 s) .byte .sign s

/-- `ld.b` of the byte addressed with `Rs1 or Rs2` (RRM, R270, R275); `j` has no effect (R96, D19). -/
def execLdbOrRRM (rd rs1 : RegNum) (m : AddrMode) (rs2 : RegNum) (_j : BitVec 5) (s : State) : StepResult :=
  loadStep rd rs1 m (rrmSum .or rs1 rs2 s) .byte .sign s

/-- `ld.b` of the byte addressed with `Rs1 xor Rs2` (RRM, R270, R275); `j` has no effect (R96, D19). -/
def execLdbXorRRM (rd rs1 : RegNum) (m : AddrMode) (rs2 : RegNum) (_j : BitVec 5) (s : State) : StepResult :=
  loadStep rd rs1 m (rrmSum .xor rs1 rs2 s) .byte .sign s

/-- `uld.b` of the byte addressed with `Rs1 add Rs2` (RRM, R271, R275); `j` has no effect (R96, D19). -/
def execUldbAddRRM (rd rs1 : RegNum) (m : AddrMode) (rs2 : RegNum) (_j : BitVec 5) (s : State) : StepResult :=
  loadStep rd rs1 m (rrmSum .add rs1 rs2 s) .byte .zero s

/-- `uld.b` of the byte addressed with `Rs1 addc Rs2` (RRM, R271, R275); `j` has no effect (R96, D19). -/
def execUldbAddcRRM (rd rs1 : RegNum) (m : AddrMode) (rs2 : RegNum) (_j : BitVec 5) (s : State) : StepResult :=
  loadStep rd rs1 m (rrmSum .addc rs1 rs2 s) .byte .zero s

/-- `uld.b` of the byte addressed with `Rs1 sub Rs2` (RRM, R271, R275); `j` has no effect (R96, D19). -/
def execUldbSubRRM (rd rs1 : RegNum) (m : AddrMode) (rs2 : RegNum) (_j : BitVec 5) (s : State) : StepResult :=
  loadStep rd rs1 m (rrmSum .sub rs1 rs2 s) .byte .zero s

/-- `uld.b` of the byte addressed with `Rs1 subb Rs2` (RRM, R271, R275); `j` has no effect (R96, D19). -/
def execUldbSubbRRM (rd rs1 : RegNum) (m : AddrMode) (rs2 : RegNum) (_j : BitVec 5) (s : State) : StepResult :=
  loadStep rd rs1 m (rrmSum .subb rs1 rs2 s) .byte .zero s

/-- `uld.b` of the byte addressed with `Rs1 and Rs2` (RRM, R271, R275); `j` has no effect (R96, D19). -/
def execUldbAndRRM (rd rs1 : RegNum) (m : AddrMode) (rs2 : RegNum) (_j : BitVec 5) (s : State) : StepResult :=
  loadStep rd rs1 m (rrmSum .and rs1 rs2 s) .byte .zero s

/-- `uld.b` of the byte addressed with `Rs1 or Rs2` (RRM, R271, R275); `j` has no effect (R96, D19). -/
def execUldbOrRRM (rd rs1 : RegNum) (m : AddrMode) (rs2 : RegNum) (_j : BitVec 5) (s : State) : StepResult :=
  loadStep rd rs1 m (rrmSum .or rs1 rs2 s) .byte .zero s

/-- `uld.b` of the byte addressed with `Rs1 xor Rs2` (RRM, R271, R275); `j` has no effect (R96, D19). -/
def execUldbXorRRM (rd rs1 : RegNum) (m : AddrMode) (rs2 : RegNum) (_j : BitVec 5) (s : State) : StepResult :=
  loadStep rd rs1 m (rrmSum .xor rs1 rs2 s) .byte .zero s

/-- `st` to the word addressed with `Rs1 add Rs2` (RRM, R272, R275); `j` and `e` have no effect (R96, D19). -/
def execStAddRRM (rd rs1 : RegNum) (m : AddrMode) (rs2 : RegNum) (_j : BitVec 5) (_e : Bool) (s : State) : StepResult :=
  storeStep rd rs1 m (rrmSum .add rs1 rs2 s) .word s

/-- `st` to the word addressed with `Rs1 addc Rs2` (RRM, R272, R275); `j` and `e` have no effect (R96, D19). -/
def execStAddcRRM (rd rs1 : RegNum) (m : AddrMode) (rs2 : RegNum) (_j : BitVec 5) (_e : Bool) (s : State) : StepResult :=
  storeStep rd rs1 m (rrmSum .addc rs1 rs2 s) .word s

/-- `st` to the word addressed with `Rs1 sub Rs2` (RRM, R272, R275); `j` and `e` have no effect (R96, D19). -/
def execStSubRRM (rd rs1 : RegNum) (m : AddrMode) (rs2 : RegNum) (_j : BitVec 5) (_e : Bool) (s : State) : StepResult :=
  storeStep rd rs1 m (rrmSum .sub rs1 rs2 s) .word s

/-- `st` to the word addressed with `Rs1 subb Rs2` (RRM, R272, R275); `j` and `e` have no effect (R96, D19). -/
def execStSubbRRM (rd rs1 : RegNum) (m : AddrMode) (rs2 : RegNum) (_j : BitVec 5) (_e : Bool) (s : State) : StepResult :=
  storeStep rd rs1 m (rrmSum .subb rs1 rs2 s) .word s

/-- `st` to the word addressed with `Rs1 and Rs2` (RRM, R272, R275); `j` and `e` have no effect (R96, D19). -/
def execStAndRRM (rd rs1 : RegNum) (m : AddrMode) (rs2 : RegNum) (_j : BitVec 5) (_e : Bool) (s : State) : StepResult :=
  storeStep rd rs1 m (rrmSum .and rs1 rs2 s) .word s

/-- `st` to the word addressed with `Rs1 or Rs2` (RRM, R272, R275); `j` and `e` have no effect (R96, D19). -/
def execStOrRRM (rd rs1 : RegNum) (m : AddrMode) (rs2 : RegNum) (_j : BitVec 5) (_e : Bool) (s : State) : StepResult :=
  storeStep rd rs1 m (rrmSum .or rs1 rs2 s) .word s

/-- `st` to the word addressed with `Rs1 xor Rs2` (RRM, R272, R275); `j` and `e` have no effect (R96, D19). -/
def execStXorRRM (rd rs1 : RegNum) (m : AddrMode) (rs2 : RegNum) (_j : BitVec 5) (_e : Bool) (s : State) : StepResult :=
  storeStep rd rs1 m (rrmSum .xor rs1 rs2 s) .word s

/-- `st.h` to the half-word addressed with `Rs1 add Rs2` (RRM, R273, R275); `j` and `e` have no effect (R96, D19). -/
def execSthAddRRM (rd rs1 : RegNum) (m : AddrMode) (rs2 : RegNum) (_j : BitVec 5) (_e : Bool) (s : State) : StepResult :=
  storeStep rd rs1 m (rrmSum .add rs1 rs2 s) .half s

/-- `st.h` to the half-word addressed with `Rs1 addc Rs2` (RRM, R273, R275); `j` and `e` have no effect (R96, D19). -/
def execSthAddcRRM (rd rs1 : RegNum) (m : AddrMode) (rs2 : RegNum) (_j : BitVec 5) (_e : Bool) (s : State) : StepResult :=
  storeStep rd rs1 m (rrmSum .addc rs1 rs2 s) .half s

/-- `st.h` to the half-word addressed with `Rs1 sub Rs2` (RRM, R273, R275); `j` and `e` have no effect (R96, D19). -/
def execSthSubRRM (rd rs1 : RegNum) (m : AddrMode) (rs2 : RegNum) (_j : BitVec 5) (_e : Bool) (s : State) : StepResult :=
  storeStep rd rs1 m (rrmSum .sub rs1 rs2 s) .half s

/-- `st.h` to the half-word addressed with `Rs1 subb Rs2` (RRM, R273, R275); `j` and `e` have no effect (R96, D19). -/
def execSthSubbRRM (rd rs1 : RegNum) (m : AddrMode) (rs2 : RegNum) (_j : BitVec 5) (_e : Bool) (s : State) : StepResult :=
  storeStep rd rs1 m (rrmSum .subb rs1 rs2 s) .half s

/-- `st.h` to the half-word addressed with `Rs1 and Rs2` (RRM, R273, R275); `j` and `e` have no effect (R96, D19). -/
def execSthAndRRM (rd rs1 : RegNum) (m : AddrMode) (rs2 : RegNum) (_j : BitVec 5) (_e : Bool) (s : State) : StepResult :=
  storeStep rd rs1 m (rrmSum .and rs1 rs2 s) .half s

/-- `st.h` to the half-word addressed with `Rs1 or Rs2` (RRM, R273, R275); `j` and `e` have no effect (R96, D19). -/
def execSthOrRRM (rd rs1 : RegNum) (m : AddrMode) (rs2 : RegNum) (_j : BitVec 5) (_e : Bool) (s : State) : StepResult :=
  storeStep rd rs1 m (rrmSum .or rs1 rs2 s) .half s

/-- `st.h` to the half-word addressed with `Rs1 xor Rs2` (RRM, R273, R275); `j` and `e` have no effect (R96, D19). -/
def execSthXorRRM (rd rs1 : RegNum) (m : AddrMode) (rs2 : RegNum) (_j : BitVec 5) (_e : Bool) (s : State) : StepResult :=
  storeStep rd rs1 m (rrmSum .xor rs1 rs2 s) .half s

/-- `st.b` to the byte addressed with `Rs1 add Rs2` (RRM, R274, R275); `j` and `e` have no effect (R96, D19). -/
def execStbAddRRM (rd rs1 : RegNum) (m : AddrMode) (rs2 : RegNum) (_j : BitVec 5) (_e : Bool) (s : State) : StepResult :=
  storeStep rd rs1 m (rrmSum .add rs1 rs2 s) .byte s

/-- `st.b` to the byte addressed with `Rs1 addc Rs2` (RRM, R274, R275); `j` and `e` have no effect (R96, D19). -/
def execStbAddcRRM (rd rs1 : RegNum) (m : AddrMode) (rs2 : RegNum) (_j : BitVec 5) (_e : Bool) (s : State) : StepResult :=
  storeStep rd rs1 m (rrmSum .addc rs1 rs2 s) .byte s

/-- `st.b` to the byte addressed with `Rs1 sub Rs2` (RRM, R274, R275); `j` and `e` have no effect (R96, D19). -/
def execStbSubRRM (rd rs1 : RegNum) (m : AddrMode) (rs2 : RegNum) (_j : BitVec 5) (_e : Bool) (s : State) : StepResult :=
  storeStep rd rs1 m (rrmSum .sub rs1 rs2 s) .byte s

/-- `st.b` to the byte addressed with `Rs1 subb Rs2` (RRM, R274, R275); `j` and `e` have no effect (R96, D19). -/
def execStbSubbRRM (rd rs1 : RegNum) (m : AddrMode) (rs2 : RegNum) (_j : BitVec 5) (_e : Bool) (s : State) : StepResult :=
  storeStep rd rs1 m (rrmSum .subb rs1 rs2 s) .byte s

/-- `st.b` to the byte addressed with `Rs1 and Rs2` (RRM, R274, R275); `j` and `e` have no effect (R96, D19). -/
def execStbAndRRM (rd rs1 : RegNum) (m : AddrMode) (rs2 : RegNum) (_j : BitVec 5) (_e : Bool) (s : State) : StepResult :=
  storeStep rd rs1 m (rrmSum .and rs1 rs2 s) .byte s

/-- `st.b` to the byte addressed with `Rs1 or Rs2` (RRM, R274, R275); `j` and `e` have no effect (R96, D19). -/
def execStbOrRRM (rd rs1 : RegNum) (m : AddrMode) (rs2 : RegNum) (_j : BitVec 5) (_e : Bool) (s : State) : StepResult :=
  storeStep rd rs1 m (rrmSum .or rs1 rs2 s) .byte s

/-- `st.b` to the byte addressed with `Rs1 xor Rs2` (RRM, R274, R275); `j` and `e` have no effect (R96, D19). -/
def execStbXorRRM (rd rs1 : RegNum) (m : AddrMode) (rs2 : RegNum) (_j : BitVec 5) (_e : Bool) (s : State) : StepResult :=
  storeStep rd rs1 m (rrmSum .xor rs1 rs2 s) .byte s

/-- `ld` of the word addressed with `Rs1 sh Rs2` (RRM, `BBB = 111`, R267, R275); `y` is `YLE`, without effect (R263). -/
def execLdShRRM (rd rs1 : RegNum) (m : AddrMode) (rs2 : RegNum) (_y : BitVec 3) (s : State) : StepResult :=
  loadStep rd rs1 m (rrmSum .sh rs1 rs2 s) .word .sign s

/-- `ld` of the word addressed with `Rs1 sha Rs2` (RRM, `BBB = 111`, R267, R275); `y` is `YLE`, without effect (R263). -/
def execLdShaRRM (rd rs1 : RegNum) (m : AddrMode) (rs2 : RegNum) (_y : BitVec 3) (s : State) : StepResult :=
  loadStep rd rs1 m (rrmSum .sha rs1 rs2 s) .word .sign s

/-- `st` of the word addressed with `Rs1 sh Rs2` (RRM, `BBB = 111`, R272, R275); `y` is `YLE`, without effect (R263). -/
def execStShRRM (rd rs1 : RegNum) (m : AddrMode) (rs2 : RegNum) (_y : BitVec 3) (s : State) : StepResult :=
  storeStep rd rs1 m (rrmSum .sh rs1 rs2 s) .word s

/-- `st` of the word addressed with `Rs1 sha Rs2` (RRM, `BBB = 111`, R272, R275); `y` is `YLE`, without effect (R263). -/
def execStShaRRM (rd rs1 : RegNum) (m : AddrMode) (rs2 : RegNum) (_y : BitVec 3) (s : State) : StepResult :=
  storeStep rd rs1 m (rrmSum .sha rs1 rs2 s) .word s

end Sys2Proof.Machine
end

