-- ==== Sys2Proof/Machine/RRR.lean ====
section
/-! DEFINITION. The meanings of the three-register instructions (`put`) (Three-Register (`43_rrr.md`)). Each is the whole time step in which the
instruction is in the Compute stage (`40_timestep.md` R137). -/

namespace Sys2Proof.Machine

/-- `put Rs1 add<.f> (Rs2 op1 Rs3), Rd` (RRR, R217). -/
def execPutAdd (rd rs1 : RegNum) (f : Bool) (rs2 rs3 : RegNum) (op1 : Op1) (s : State) : StepResult :=
  rrrStep .add op1 rd rs1 f rs2 rs3 s

/-- `put Rs1 addc<.f> (Rs2 op1 Rs3), Rd` (RRR, R218). -/
def execPutAddc (rd rs1 : RegNum) (f : Bool) (rs2 rs3 : RegNum) (op1 : Op1) (s : State) : StepResult :=
  rrrStep .addc op1 rd rs1 f rs2 rs3 s

/-- `put Rs1 sub<.f> (Rs2 op1 Rs3), Rd` (RRR, R219). -/
def execPutSub (rd rs1 : RegNum) (f : Bool) (rs2 rs3 : RegNum) (op1 : Op1) (s : State) : StepResult :=
  rrrStep .sub op1 rd rs1 f rs2 rs3 s

/-- `put Rs1 subb<.f> (Rs2 op1 Rs3), Rd` (RRR, R220). -/
def execPutSubb (rd rs1 : RegNum) (f : Bool) (rs2 rs3 : RegNum) (op1 : Op1) (s : State) : StepResult :=
  rrrStep .subb op1 rd rs1 f rs2 rs3 s

/-- `put Rs1 and<.f> (Rs2 op1 Rs3), Rd` (RRR, R221). -/
def execPutAnd (rd rs1 : RegNum) (f : Bool) (rs2 rs3 : RegNum) (op1 : Op1) (s : State) : StepResult :=
  rrrStep .and op1 rd rs1 f rs2 rs3 s

/-- `put Rs1 or<.f> (Rs2 op1 Rs3), Rd` (RRR, R222). -/
def execPutOr (rd rs1 : RegNum) (f : Bool) (rs2 rs3 : RegNum) (op1 : Op1) (s : State) : StepResult :=
  rrrStep .or op1 rd rs1 f rs2 rs3 s

/-- `put Rs1 xor<.f> (Rs2 op1 Rs3), Rd` (RRR, R223). -/
def execPutXor (rd rs1 : RegNum) (f : Bool) (rs2 rs3 : RegNum) (op1 : Op1) (s : State) : StepResult :=
  rrrStep .xor op1 rd rs1 f rs2 rs3 s

/-- `put Rs1 sh<.f> (Rs2 op1 Rs3), Rd` (RRR, R224). -/
def execPutSh (rd rs1 : RegNum) (f : Bool) (rs2 rs3 : RegNum) (op1 : Op1) (s : State) : StepResult :=
  rrrStep .sh op1 rd rs1 f rs2 rs3 s

/-- `put Rs1 sha<.f> (Rs2 op1 Rs3), Rd` (RRR, R225). -/
def execPutSha (rd rs1 : RegNum) (f : Bool) (rs2 rs3 : RegNum) (op1 : Op1) (s : State) : StepResult :=
  rrrStep .sha op1 rd rs1 f rs2 rs3 s

end Sys2Proof.Machine
end

