-- ==== Sys2Proof/Machine/SBR.lean ====
section
/-! DEFINITION. The meanings of the branches to a register sum (Special Branch (`49_sbr.md`)). Each is the whole time step in which the
instruction is in the Compute stage (`40_timestep.md` R137). -/

namespace Sys2Proof.Machine

/-- `bt Rs1 add Rs3`: branch to the sum if 1 (SBR, R351, R352). -/
def execBtSBR (rs1 rs3 : RegNum) (s : State) : StepResult :=
  sbrStep .t rs1 rs3 s

/-- `bf Rs1 add Rs3`: branch to the sum if 0 (SBR, R351, R352). -/
def execBfSBR (rs1 rs3 : RegNum) (s : State) : StepResult :=
  sbrStep .f rs1 rs3 s

/-- `bhi Rs1 add Rs3`: branch to the sum if `C AND Z'` (SBR, R351, R352). -/
def execBhiSBR (rs1 rs3 : RegNum) (s : State) : StepResult :=
  sbrStep .hi rs1 rs3 s

/-- `bls Rs1 add Rs3`: branch to the sum if `C' OR Z` (SBR, R351, R352). -/
def execBlsSBR (rs1 rs3 : RegNum) (s : State) : StepResult :=
  sbrStep .ls rs1 rs3 s

/-- `bcc Rs1 add Rs3`: branch to the sum if `C'` (SBR, R351, R352). -/
def execBccSBR (rs1 rs3 : RegNum) (s : State) : StepResult :=
  sbrStep .cc rs1 rs3 s

/-- `bcs Rs1 add Rs3`: branch to the sum if `C` (SBR, R351, R352). -/
def execBcsSBR (rs1 rs3 : RegNum) (s : State) : StepResult :=
  sbrStep .cs rs1 rs3 s

/-- `bne Rs1 add Rs3`: branch to the sum if `Z'` (SBR, R351, R352). -/
def execBneSBR (rs1 rs3 : RegNum) (s : State) : StepResult :=
  sbrStep .ne rs1 rs3 s

/-- `beq Rs1 add Rs3`: branch to the sum if `Z` (SBR, R351, R352). -/
def execBeqSBR (rs1 rs3 : RegNum) (s : State) : StepResult :=
  sbrStep .eq rs1 rs3 s

/-- `bvc Rs1 add Rs3`: branch to the sum if `V'` (SBR, R351, R352). -/
def execBvcSBR (rs1 rs3 : RegNum) (s : State) : StepResult :=
  sbrStep .vc rs1 rs3 s

/-- `bvs Rs1 add Rs3`: branch to the sum if `V` (SBR, R351, R352). -/
def execBvsSBR (rs1 rs3 : RegNum) (s : State) : StepResult :=
  sbrStep .vs rs1 rs3 s

/-- `bpl Rs1 add Rs3`: branch to the sum if `N'` (SBR, R351, R352). -/
def execBplSBR (rs1 rs3 : RegNum) (s : State) : StepResult :=
  sbrStep .pl rs1 rs3 s

/-- `bmi Rs1 add Rs3`: branch to the sum if `N` (SBR, R351, R352). -/
def execBmiSBR (rs1 rs3 : RegNum) (s : State) : StepResult :=
  sbrStep .mi rs1 rs3 s

/-- `bge Rs1 add Rs3`: branch to the sum if `(N AND V) OR (N' AND V')` (SBR, R351, R352). -/
def execBgeSBR (rs1 rs3 : RegNum) (s : State) : StepResult :=
  sbrStep .ge rs1 rs3 s

/-- `blt Rs1 add Rs3`: branch to the sum if `(N AND V') OR (N' AND V)` (SBR, R351, R352). -/
def execBltSBR (rs1 rs3 : RegNum) (s : State) : StepResult :=
  sbrStep .lt rs1 rs3 s

/-- `bgt Rs1 add Rs3`: branch to the sum if `(N AND V AND Z') OR (N' AND V' AND Z')` (SBR, R351, R352). -/
def execBgtSBR (rs1 rs3 : RegNum) (s : State) : StepResult :=
  sbrStep .gt rs1 rs3 s

/-- `ble Rs1 add Rs3`: branch to the sum if `Z OR (N AND V') OR (N' AND V)` (SBR, R351, R352). -/
def execBleSBR (rs1 rs3 : RegNum) (s : State) : StepResult :=
  sbrStep .le rs1 rs3 s

end Sys2Proof.Machine
end

