-- ==== Sys2Proof/Machine/SLS.lean ====
section
/-! DEFINITION. The meanings of the absolute loads and stores and the load-immediate (Special Load/Store (`48_special_ls.md`), Special Load Immediate (`48_special_ls.md`)). Each is the whole time step in which the
instruction is in the Compute stage (`40_timestep.md` R137). -/

namespace Sys2Proof.Machine

/-- `ld [LCONST], Rd` (SLS, R322). -/
def execLdSLS (rd : RegNum) (a : BitVec 21) (s : State) : StepResult :=
  slsLoadStep rd a s

/-- `st Rd, [LCONST]` (SLS, R323). -/
def execStSLS (rd : RegNum) (a : BitVec 21) (s : State) : StepResult :=
  slsStoreStep rd a s

/-- `mov LCONST, Rd` (SLI, R325, R326). -/
def execMovSLI (rd : RegNum) (k : BitVec 21) (s : State) : StepResult :=
  sliStep rd k s

end Sys2Proof.Machine
end

