-- ==== Sys2Proof/Machine/SPLS.lean ====
section
/-! DEFINITION. The meanings of the part-word loads and stores with a 10-bit constant (Part-word Load/Store (`48_special_ls.md`)). Each is the whole time step in which the
instruction is in the Compute stage (`40_timestep.md` R137). -/

namespace Sys2Proof.Machine

/-- `ld.h` with base `Rs1` and a 10-bit signed constant (SPLS, R330). -/
def execLdhSPLS (rd rs1 : RegNum) (m : AddrMode) (k : BitVec 10) (s : State) : StepResult :=
  loadStep rd rs1 m (splsSum rs1 k s) .half .sign s

/-- `uld.h` with base `Rs1` and a 10-bit signed constant (SPLS, R331). -/
def execUldhSPLS (rd rs1 : RegNum) (m : AddrMode) (k : BitVec 10) (s : State) : StepResult :=
  loadStep rd rs1 m (splsSum rs1 k s) .half .zero s

/-- `ld.b` with base `Rs1` and a 10-bit signed constant (SPLS, R332). -/
def execLdbSPLS (rd rs1 : RegNum) (m : AddrMode) (k : BitVec 10) (s : State) : StepResult :=
  loadStep rd rs1 m (splsSum rs1 k s) .byte .sign s

/-- `uld.b` with base `Rs1` and a 10-bit signed constant (SPLS, R333). -/
def execUldbSPLS (rd rs1 : RegNum) (m : AddrMode) (k : BitVec 10) (s : State) : StepResult :=
  loadStep rd rs1 m (splsSum rs1 k s) .byte .zero s

/-- `st.h` with base `Rs1` and a 10-bit signed constant (SPLS, R334); `e` has no effect (D19). -/
def execSthSPLS (rd rs1 : RegNum) (m : AddrMode) (k : BitVec 10) (_e : Bool) (s : State) : StepResult :=
  storeStep rd rs1 m (splsSum rs1 k s) .half s

/-- `st.b` with base `Rs1` and a 10-bit signed constant (SPLS, R335); `e` has no effect (D19). -/
def execStbSPLS (rd rs1 : RegNum) (m : AddrMode) (k : BitVec 10) (_e : Bool) (s : State) : StepResult :=
  storeStep rd rs1 m (splsSum rs1 k s) .byte s

end Sys2Proof.Machine
end

