-- ==== Sys2Proof/Machine/Dispatch.lean ====
section
/-! DEFINITION. The meaning of every instruction: one arm for each constructor of Instr. -/

namespace Sys2Proof.Machine

/-- The time step of the current context with the instruction `i` in its Compute stage (R133, R137). -/
def exec (i : Instr) (s : State) : Host.Outcome State Fault Refusal :=
  match i with
  | .addRI rd rs1 f h k => Sys2Proof.Machine.execAddRI rd rs1 f h k s
  | .addcRI rd rs1 f h k => Sys2Proof.Machine.execAddcRI rd rs1 f h k s
  | .subRI rd rs1 f h k => Sys2Proof.Machine.execSubRI rd rs1 f h k s
  | .subbRI rd rs1 f h k => Sys2Proof.Machine.execSubbRI rd rs1 f h k s
  | .andRI rd rs1 f h k => Sys2Proof.Machine.execAndRI rd rs1 f h k s
  | .orRI rd rs1 f h k => Sys2Proof.Machine.execOrRI rd rs1 f h k s
  | .xorRI rd rs1 f h k => Sys2Proof.Machine.execXorRI rd rs1 f h k s
  | .shRI rd rs1 f k => Sys2Proof.Machine.execShRI rd rs1 f k s
  | .shaRI rd rs1 f k => Sys2Proof.Machine.execShaRI rd rs1 f k s
  | .addRR rd rs1 f rs2 j => Sys2Proof.Machine.execAddRR rd rs1 f rs2 j s
  | .addcRR rd rs1 f rs2 j => Sys2Proof.Machine.execAddcRR rd rs1 f rs2 j s
  | .subRR rd rs1 f rs2 j => Sys2Proof.Machine.execSubRR rd rs1 f rs2 j s
  | .subbRR rd rs1 f rs2 j => Sys2Proof.Machine.execSubbRR rd rs1 f rs2 j s
  | .andRR rd rs1 f rs2 j => Sys2Proof.Machine.execAndRR rd rs1 f rs2 j s
  | .orRR rd rs1 f rs2 j => Sys2Proof.Machine.execOrRR rd rs1 f rs2 j s
  | .xorRR rd rs1 f rs2 j => Sys2Proof.Machine.execXorRR rd rs1 f rs2 j s
  | .shRR rd rs1 f rs2 => Sys2Proof.Machine.execShRR rd rs1 f rs2 s
  | .shaRR rd rs1 f rs2 => Sys2Proof.Machine.execShaRR rd rs1 f rs2 s
  | .putAdd rd rs1 f rs2 rs3 op1 => Sys2Proof.Machine.execPutAdd rd rs1 f rs2 rs3 op1 s
  | .putAddc rd rs1 f rs2 rs3 op1 => Sys2Proof.Machine.execPutAddc rd rs1 f rs2 rs3 op1 s
  | .putSub rd rs1 f rs2 rs3 op1 => Sys2Proof.Machine.execPutSub rd rs1 f rs2 rs3 op1 s
  | .putSubb rd rs1 f rs2 rs3 op1 => Sys2Proof.Machine.execPutSubb rd rs1 f rs2 rs3 op1 s
  | .putAnd rd rs1 f rs2 rs3 op1 => Sys2Proof.Machine.execPutAnd rd rs1 f rs2 rs3 op1 s
  | .putOr rd rs1 f rs2 rs3 op1 => Sys2Proof.Machine.execPutOr rd rs1 f rs2 rs3 op1 s
  | .putXor rd rs1 f rs2 rs3 op1 => Sys2Proof.Machine.execPutXor rd rs1 f rs2 rs3 op1 s
  | .putSh rd rs1 f rs2 rs3 op1 => Sys2Proof.Machine.execPutSh rd rs1 f rs2 rs3 op1 s
  | .putSha rd rs1 f rs2 rs3 op1 => Sys2Proof.Machine.execPutSha rd rs1 f rs2 rs3 op1 s
  | .ldRM rd rs1 m k => Sys2Proof.Machine.execLdRM rd rs1 m k s
  | .stRM rd rs1 m k => Sys2Proof.Machine.execStRM rd rs1 m k s
  | .ldAddRRM rd rs1 m rs2 j e => Sys2Proof.Machine.execLdAddRRM rd rs1 m rs2 j e s
  | .ldAddcRRM rd rs1 m rs2 j e => Sys2Proof.Machine.execLdAddcRRM rd rs1 m rs2 j e s
  | .ldSubRRM rd rs1 m rs2 j e => Sys2Proof.Machine.execLdSubRRM rd rs1 m rs2 j e s
  | .ldSubbRRM rd rs1 m rs2 j e => Sys2Proof.Machine.execLdSubbRRM rd rs1 m rs2 j e s
  | .ldAndRRM rd rs1 m rs2 j e => Sys2Proof.Machine.execLdAndRRM rd rs1 m rs2 j e s
  | .ldOrRRM rd rs1 m rs2 j e => Sys2Proof.Machine.execLdOrRRM rd rs1 m rs2 j e s
  | .ldXorRRM rd rs1 m rs2 j e => Sys2Proof.Machine.execLdXorRRM rd rs1 m rs2 j e s
  | .ldhAddRRM rd rs1 m rs2 j => Sys2Proof.Machine.execLdhAddRRM rd rs1 m rs2 j s
  | .ldhAddcRRM rd rs1 m rs2 j => Sys2Proof.Machine.execLdhAddcRRM rd rs1 m rs2 j s
  | .ldhSubRRM rd rs1 m rs2 j => Sys2Proof.Machine.execLdhSubRRM rd rs1 m rs2 j s
  | .ldhSubbRRM rd rs1 m rs2 j => Sys2Proof.Machine.execLdhSubbRRM rd rs1 m rs2 j s
  | .ldhAndRRM rd rs1 m rs2 j => Sys2Proof.Machine.execLdhAndRRM rd rs1 m rs2 j s
  | .ldhOrRRM rd rs1 m rs2 j => Sys2Proof.Machine.execLdhOrRRM rd rs1 m rs2 j s
  | .ldhXorRRM rd rs1 m rs2 j => Sys2Proof.Machine.execLdhXorRRM rd rs1 m rs2 j s
  | .uldhAddRRM rd rs1 m rs2 j => Sys2Proof.Machine.execUldhAddRRM rd rs1 m rs2 j s
  | .uldhAddcRRM rd rs1 m rs2 j => Sys2Proof.Machine.execUldhAddcRRM rd rs1 m rs2 j s
  | .uldhSubRRM rd rs1 m rs2 j => Sys2Proof.Machine.execUldhSubRRM rd rs1 m rs2 j s
  | .uldhSubbRRM rd rs1 m rs2 j => Sys2Proof.Machine.execUldhSubbRRM rd rs1 m rs2 j s
  | .uldhAndRRM rd rs1 m rs2 j => Sys2Proof.Machine.execUldhAndRRM rd rs1 m rs2 j s
  | .uldhOrRRM rd rs1 m rs2 j => Sys2Proof.Machine.execUldhOrRRM rd rs1 m rs2 j s
  | .uldhXorRRM rd rs1 m rs2 j => Sys2Proof.Machine.execUldhXorRRM rd rs1 m rs2 j s
  | .ldbAddRRM rd rs1 m rs2 j => Sys2Proof.Machine.execLdbAddRRM rd rs1 m rs2 j s
  | .ldbAddcRRM rd rs1 m rs2 j => Sys2Proof.Machine.execLdbAddcRRM rd rs1 m rs2 j s
  | .ldbSubRRM rd rs1 m rs2 j => Sys2Proof.Machine.execLdbSubRRM rd rs1 m rs2 j s
  | .ldbSubbRRM rd rs1 m rs2 j => Sys2Proof.Machine.execLdbSubbRRM rd rs1 m rs2 j s
  | .ldbAndRRM rd rs1 m rs2 j => Sys2Proof.Machine.execLdbAndRRM rd rs1 m rs2 j s
  | .ldbOrRRM rd rs1 m rs2 j => Sys2Proof.Machine.execLdbOrRRM rd rs1 m rs2 j s
  | .ldbXorRRM rd rs1 m rs2 j => Sys2Proof.Machine.execLdbXorRRM rd rs1 m rs2 j s
  | .uldbAddRRM rd rs1 m rs2 j => Sys2Proof.Machine.execUldbAddRRM rd rs1 m rs2 j s
  | .uldbAddcRRM rd rs1 m rs2 j => Sys2Proof.Machine.execUldbAddcRRM rd rs1 m rs2 j s
  | .uldbSubRRM rd rs1 m rs2 j => Sys2Proof.Machine.execUldbSubRRM rd rs1 m rs2 j s
  | .uldbSubbRRM rd rs1 m rs2 j => Sys2Proof.Machine.execUldbSubbRRM rd rs1 m rs2 j s
  | .uldbAndRRM rd rs1 m rs2 j => Sys2Proof.Machine.execUldbAndRRM rd rs1 m rs2 j s
  | .uldbOrRRM rd rs1 m rs2 j => Sys2Proof.Machine.execUldbOrRRM rd rs1 m rs2 j s
  | .uldbXorRRM rd rs1 m rs2 j => Sys2Proof.Machine.execUldbXorRRM rd rs1 m rs2 j s
  | .stAddRRM rd rs1 m rs2 j e => Sys2Proof.Machine.execStAddRRM rd rs1 m rs2 j e s
  | .stAddcRRM rd rs1 m rs2 j e => Sys2Proof.Machine.execStAddcRRM rd rs1 m rs2 j e s
  | .stSubRRM rd rs1 m rs2 j e => Sys2Proof.Machine.execStSubRRM rd rs1 m rs2 j e s
  | .stSubbRRM rd rs1 m rs2 j e => Sys2Proof.Machine.execStSubbRRM rd rs1 m rs2 j e s
  | .stAndRRM rd rs1 m rs2 j e => Sys2Proof.Machine.execStAndRRM rd rs1 m rs2 j e s
  | .stOrRRM rd rs1 m rs2 j e => Sys2Proof.Machine.execStOrRRM rd rs1 m rs2 j e s
  | .stXorRRM rd rs1 m rs2 j e => Sys2Proof.Machine.execStXorRRM rd rs1 m rs2 j e s
  | .sthAddRRM rd rs1 m rs2 j e => Sys2Proof.Machine.execSthAddRRM rd rs1 m rs2 j e s
  | .sthAddcRRM rd rs1 m rs2 j e => Sys2Proof.Machine.execSthAddcRRM rd rs1 m rs2 j e s
  | .sthSubRRM rd rs1 m rs2 j e => Sys2Proof.Machine.execSthSubRRM rd rs1 m rs2 j e s
  | .sthSubbRRM rd rs1 m rs2 j e => Sys2Proof.Machine.execSthSubbRRM rd rs1 m rs2 j e s
  | .sthAndRRM rd rs1 m rs2 j e => Sys2Proof.Machine.execSthAndRRM rd rs1 m rs2 j e s
  | .sthOrRRM rd rs1 m rs2 j e => Sys2Proof.Machine.execSthOrRRM rd rs1 m rs2 j e s
  | .sthXorRRM rd rs1 m rs2 j e => Sys2Proof.Machine.execSthXorRRM rd rs1 m rs2 j e s
  | .stbAddRRM rd rs1 m rs2 j e => Sys2Proof.Machine.execStbAddRRM rd rs1 m rs2 j e s
  | .stbAddcRRM rd rs1 m rs2 j e => Sys2Proof.Machine.execStbAddcRRM rd rs1 m rs2 j e s
  | .stbSubRRM rd rs1 m rs2 j e => Sys2Proof.Machine.execStbSubRRM rd rs1 m rs2 j e s
  | .stbSubbRRM rd rs1 m rs2 j e => Sys2Proof.Machine.execStbSubbRRM rd rs1 m rs2 j e s
  | .stbAndRRM rd rs1 m rs2 j e => Sys2Proof.Machine.execStbAndRRM rd rs1 m rs2 j e s
  | .stbOrRRM rd rs1 m rs2 j e => Sys2Proof.Machine.execStbOrRRM rd rs1 m rs2 j e s
  | .stbXorRRM rd rs1 m rs2 j e => Sys2Proof.Machine.execStbXorRRM rd rs1 m rs2 j e s
  | .ldShRRM rd rs1 m rs2 y => Sys2Proof.Machine.execLdShRRM rd rs1 m rs2 y s
  | .ldShaRRM rd rs1 m rs2 y => Sys2Proof.Machine.execLdShaRRM rd rs1 m rs2 y s
  | .stShRRM rd rs1 m rs2 y => Sys2Proof.Machine.execStShRRM rd rs1 m rs2 y s
  | .stShaRRM rd rs1 m rs2 y => Sys2Proof.Machine.execStShaRRM rd rs1 m rs2 y s
  | .btBR k r => Sys2Proof.Machine.execBtBR k r s
  | .bfBR k r => Sys2Proof.Machine.execBfBR k r s
  | .bhiBR k r => Sys2Proof.Machine.execBhiBR k r s
  | .blsBR k r => Sys2Proof.Machine.execBlsBR k r s
  | .bccBR k r => Sys2Proof.Machine.execBccBR k r s
  | .bcsBR k r => Sys2Proof.Machine.execBcsBR k r s
  | .bneBR k r => Sys2Proof.Machine.execBneBR k r s
  | .beqBR k r => Sys2Proof.Machine.execBeqBR k r s
  | .bvcBR k r => Sys2Proof.Machine.execBvcBR k r s
  | .bvsBR k r => Sys2Proof.Machine.execBvsBR k r s
  | .bplBR k r => Sys2Proof.Machine.execBplBR k r s
  | .bmiBR k r => Sys2Proof.Machine.execBmiBR k r s
  | .bgeBR k r => Sys2Proof.Machine.execBgeBR k r s
  | .bltBR k r => Sys2Proof.Machine.execBltBR k r s
  | .bgtBR k r => Sys2Proof.Machine.execBgtBR k r s
  | .bleBR k r => Sys2Proof.Machine.execBleBR k r s
  | .punt => Sys2Proof.Machine.execPunt s
  | .ldSLS rd a => Sys2Proof.Machine.execLdSLS rd a s
  | .stSLS rd a => Sys2Proof.Machine.execStSLS rd a s
  | .movSLI rd k => Sys2Proof.Machine.execMovSLI rd k s
  | .ldhSPLS rd rs1 m k => Sys2Proof.Machine.execLdhSPLS rd rs1 m k s
  | .uldhSPLS rd rs1 m k => Sys2Proof.Machine.execUldhSPLS rd rs1 m k s
  | .ldbSPLS rd rs1 m k => Sys2Proof.Machine.execLdbSPLS rd rs1 m k s
  | .uldbSPLS rd rs1 m k => Sys2Proof.Machine.execUldbSPLS rd rs1 m k s
  | .sthSPLS rd rs1 m k e => Sys2Proof.Machine.execSthSPLS rd rs1 m k e s
  | .stbSPLS rd rs1 m k e => Sys2Proof.Machine.execStbSPLS rd rs1 m k e s
  | .btSBR rs1 rs3 => Sys2Proof.Machine.execBtSBR rs1 rs3 s
  | .bfSBR rs1 rs3 => Sys2Proof.Machine.execBfSBR rs1 rs3 s
  | .bhiSBR rs1 rs3 => Sys2Proof.Machine.execBhiSBR rs1 rs3 s
  | .blsSBR rs1 rs3 => Sys2Proof.Machine.execBlsSBR rs1 rs3 s
  | .bccSBR rs1 rs3 => Sys2Proof.Machine.execBccSBR rs1 rs3 s
  | .bcsSBR rs1 rs3 => Sys2Proof.Machine.execBcsSBR rs1 rs3 s
  | .bneSBR rs1 rs3 => Sys2Proof.Machine.execBneSBR rs1 rs3 s
  | .beqSBR rs1 rs3 => Sys2Proof.Machine.execBeqSBR rs1 rs3 s
  | .bvcSBR rs1 rs3 => Sys2Proof.Machine.execBvcSBR rs1 rs3 s
  | .bvsSBR rs1 rs3 => Sys2Proof.Machine.execBvsSBR rs1 rs3 s
  | .bplSBR rs1 rs3 => Sys2Proof.Machine.execBplSBR rs1 rs3 s
  | .bmiSBR rs1 rs3 => Sys2Proof.Machine.execBmiSBR rs1 rs3 s
  | .bgeSBR rs1 rs3 => Sys2Proof.Machine.execBgeSBR rs1 rs3 s
  | .bltSBR rs1 rs3 => Sys2Proof.Machine.execBltSBR rs1 rs3 s
  | .bgtSBR rs1 rs3 => Sys2Proof.Machine.execBgtSBR rs1 rs3 s
  | .bleSBR rs1 rs3 => Sys2Proof.Machine.execBleSBR rs1 rs3 s

end Sys2Proof.Machine
end

