-- ==== Sys2Proof/Machine/Step.lean ====
section
/-! DEFINITION. One time step of the machine (`40_timestep.md` R137): the Compute stage executes the word that the context
fetched in its previous time step. -/

namespace Sys2Proof.Machine

/-- The refusal of a word that has no instruction (R110). -/
def refusalOfDecode : DecodeError → Refusal
  | .reservedBit => .reservedBit
  | .reservedOperation => .reservedOperation
  | .noAccessWidth => .noAccessWidth
  | .unassignedSpecial => .unassignedSpecial
  | .truncated => .unassignedSpecial

/-- One time step: the executing context computes its latched word, or a bubble where its latch is empty. -/
def step (s : State) : Host.Outcome State Fault Refusal :=
  match (s.ctx s.cur).ir with
  | .bubble => bubbleStep s
  | .word w =>
    match decode w with
    | .ok i => exec i s
    | .error e => .refused (refusalOfDecode e)

/-- The state in which the next step runs the instruction of the opcode-table bits `w`: a time step runs what its context
has in the instruction latch (R39, R137; log 1), so the word stands there. -/
def State.withFetchWord (s : State) (nbits w : Nat) : State :=
  s.setCtx s.cur { s.ctx s.cur with ir := .word (tableWord nbits w) }

end Sys2Proof.Machine
end

