-- ==== Sys2Proof/Safety.lean ====
section
/-! DEFINITION. The terms in which claims speak: when a time step has a next state, what it did, location by location, and
the invariant of the machine. -/

namespace Sys2Proof

/-! ## What an instruction may write, by its syntax -/

/-- The base register that an addressing mode updates (R99). -/
def AddrMode.baseDest (m : AddrMode) (rs1 : RegNum) : Option RegNum :=
  match m with
  | .base | .sum => none
  | .postModify | .preModify => some rs1

/-- The register that the compute port may write when the instruction is in the Compute stage (R133 item 1): `Rd` of RI, RR
and RRR, the base register of RM, RRM and SPLS with `Q = 1`, `pc` for BR and SBR. -/
def Instr.computeDest : Instr → Option RegNum
  | .addRI rd _ _ _ _ | .addcRI rd _ _ _ _ | .subRI rd _ _ _ _ | .subbRI rd _ _ _ _ | .andRI rd _ _ _ _
  | .orRI rd _ _ _ _ | .xorRI rd _ _ _ _ | .shRI rd _ _ _ | .shaRI rd _ _ _ | .addRR rd _ _ _ _
  | .addcRR rd _ _ _ _ | .subRR rd _ _ _ _ | .subbRR rd _ _ _ _ | .andRR rd _ _ _ _ | .orRR rd _ _ _ _
  | .xorRR rd _ _ _ _ | .shRR rd _ _ _ | .shaRR rd _ _ _ | .putAdd rd _ _ _ _ _ | .putAddc rd _ _ _ _ _
  | .putSub rd _ _ _ _ _ | .putSubb rd _ _ _ _ _ | .putAnd rd _ _ _ _ _ | .putOr rd _ _ _ _ _
  | .putXor rd _ _ _ _ _ | .putSh rd _ _ _ _ _ | .putSha rd _ _ _ _ _ => some rd
  | .ldRM _ rs1 m _ | .stRM _ rs1 m _ | .ldAddRRM _ rs1 m _ _ _ | .ldAddcRRM _ rs1 m _ _ _
  | .ldSubRRM _ rs1 m _ _ _ | .ldSubbRRM _ rs1 m _ _ _ | .ldAndRRM _ rs1 m _ _ _ | .ldOrRRM _ rs1 m _ _ _
  | .ldXorRRM _ rs1 m _ _ _ | .ldhAddRRM _ rs1 m _ _ | .ldhAddcRRM _ rs1 m _ _ | .ldhSubRRM _ rs1 m _ _
  | .ldhSubbRRM _ rs1 m _ _ | .ldhAndRRM _ rs1 m _ _ | .ldhOrRRM _ rs1 m _ _ | .ldhXorRRM _ rs1 m _ _
  | .uldhAddRRM _ rs1 m _ _ | .uldhAddcRRM _ rs1 m _ _ | .uldhSubRRM _ rs1 m _ _ | .uldhSubbRRM _ rs1 m _ _
  | .uldhAndRRM _ rs1 m _ _ | .uldhOrRRM _ rs1 m _ _ | .uldhXorRRM _ rs1 m _ _ | .ldbAddRRM _ rs1 m _ _
  | .ldbAddcRRM _ rs1 m _ _ | .ldbSubRRM _ rs1 m _ _ | .ldbSubbRRM _ rs1 m _ _ | .ldbAndRRM _ rs1 m _ _
  | .ldbOrRRM _ rs1 m _ _ | .ldbXorRRM _ rs1 m _ _ | .uldbAddRRM _ rs1 m _ _ | .uldbAddcRRM _ rs1 m _ _
  | .uldbSubRRM _ rs1 m _ _ | .uldbSubbRRM _ rs1 m _ _ | .uldbAndRRM _ rs1 m _ _ | .uldbOrRRM _ rs1 m _ _
  | .uldbXorRRM _ rs1 m _ _ | .stAddRRM _ rs1 m _ _ _ | .stAddcRRM _ rs1 m _ _ _ | .stSubRRM _ rs1 m _ _ _
  | .stSubbRRM _ rs1 m _ _ _ | .stAndRRM _ rs1 m _ _ _ | .stOrRRM _ rs1 m _ _ _ | .stXorRRM _ rs1 m _ _ _
  | .sthAddRRM _ rs1 m _ _ _ | .sthAddcRRM _ rs1 m _ _ _ | .sthSubRRM _ rs1 m _ _ _ | .sthSubbRRM _ rs1 m _ _ _
  | .sthAndRRM _ rs1 m _ _ _ | .sthOrRRM _ rs1 m _ _ _ | .sthXorRRM _ rs1 m _ _ _ | .stbAddRRM _ rs1 m _ _ _
  | .stbAddcRRM _ rs1 m _ _ _ | .stbSubRRM _ rs1 m _ _ _ | .stbSubbRRM _ rs1 m _ _ _ | .stbAndRRM _ rs1 m _ _ _
  | .stbOrRRM _ rs1 m _ _ _ | .stbXorRRM _ rs1 m _ _ _ | .ldShRRM _ rs1 m _ _ | .ldShaRRM _ rs1 m _ _
  | .stShRRM _ rs1 m _ _ | .stShaRRM _ rs1 m _ _ | .ldhSPLS _ rs1 m _ | .uldhSPLS _ rs1 m _ | .ldbSPLS _ rs1 m _
  | .uldbSPLS _ rs1 m _ | .sthSPLS _ rs1 m _ _ | .stbSPLS _ rs1 m _ _ => m.baseDest rs1
  | .btBR _ _ | .bfBR _ _ | .bhiBR _ _ | .blsBR _ _ | .bccBR _ _ | .bcsBR _ _ | .bneBR _ _ | .beqBR _ _
  | .bvcBR _ _ | .bvsBR _ _ | .bplBR _ _ | .bmiBR _ _ | .bgeBR _ _ | .bltBR _ _ | .bgtBR _ _ | .bleBR _ _
  | .btSBR _ _ | .bfSBR _ _ | .bhiSBR _ _ | .blsSBR _ _ | .bccSBR _ _ | .bcsSBR _ _ | .bneSBR _ _ | .beqSBR _ _
  | .bvcSBR _ _ | .bvsSBR _ _ | .bplSBR _ _ | .bmiSBR _ _ | .bgeSBR _ _ | .bltSBR _ _ | .bgtSBR _ _
  | .bleSBR _ _ => some 2#5
  | .punt | .ldSLS _ _ | .stSLS _ _ | .movSLI _ _ => none

/-- Whether the instruction asks for a flag update (R133 item 2): RI, RR and RRR with `F = 1`. -/
def Instr.updatesFlags : Instr → Bool
  | .addRI _ _ f _ _ | .addcRI _ _ f _ _ | .subRI _ _ f _ _ | .subbRI _ _ f _ _ | .andRI _ _ f _ _
  | .orRI _ _ f _ _ | .xorRI _ _ f _ _ | .shRI _ _ f _ | .shaRI _ _ f _ | .addRR _ _ f _ _ | .addcRR _ _ f _ _
  | .subRR _ _ f _ _ | .subbRR _ _ f _ _ | .andRR _ _ f _ _ | .orRR _ _ f _ _ | .xorRR _ _ f _ _ | .shRR _ _ f _
  | .shaRR _ _ f _ | .putAdd _ _ f _ _ _ | .putAddc _ _ f _ _ _ | .putSub _ _ f _ _ _ | .putSubb _ _ f _ _ _
  | .putAnd _ _ f _ _ _ | .putOr _ _ f _ _ _ | .putXor _ _ f _ _ _ | .putSh _ _ f _ _ _ | .putSha _ _ f _ _ _ => f
  | .ldRM _ _ _ _ | .stRM _ _ _ _ | .ldAddRRM _ _ _ _ _ _ | .ldAddcRRM _ _ _ _ _ _ | .ldSubRRM _ _ _ _ _ _
  | .ldSubbRRM _ _ _ _ _ _ | .ldAndRRM _ _ _ _ _ _ | .ldOrRRM _ _ _ _ _ _ | .ldXorRRM _ _ _ _ _ _
  | .ldhAddRRM _ _ _ _ _ | .ldhAddcRRM _ _ _ _ _ | .ldhSubRRM _ _ _ _ _ | .ldhSubbRRM _ _ _ _ _
  | .ldhAndRRM _ _ _ _ _ | .ldhOrRRM _ _ _ _ _ | .ldhXorRRM _ _ _ _ _ | .uldhAddRRM _ _ _ _ _
  | .uldhAddcRRM _ _ _ _ _ | .uldhSubRRM _ _ _ _ _ | .uldhSubbRRM _ _ _ _ _ | .uldhAndRRM _ _ _ _ _
  | .uldhOrRRM _ _ _ _ _ | .uldhXorRRM _ _ _ _ _ | .ldbAddRRM _ _ _ _ _ | .ldbAddcRRM _ _ _ _ _
  | .ldbSubRRM _ _ _ _ _ | .ldbSubbRRM _ _ _ _ _ | .ldbAndRRM _ _ _ _ _ | .ldbOrRRM _ _ _ _ _
  | .ldbXorRRM _ _ _ _ _ | .uldbAddRRM _ _ _ _ _ | .uldbAddcRRM _ _ _ _ _ | .uldbSubRRM _ _ _ _ _
  | .uldbSubbRRM _ _ _ _ _ | .uldbAndRRM _ _ _ _ _ | .uldbOrRRM _ _ _ _ _ | .uldbXorRRM _ _ _ _ _
  | .stAddRRM _ _ _ _ _ _ | .stAddcRRM _ _ _ _ _ _ | .stSubRRM _ _ _ _ _ _ | .stSubbRRM _ _ _ _ _ _
  | .stAndRRM _ _ _ _ _ _ | .stOrRRM _ _ _ _ _ _ | .stXorRRM _ _ _ _ _ _ | .sthAddRRM _ _ _ _ _ _
  | .sthAddcRRM _ _ _ _ _ _ | .sthSubRRM _ _ _ _ _ _ | .sthSubbRRM _ _ _ _ _ _ | .sthAndRRM _ _ _ _ _ _
  | .sthOrRRM _ _ _ _ _ _ | .sthXorRRM _ _ _ _ _ _ | .stbAddRRM _ _ _ _ _ _ | .stbAddcRRM _ _ _ _ _ _
  | .stbSubRRM _ _ _ _ _ _ | .stbSubbRRM _ _ _ _ _ _ | .stbAndRRM _ _ _ _ _ _ | .stbOrRRM _ _ _ _ _ _
  | .stbXorRRM _ _ _ _ _ _ | .ldShRRM _ _ _ _ _ | .ldShaRRM _ _ _ _ _ | .stShRRM _ _ _ _ _ | .stShaRRM _ _ _ _ _
  | .btBR _ _ | .bfBR _ _ | .bhiBR _ _ | .blsBR _ _ | .bccBR _ _ | .bcsBR _ _ | .bneBR _ _ | .beqBR _ _
  | .bvcBR _ _ | .bvsBR _ _ | .bplBR _ _ | .bmiBR _ _ | .bgeBR _ _ | .bltBR _ _ | .bgtBR _ _ | .bleBR _ _
  | .punt | .ldSLS _ _ | .stSLS _ _ | .movSLI _ _ | .ldhSPLS _ _ _ _ | .uldhSPLS _ _ _ _ | .ldbSPLS _ _ _ _
  | .uldbSPLS _ _ _ _ | .sthSPLS _ _ _ _ _ | .stbSPLS _ _ _ _ _ | .btSBR _ _ | .bfSBR _ _ | .bhiSBR _ _
  | .blsSBR _ _ | .bccSBR _ _ | .bcsSBR _ _ | .bneSBR _ _ | .beqSBR _ _ | .bvcSBR _ _ | .bvsSBR _ _
  | .bplSBR _ _ | .bmiSBR _ _ | .bgeSBR _ _ | .bltSBR _ _ | .bgtSBR _ _ | .bleSBR _ _ => false

/-- Whether the instruction leaves an operation for the Memory stage (R133 item 3): loads, stores and SLI. -/
def Instr.usesMemoryStage : Instr → Bool
  | .ldRM _ _ _ _ | .stRM _ _ _ _ | .ldAddRRM _ _ _ _ _ _ | .ldAddcRRM _ _ _ _ _ _ | .ldSubRRM _ _ _ _ _ _
  | .ldSubbRRM _ _ _ _ _ _ | .ldAndRRM _ _ _ _ _ _ | .ldOrRRM _ _ _ _ _ _ | .ldXorRRM _ _ _ _ _ _
  | .ldhAddRRM _ _ _ _ _ | .ldhAddcRRM _ _ _ _ _ | .ldhSubRRM _ _ _ _ _ | .ldhSubbRRM _ _ _ _ _
  | .ldhAndRRM _ _ _ _ _ | .ldhOrRRM _ _ _ _ _ | .ldhXorRRM _ _ _ _ _ | .uldhAddRRM _ _ _ _ _
  | .uldhAddcRRM _ _ _ _ _ | .uldhSubRRM _ _ _ _ _ | .uldhSubbRRM _ _ _ _ _ | .uldhAndRRM _ _ _ _ _
  | .uldhOrRRM _ _ _ _ _ | .uldhXorRRM _ _ _ _ _ | .ldbAddRRM _ _ _ _ _ | .ldbAddcRRM _ _ _ _ _
  | .ldbSubRRM _ _ _ _ _ | .ldbSubbRRM _ _ _ _ _ | .ldbAndRRM _ _ _ _ _ | .ldbOrRRM _ _ _ _ _
  | .ldbXorRRM _ _ _ _ _ | .uldbAddRRM _ _ _ _ _ | .uldbAddcRRM _ _ _ _ _ | .uldbSubRRM _ _ _ _ _
  | .uldbSubbRRM _ _ _ _ _ | .uldbAndRRM _ _ _ _ _ | .uldbOrRRM _ _ _ _ _ | .uldbXorRRM _ _ _ _ _
  | .stAddRRM _ _ _ _ _ _ | .stAddcRRM _ _ _ _ _ _ | .stSubRRM _ _ _ _ _ _ | .stSubbRRM _ _ _ _ _ _
  | .stAndRRM _ _ _ _ _ _ | .stOrRRM _ _ _ _ _ _ | .stXorRRM _ _ _ _ _ _ | .sthAddRRM _ _ _ _ _ _
  | .sthAddcRRM _ _ _ _ _ _ | .sthSubRRM _ _ _ _ _ _ | .sthSubbRRM _ _ _ _ _ _ | .sthAndRRM _ _ _ _ _ _
  | .sthOrRRM _ _ _ _ _ _ | .sthXorRRM _ _ _ _ _ _ | .stbAddRRM _ _ _ _ _ _ | .stbAddcRRM _ _ _ _ _ _
  | .stbSubRRM _ _ _ _ _ _ | .stbSubbRRM _ _ _ _ _ _ | .stbAndRRM _ _ _ _ _ _ | .stbOrRRM _ _ _ _ _ _
  | .stbXorRRM _ _ _ _ _ _ | .ldShRRM _ _ _ _ _ | .ldShaRRM _ _ _ _ _ | .stShRRM _ _ _ _ _ | .stShaRRM _ _ _ _ _
  | .ldSLS _ _ | .stSLS _ _ | .movSLI _ _ | .ldhSPLS _ _ _ _ | .uldhSPLS _ _ _ _ | .ldbSPLS _ _ _ _
  | .uldbSPLS _ _ _ _ | .sthSPLS _ _ _ _ _ | .stbSPLS _ _ _ _ _ => true
  | .addRI _ _ _ _ _ | .addcRI _ _ _ _ _ | .subRI _ _ _ _ _ | .subbRI _ _ _ _ _ | .andRI _ _ _ _ _
  | .orRI _ _ _ _ _ | .xorRI _ _ _ _ _ | .shRI _ _ _ _ | .shaRI _ _ _ _ | .addRR _ _ _ _ _ | .addcRR _ _ _ _ _
  | .subRR _ _ _ _ _ | .subbRR _ _ _ _ _ | .andRR _ _ _ _ _ | .orRR _ _ _ _ _ | .xorRR _ _ _ _ _ | .shRR _ _ _ _
  | .shaRR _ _ _ _ | .putAdd _ _ _ _ _ _ | .putAddc _ _ _ _ _ _ | .putSub _ _ _ _ _ _ | .putSubb _ _ _ _ _ _
  | .putAnd _ _ _ _ _ _ | .putOr _ _ _ _ _ _ | .putXor _ _ _ _ _ _ | .putSh _ _ _ _ _ _ | .putSha _ _ _ _ _ _
  | .btBR _ _ | .bfBR _ _ | .bhiBR _ _ | .blsBR _ _ | .bccBR _ _ | .bcsBR _ _ | .bneBR _ _ | .beqBR _ _
  | .bvcBR _ _ | .bvsBR _ _ | .bplBR _ _ | .bmiBR _ _ | .bgeBR _ _ | .bltBR _ _ | .bgtBR _ _ | .bleBR _ _
  | .punt | .btSBR _ _ | .bfSBR _ _ | .bhiSBR _ _ | .blsSBR _ _ | .bccSBR _ _ | .bcsSBR _ _ | .bneSBR _ _
  | .beqSBR _ _ | .bvcSBR _ _ | .bvsSBR _ _ | .bplSBR _ _ | .bmiSBR _ _ | .bgeSBR _ _ | .bltSBR _ _
  | .bgtSBR _ _ | .bleSBR _ _ => false

end Sys2Proof

namespace Sys2Proof.Machine

/-! ## When a time step has a next state, and what it did -/

/-- The Fetch stage and the Memory stage of the coming time step have a meaning: the fetched word, the pending access and
a pending load-port write of `isr` are all allowed (R41, R61, R34). -/
abbrev Ready (s : State) : Prop :=
  accessRefusal s.params (s.ctx s.cur).pc .word = none ∧ memStageRefusal s = none ∧
    portRefusal s.params (loadPort s) = none

/-- A compute-port write of register `i` has a meaning: it is not `isr`, or `ISR_WRITE` allows it (R34). -/
abbrev MayWrite (s : State) (i : RegNum) : Prop := i ≠ 31#5 ∨ s.params.isrWrite = .environment

/-- The `Rd` field of RRR, RM, RRM, SLS or SPLS has a meaning: it is neither 2 nor 31, or `RD_RESTRICTION` lets it run
by the general rules (R35). -/
abbrev MayUseRd (s : State) (rd : RegNum) : Prop :=
  (rd ≠ 2#5 ∧ rd ≠ 31#5) ∨ s.params.rdRestriction = .pipeline

/-- The value a time step leaves in the location that register number `i` names, if one of its two ports writes it: the
compute port's before the load port's (R135, R136). -/
def lands (cw lw : Option (RegNum × Word)) (i : RegNum) : Option Word :=
  match cw with
  | some (r, v) => if r = i then some v else (lw.filter (fun p => p.1 == i)).map Prod.snd
  | none => (lw.filter (fun p => p.1 == i)).map Prod.snd

/-- The byte that the pending store of the executing context puts at address `a` (R63, R134): the bytes of the data, most
significant first, from the aligned address on. -/
def pendingStoreByte (s : State) (a : Word) : Option Byte :=
  match (s.ctx s.cur).ms with
  | .store ea n data =>
    let first := (alignTo n ea).toNat
    if first ≤ a.toNat ∧ a.toNat < first + n.bytes then
      some (data.extractLsb' (8 * (n.bytes - 1 - (a.toNat - first))) 8)
    else none
  | _ => none

/-- What one time step did to every location of the state, `s` before and `t` after, when its Compute stage produced the
register write `cw`, the flag update `fl`, the memory-stage operation `ms` and, for PUNT, `punt` (R133 to R137). -/
structure Effect (s t : State) (cw : Option (RegNum × Word)) (fl : Option Flags) (ms : MemOp) (punt : Bool) : Prop where
  /-- `r4` to `r27`, as the context that executed names them. -/
  general : ∀ i : RegNum, 4 ≤ i.toNat → i.toNat ≤ 27 →
    readReg t s.cur i = (lands cw (loadPort s) i).getD (readReg s s.cur i)
  /-- `pc`: incremented unless written (R25, R42). -/
  pc : (t.ctx s.cur).pc = ((lands cw (loadPort s) 2#5).map pcValue).getD ((s.ctx s.cur).pc + 4#32)
  /-- The flags: updated, or written through `ps`, or as they were (R27). -/
  flags : (t.ctx s.cur).flags = fl.getD (((lands cw (loadPort s) 3#5).map flagsOfPs).getD (s.ctx s.cur).flags)
  /-- The alternate flags: as they were unless `aps` is written (R29). -/
  altFlags : (t.ctx s.cur.other).flags =
    ((lands cw (loadPort s) 28#5).map flagsOfPs).getD (s.ctx s.cur.other).flags
  /-- The alternate `pc`: as it was unless `apc` is written (R30). -/
  altPc : (t.ctx s.cur.other).pc = ((lands cw (loadPort s) 29#5).map pcValue).getD (s.ctx s.cur.other).pc
  imr : t.imr = (lands cw (loadPort s) 30#5).getD s.imr
  /-- `IR[cur] <- W`. -/
  ir : (t.ctx s.cur).ir = .word (fetchedWord s)
  /-- `MS[cur] <- ms`. -/
  ms : (t.ctx s.cur).ms = ms
  /-- The alternate context's latches are frozen (R139). -/
  altIr : (t.ctx s.cur.other).ir = (s.ctx s.cur.other).ir
  altMs : (t.ctx s.cur.other).ms = (s.ctx s.cur.other).ms
  /-- Memory: only the pending store of the instruction before changes it, and only its own bytes (R63, R134). -/
  mem : ∀ a : Word, byteAt t.mem a = (pendingStoreByte s a).getD (byteAt s.mem a)
  /-- The environment's input and the count of steps move on; the parameters do not change. -/
  isr : t.isr = isrNext s
  isrInputs : t.isrInputs = s.isrInputs.tail
  tick : t.tick = s.tick + 1
  params : t.params = s.params
  /-- The context switch (R137, R311, R363). -/
  cur : t.cur =
    if punt then s.cur.other else if s.cur = .user ∧ isrValue t &&& t.imr ≠ 0#32 then .system else s.cur

/-- The time step `r` from `s` has a next state, and that step did this. -/
def Completes (s : State) (r : StepResult) (cw : Option (RegNum × Word)) (fl : Option Flags) (ms : MemOp) (punt : Bool) :
    Prop :=
  ∃ t, r = .next t ∧ Effect s t cw fl ms punt

/-- The four addressing modes of a load or store with base `rs1`, the sum `sum` and the Memory-stage operation `op` of
the effective address (R99, R241): the unmasked sum goes to the base under `Q` (R243), at the end of this step. -/
def CompletesInFourModes (s : State) (rs1 : RegNum) (sum : Word) (run : AddrMode → StepResult) (op : Word → MemOp) :
    Prop :=
  Completes s (run .base) none none (op (s.x rs1)) false ∧
  Completes s (run .sum) none none (op sum) false ∧
  (MayWrite s rs1 → Completes s (run .postModify) (some (rs1, sum)) none (op (s.x rs1)) false) ∧
  (MayWrite s rs1 → Completes s (run .preModify) (some (rs1, sum)) none (op sum) false)

/-- The state with nothing pending for the executing context's Memory stage, all else the same. -/
def State.withoutPending (s : State) : State := s.setCtx s.cur { s.ctx s.cur with ms := .idle }

/-- The instruction that the coming time step computes, if it computes one. -/
def State.computes (s : State) (i : Instr) : Prop := ∃ w, (s.ctx s.cur).ir = .word w ∧ decode w = .ok i

/-- One of the two ports of the coming time step names register `r` (R133, R134). -/
def State.names (s : State) (r : RegNum) : Prop :=
  (∃ i, s.computes i ∧ i.computeDest = some r) ∨ ∃ v, loadPort s = some (r, v)

/-- The invariant of the machine: both program counters are word addresses (R25) and memory is in its canonical form. -/
abbrev State.Inv (s : State) : Prop :=
  s.sys.pc.extractLsb' 0 2 = 0#2 ∧ s.usr.pc.extractLsb' 0 2 = 0#2 ∧ s.mem.wf

end Sys2Proof.Machine

/-! ## The spec's arithmetic, written on numbers and apart from the machine's own functions -/

namespace Sys2Proof.Spec

open Sys2Proof.Machine

/-- The sum of two words and a carry, modulo 2^32 (R161). -/
def sum (a b : Word) (carry : Bool) : Word := BitVec.ofNat 32 (a.toNat + b.toNat + carry.toNat)

/-- The flags of a result with a given carry and overflow (R170, R171). -/
def flags (r : Word) (c v : Bool) : Flags := { c := c, v := v, n := decide (2 ^ 31 ≤ r.toNat), z := decide (r.toNat = 0) }

/-- The flags of an addition (R161, R170 to R173): the carry out of bit 31; overflow when the signed sum of the addends and
the carry does not fit. -/
def sumFlags (a b : Word) (carry : Bool) : Flags :=
  flags (sum a b carry) (decide (2 ^ 32 ≤ a.toNat + b.toNat + carry.toNat))
    (decide (a.toInt + b.toInt + carry.toNat < -2 ^ 31 ∨ 2 ^ 31 ≤ a.toInt + b.toInt + carry.toNat))

/-- The amounts for which a shift is defined (R169). -/
def InShiftRange (b : Word) : Prop := -31 ≤ b.toInt ∧ b.toInt ≤ 31

/-- The value of a shift within that range (R169): multiplication or division by a power of two, the division of a
logical right shift unsigned, that of an arithmetic one signed and rounded down. -/
def shifted (a b : Word) (arithmetic : Bool) : Word :=
  if 0 ≤ b.toInt then BitVec.ofNat 32 (a.toNat * 2 ^ b.toInt.toNat)
  else if arithmetic then BitVec.ofInt 32 (a.toInt / 2 ^ (-b.toInt).toNat)
  else BitVec.ofNat 32 (a.toNat / 2 ^ (-b.toInt).toNat)

/-- `C` after a shift within that range (R173): the last bit a left shift discards, else 0. -/
def shiftCarry (a b : Word) : Bool := decide (1 ≤ b.toInt) && decide (a.toNat / 2 ^ (32 - b.toInt.toNat) % 2 = 1)

/-- The flags of a shift within that range (R169 to R173). -/
def shiftFlags (a b : Word) (arithmetic : Bool) : Flags := flags (shifted a b arithmetic) (shiftCarry a b) false

/-- The RI constant placed in one half, the other half zeros (R94). -/
def halfConst (h : Bool) (k : BitVec 16) : Word := BitVec.ofNat 32 (if h then k.toNat * 2 ^ 16 else k.toNat)

/-- The RI `and` constant: the other half all ones (R94). -/
def halfAndConst (h : Bool) (k : BitVec 16) : Word :=
  BitVec.ofNat 32 (if h then k.toNat * 2 ^ 16 + 0xFFFF else 0xFFFF0000 + k.toNat)

/-- The value of an RRR first operation (R211), for a `sha` within its range. -/
def firstOp (op : Op1) (b c : Word) (carry : Bool) : Word :=
  match op with
  | .add => sum b c false
  | .addc => sum b c carry
  | .sub => sum b (~~~c) true
  | .subb => sum b (~~~c) carry
  | .and => b &&& c
  | .or => b ||| c
  | .xor => b ^^^ c
  | .sha => shifted b c true

/-- Whether the condition of code `DDDI` holds of the flags, the logical functions as R103 prints them. -/
def condition (code : Nat) (x : Flags) : Bool :=
  match code with
  | 0 => true
  | 1 => false
  | 2 => x.c && !x.z
  | 3 => !x.c || x.z
  | 4 => !x.c
  | 5 => x.c
  | 6 => !x.z
  | 7 => x.z
  | 8 => !x.v
  | 9 => x.v
  | 10 => !x.n
  | 11 => x.n
  | 12 => (x.n && x.v) || (!x.n && !x.v)
  | 13 => (x.n && !x.v) || (!x.n && x.v)
  | 14 => (x.n && x.v && !x.z) || (!x.n && !x.v && !x.z)
  | _ => x.z || (x.n && !x.v) || (!x.n && x.v)

/-- The sixteen BR instructions (R294 to R309). -/
def brInstrs : List (BitVec 23 → Bool → Instr) :=
  [.btBR, .bfBR, .bhiBR, .blsBR, .bccBR, .bcsBR, .bneBR, .beqBR, .bvcBR, .bvsBR, .bplBR, .bmiBR, .bgeBR, .bltBR,
    .bgtBR, .bleBR]

/-- The sixteen SBR instructions (R352). -/
def sbrInstrs : List (RegNum → RegNum → Instr) :=
  [.btSBR, .bfSBR, .bhiSBR, .blsSBR, .bccSBR, .bcsSBR, .bneSBR, .beqSBR, .bvcSBR, .bvsSBR, .bplSBR, .bmiSBR, .bgeSBR,
    .bltSBR, .bgtSBR, .bleSBR]

/-- The target of a BR (R290, R291, R293): `4 * constant`, absolute and unsigned, or signed and added to `pc`. -/
def branchTarget (s : State) (k : BitVec 23) (r : Bool) : Word :=
  if r then (s.ctx s.cur).pc + BitVec.ofInt 32 (4 * k.toInt) else BitVec.ofNat 32 (4 * k.toNat)

/-- The words the encoding tables give a meaning (R91 to R110), by their bits. -/
def DefinedWord (w : Word) : Prop :=
  let major := (w.extractLsb' 28 4).toNat
  let op := w.extractLsb' 8 3
  let shiftCode := w.getLsbD 7 = true ∧ w.extractLsb' 3 3 = 0#3
  if major = 10 ∨ major = 11 then (if op = 7#3 then shiftCode else w.extractLsb' 1 2 ≠ 3#2)
  else if major = 12 then w.getLsbD 16 = false ∧ w.extractLsb' 0 3 = 0#3 ∧ (op = 7#3 → shiftCode)
  else if major = 13 then op ≠ 7#3 → w.getLsbD 16 = false
  else if major = 15 then
    w.extractLsb' 15 3 ≠ 7#3 ∨ w &&& 0xF183FF06#32 = 0xF003C000#32 ∨ w = 0xF003FF47#32
  else True

end Sys2Proof.Spec
end

