-- ==== Sys2Proof/WellFormed.lean ====
section
/-! DEFINITION. The operand conditions the spec puts on an instruction beyond the widths of its fields: the destination
types `RDEST_LD` and `RDEST_PUT` and the shift constant `SHIFT_CONST` (`30_encoding.md` R114, `10_state.md` R35). An
instruction that breaks one still decodes; what it does is the machine's business (log 14, log 17). -/

namespace Sys2Proof

/-- The `Rd` field of a format whose `Rd` may not be 2 or 31: RRR, RM, RRM, SLS, SPLS, loads and stores alike (R35). -/
def Instr.restrictedRd : Instr → Option RegNum
  | .putAdd rd _ _ _ _ _ | .putAddc rd _ _ _ _ _ | .putSub rd _ _ _ _ _
  | .putSubb rd _ _ _ _ _ | .putAnd rd _ _ _ _ _ | .putOr rd _ _ _ _ _
  | .putXor rd _ _ _ _ _ | .putSh rd _ _ _ _ _ | .putSha rd _ _ _ _ _
  | .ldRM rd _ _ _ | .stRM rd _ _ _ | .ldAddRRM rd _ _ _ _ _
  | .ldAddcRRM rd _ _ _ _ _ | .ldSubRRM rd _ _ _ _ _ | .ldSubbRRM rd _ _ _ _ _
  | .ldAndRRM rd _ _ _ _ _ | .ldOrRRM rd _ _ _ _ _ | .ldXorRRM rd _ _ _ _ _
  | .ldhAddRRM rd _ _ _ _ | .ldhAddcRRM rd _ _ _ _ | .ldhSubRRM rd _ _ _ _
  | .ldhSubbRRM rd _ _ _ _ | .ldhAndRRM rd _ _ _ _ | .ldhOrRRM rd _ _ _ _
  | .ldhXorRRM rd _ _ _ _ | .uldhAddRRM rd _ _ _ _ | .uldhAddcRRM rd _ _ _ _
  | .uldhSubRRM rd _ _ _ _ | .uldhSubbRRM rd _ _ _ _ | .uldhAndRRM rd _ _ _ _
  | .uldhOrRRM rd _ _ _ _ | .uldhXorRRM rd _ _ _ _ | .ldbAddRRM rd _ _ _ _
  | .ldbAddcRRM rd _ _ _ _ | .ldbSubRRM rd _ _ _ _ | .ldbSubbRRM rd _ _ _ _
  | .ldbAndRRM rd _ _ _ _ | .ldbOrRRM rd _ _ _ _ | .ldbXorRRM rd _ _ _ _
  | .uldbAddRRM rd _ _ _ _ | .uldbAddcRRM rd _ _ _ _ | .uldbSubRRM rd _ _ _ _
  | .uldbSubbRRM rd _ _ _ _ | .uldbAndRRM rd _ _ _ _ | .uldbOrRRM rd _ _ _ _
  | .uldbXorRRM rd _ _ _ _ | .stAddRRM rd _ _ _ _ _ | .stAddcRRM rd _ _ _ _ _
  | .stSubRRM rd _ _ _ _ _ | .stSubbRRM rd _ _ _ _ _ | .stAndRRM rd _ _ _ _ _
  | .stOrRRM rd _ _ _ _ _ | .stXorRRM rd _ _ _ _ _ | .sthAddRRM rd _ _ _ _ _
  | .sthAddcRRM rd _ _ _ _ _ | .sthSubRRM rd _ _ _ _ _ | .sthSubbRRM rd _ _ _ _ _
  | .sthAndRRM rd _ _ _ _ _ | .sthOrRRM rd _ _ _ _ _ | .sthXorRRM rd _ _ _ _ _
  | .stbAddRRM rd _ _ _ _ _ | .stbAddcRRM rd _ _ _ _ _ | .stbSubRRM rd _ _ _ _ _
  | .stbSubbRRM rd _ _ _ _ _ | .stbAndRRM rd _ _ _ _ _ | .stbOrRRM rd _ _ _ _ _
  | .stbXorRRM rd _ _ _ _ _ | .ldShRRM rd _ _ _ _ | .ldShaRRM rd _ _ _ _
  | .stShRRM rd _ _ _ _ | .stShaRRM rd _ _ _ _ | .ldSLS rd _
  | .stSLS rd _ | .ldhSPLS rd _ _ _ | .uldhSPLS rd _ _ _
  | .ldbSPLS rd _ _ _ | .uldbSPLS rd _ _ _ | .sthSPLS rd _ _ _ _
  | .stbSPLS rd _ _ _ _ => some rd
  | .addRI _ _ _ _ _ | .addcRI _ _ _ _ _ | .subRI _ _ _ _ _ | .subbRI _ _ _ _ _ | .andRI _ _ _ _ _ | .orRI _ _ _ _ _
  | .xorRI _ _ _ _ _ | .shRI _ _ _ _ | .shaRI _ _ _ _ | .addRR _ _ _ _ _ | .addcRR _ _ _ _ _ | .subRR _ _ _ _ _
  | .subbRR _ _ _ _ _ | .andRR _ _ _ _ _ | .orRR _ _ _ _ _ | .xorRR _ _ _ _ _ | .shRR _ _ _ _ | .shaRR _ _ _ _
  | .btBR _ _ | .bfBR _ _ | .bhiBR _ _ | .blsBR _ _ | .bccBR _ _ | .bcsBR _ _
  | .bneBR _ _ | .beqBR _ _ | .bvcBR _ _ | .bvsBR _ _ | .bplBR _ _ | .bmiBR _ _
  | .bgeBR _ _ | .bltBR _ _ | .bgtBR _ _ | .bleBR _ _ | .punt | .movSLI _ _
  | .btSBR _ _ | .bfSBR _ _ | .bhiSBR _ _ | .blsSBR _ _ | .bccSBR _ _ | .bcsSBR _ _
  | .bneSBR _ _ | .beqSBR _ _ | .bvcSBR _ _ | .bvsSBR _ _ | .bplSBR _ _ | .bmiSBR _ _
  | .bgeSBR _ _ | .bltSBR _ _ | .bgtSBR _ _ | .bleSBR _ _ => none

/-- The constant of an immediate shift (R93, R114). -/
def Instr.shiftConst : Instr → Option (BitVec 16)
  | .shRI _ _ _ k | .shaRI _ _ _ k => some k
  | .addRI _ _ _ _ _ | .addcRI _ _ _ _ _ | .subRI _ _ _ _ _ | .subbRI _ _ _ _ _ | .andRI _ _ _ _ _ | .orRI _ _ _ _ _
  | .xorRI _ _ _ _ _ | .addRR _ _ _ _ _ | .addcRR _ _ _ _ _ | .subRR _ _ _ _ _ | .subbRR _ _ _ _ _ | .andRR _ _ _ _ _
  | .orRR _ _ _ _ _ | .xorRR _ _ _ _ _ | .shRR _ _ _ _ | .shaRR _ _ _ _ | .putAdd _ _ _ _ _ _ | .putAddc _ _ _ _ _ _
  | .putSub _ _ _ _ _ _ | .putSubb _ _ _ _ _ _ | .putAnd _ _ _ _ _ _ | .putOr _ _ _ _ _ _ | .putXor _ _ _ _ _ _ | .putSh _ _ _ _ _ _
  | .putSha _ _ _ _ _ _ | .ldRM _ _ _ _ | .stRM _ _ _ _ | .ldAddRRM _ _ _ _ _ _ | .ldAddcRRM _ _ _ _ _ _ | .ldSubRRM _ _ _ _ _ _
  | .ldSubbRRM _ _ _ _ _ _ | .ldAndRRM _ _ _ _ _ _ | .ldOrRRM _ _ _ _ _ _ | .ldXorRRM _ _ _ _ _ _ | .ldhAddRRM _ _ _ _ _ | .ldhAddcRRM _ _ _ _ _
  | .ldhSubRRM _ _ _ _ _ | .ldhSubbRRM _ _ _ _ _ | .ldhAndRRM _ _ _ _ _ | .ldhOrRRM _ _ _ _ _ | .ldhXorRRM _ _ _ _ _ | .uldhAddRRM _ _ _ _ _
  | .uldhAddcRRM _ _ _ _ _ | .uldhSubRRM _ _ _ _ _ | .uldhSubbRRM _ _ _ _ _ | .uldhAndRRM _ _ _ _ _ | .uldhOrRRM _ _ _ _ _ | .uldhXorRRM _ _ _ _ _
  | .ldbAddRRM _ _ _ _ _ | .ldbAddcRRM _ _ _ _ _ | .ldbSubRRM _ _ _ _ _ | .ldbSubbRRM _ _ _ _ _ | .ldbAndRRM _ _ _ _ _ | .ldbOrRRM _ _ _ _ _
  | .ldbXorRRM _ _ _ _ _ | .uldbAddRRM _ _ _ _ _ | .uldbAddcRRM _ _ _ _ _ | .uldbSubRRM _ _ _ _ _ | .uldbSubbRRM _ _ _ _ _ | .uldbAndRRM _ _ _ _ _
  | .uldbOrRRM _ _ _ _ _ | .uldbXorRRM _ _ _ _ _ | .stAddRRM _ _ _ _ _ _ | .stAddcRRM _ _ _ _ _ _ | .stSubRRM _ _ _ _ _ _ | .stSubbRRM _ _ _ _ _ _
  | .stAndRRM _ _ _ _ _ _ | .stOrRRM _ _ _ _ _ _ | .stXorRRM _ _ _ _ _ _ | .sthAddRRM _ _ _ _ _ _ | .sthAddcRRM _ _ _ _ _ _ | .sthSubRRM _ _ _ _ _ _
  | .sthSubbRRM _ _ _ _ _ _ | .sthAndRRM _ _ _ _ _ _ | .sthOrRRM _ _ _ _ _ _ | .sthXorRRM _ _ _ _ _ _ | .stbAddRRM _ _ _ _ _ _ | .stbAddcRRM _ _ _ _ _ _
  | .stbSubRRM _ _ _ _ _ _ | .stbSubbRRM _ _ _ _ _ _ | .stbAndRRM _ _ _ _ _ _ | .stbOrRRM _ _ _ _ _ _ | .stbXorRRM _ _ _ _ _ _ | .ldShRRM _ _ _ _ _
  | .ldShaRRM _ _ _ _ _ | .stShRRM _ _ _ _ _ | .stShaRRM _ _ _ _ _ | .btBR _ _ | .bfBR _ _ | .bhiBR _ _
  | .blsBR _ _ | .bccBR _ _ | .bcsBR _ _ | .bneBR _ _ | .beqBR _ _ | .bvcBR _ _
  | .bvsBR _ _ | .bplBR _ _ | .bmiBR _ _ | .bgeBR _ _ | .bltBR _ _ | .bgtBR _ _
  | .bleBR _ _ | .punt | .ldSLS _ _ | .stSLS _ _ | .movSLI _ _ | .ldhSPLS _ _ _ _
  | .uldhSPLS _ _ _ _ | .ldbSPLS _ _ _ _ | .uldbSPLS _ _ _ _ | .sthSPLS _ _ _ _ _ | .stbSPLS _ _ _ _ _ | .btSBR _ _
  | .bfSBR _ _ | .bhiSBR _ _ | .blsSBR _ _ | .bccSBR _ _ | .bcsSBR _ _ | .bneSBR _ _
  | .beqSBR _ _ | .bvcSBR _ _ | .bvsSBR _ _ | .bplSBR _ _ | .bmiSBR _ _ | .bgeSBR _ _
  | .bltSBR _ _ | .bgtSBR _ _ | .bleSBR _ _ => none

/-- "`Rd` may not be 2 (`pc`) or 31 (`isr`)" (R35). -/
def Instr.destAllowed (i : Instr) : Bool :=
  match i.restrictedRd with
  | some rd => rd != 2#5 && rd != 31#5
  | none => true

/-- "A 6 bit signed constant in the range [-31,31]" (R114). -/
def Instr.shiftConstInRange (i : Instr) : Bool :=
  match i.shiftConst with
  | some k => decide (-31 ≤ k.toInt ∧ k.toInt ≤ 31)
  | none => true

/-- The instruction meets every operand condition of the spec. -/
def Instr.wellFormed (i : Instr) : Bool :=
  i.destAllowed && i.shiftConstInRange

end Sys2Proof
end

