-- ==== Sys2Proof/Certificates/Slice0/Obligations.lean ====
section
/-! DEFINITION. The statements for the provers. `Effect s t cw fl ms punt` (Safety) is the whole frame of a time step: what
becomes of every register, flag, byte and latch, when the instruction in the Compute stage produces the register write
`cw`, the flag update `fl` and the Memory-stage operation `ms`. Where a title says "the model's choice", the log entry it
names (notes/assumptions) is what the clause rests on, not a rule of the spec. -/

open Sys2Proof Sys2Proof.Machine

/-! ## Encoding -/

/-- The bytes of an instruction's word, as memory holds them (R62, R65), decode to the instruction, with every operand and
every ignored bit, and leave the bytes behind it. -/
def Obligations.DecodeOfEncode : Prop :=
  ∀ (i : Instr) (rest : List Byte), decodeBytes (bytesOfWord (encode i) ++ rest) = .ok (i, rest)

/-- A word that decodes is the word of the instruction it decodes to: no bit of it is lost. -/
def Obligations.EncodeOfDecode : Prop :=
  ∀ (w : Word) (i : Instr), decode w = .ok i → encode i = w

/-- The words with an instruction are the words that the encoding tables give a meaning, no more and no fewer. Which words
those are rests on the spec's decisions D1 and D2 (log 27: reserved bits and unassigned codes), D19 (log 28: `E` and `YLE`
are ignored where they have no role) and conflict C8 (log 32: bits 7:3 of SBR are `Rs3`). -/
def Obligations.DecodableWordsAreTheDefinedOnes : Prop :=
  ∀ w : Word, (∃ i, decode w = .ok i) ↔ Spec.DefinedWord w

/-- Words that the spec prints decode to the instructions it prints beside them, one or more of each format. -/
def Obligations.PrintedWordsDecode : Prop :=
  decode 0x03140010#32 = .ok (.addRI 6#5 5#5 false false 0x10#16) ∧
  decode 0x7316FFFC#32 = .ok (.shRI 6#5 5#5 true 0xFFFC#16) ∧
  decode 0xC41C4800#32 = .ok (.addRR 8#5 7#5 false 9#5 0#5) ∧
  decode 0xC41E4FC0#32 = .ok (.shaRR 8#5 7#5 true 9#5) ∧
  decode 0xD4143038#32 = .ok (.putAdd 8#5 5#5 false 6#5 7#5 .add) ∧
  decode 0x83A2000C#32 = .ok (.ldRM 7#5 8#5 .sum 0xC#16) ∧
  decode 0x9393FFFC#32 = .ok (.stRM 7#5 4#5 .preModify 0xFFFC#16) ∧
  decode 0xA3A24805#32 = .ok (.uldbAddRRM 7#5 8#5 .sum 9#5 0#5) ∧
  decode 0xB3A24800#32 = .ok (.sthAddRRM 7#5 8#5 .sum 9#5 0#5 false) ∧
  decode 0xA3A34FC0#32 = .ok (.ldShaRRM 7#5 8#5 .preModify 9#5 0#3) ∧
  decode 0xE1FFFFFA#32 = .ok (.btBR 0x7FFFFE#23 true) ∧
  decode 0xEE000131#32 = .ok (.bleBR 76#23 false) ∧
  decode 0xF003FF47#32 = .ok .punt ∧
  decode 0xF3842344#32 = .ok (.ldSLS 7#5 0x12344#21) ∧
  decode 0xF3FEFFFF#32 = .ok (.movSLI 7#5 0x1FFFFF#21) ∧
  decode 0xF3A35DFF#32 = .ok (.uldbSPLS 7#5 8#5 .preModify 511#10) ∧
  decode 0xF61FC049#32 = .ok (.beqSBR 7#5 9#5)

/-! ## The time step -/

/-- A time step whose instruction latch holds the word of an instruction is that instruction's time step, and nothing
around it. -/
def Obligations.StepExecutesLatchedInstruction : Prop :=
  ∀ (s : State) (w : Word) (i : Instr), (s.ctx s.cur).ir = .word w → decode w = .ok i → step s = exec i s

/-- The word whose bytes stand at `pc` when a time step begins is the instruction of the context's next time step (R131,
R137), where this step stores nothing into that word. -/
def Obligations.FetchedBytesRunInTheNextStep : Prop :=
  ∀ (s t : State) (i : Instr), s.Inv → step s = .next t → t.cur = s.cur → storeMeetsFetch s = false →
    let pc := (s.ctx s.cur).pc
    decodeBytes [byteAt s.mem pc, byteAt s.mem (pc + 1#32), byteAt s.mem (pc + 2#32), byteAt s.mem (pc + 3#32)] =
      .ok (i, []) →
    step t = exec i t

/-- A time step with an empty instruction latch has a next state: it fetches, performs the pending memory operation and
increments `pc`, and computes nothing (R39, R133). -/
def Obligations.BubbleComputesNothing : Prop :=
  ∀ s : State, (s.ctx s.cur).ir = .bubble → Ready s → Completes s (step s) none none .idle false

/-- A latched word that the encoding tables give no meaning stops the step (R110 items 1 to 4). That it stops is the
spec's decisions D1 and D2 (log 27). -/
def Obligations.UndefinedWordIsRefused : Prop :=
  ∀ (s : State) (w : Word), (s.ctx s.cur).ir = .word w → ¬ Spec.DefinedWord w →
    step s = .refused .reservedBit ∨ step s = .refused .reservedOperation ∨ step s = .refused .noAccessWidth ∨
      step s = .refused .unassignedSpecial

/-- The all-zero word is `add r0, 0, r0` and does nothing but what every time step does: the result is discarded, no flag
changes, `pc` is incremented (R177). -/
def Obligations.AllZeroWordIsANoOp : Prop :=
  decode 0#32 = .ok (.addRI 0#5 0#5 false false 0#16) ∧
  ∀ s : State, Ready s → Completes s (exec (.addRI 0#5 0#5 false false 0#16) s) none none .idle false

/-- A time step has a next state only when the fetch and the Memory stage's access lie in implemented memory and touch no
state register, and no write of `isr` that `ISR_WRITE` refuses is pending or made. The refusals are the spec's decisions
D10, D14 and D15 (log 9, 10, 13). -/
def Obligations.NextStateOnlyWhenReady : Prop :=
  ∀ (s t : State) (i : Instr) (w : Word), (s.ctx s.cur).ir = .word w → decode w = .ok i → step s = .next t →
    Ready s ∧ (s.params.isrWrite = .refuse → i.computeDest ≠ some 31#5 ∧ ∀ v, loadPort s ≠ some (31#5, v))

/-- An access is allowed exactly when each of its bytes is in implemented memory and none is a memory-mapped state
register. The two parameters are the spec's decisions D14 and D15 (log 9, 10). -/
def Obligations.AccessAllowedIffImplemented : Prop :=
  ∀ (p : Params) (ea : Word) (n : Width), accessRefusal p ea n = none ↔
    ∀ b < n.bytes,
      (∃ r ∈ p.memImplemented, r.base ≤ ea.toNat - ea.toNat % n.bytes + b ∧
        ea.toNat - ea.toNat % n.bytes + b < r.base + r.size) ∧
      ∀ r ∈ p.stateRegAddrs, ¬ (r.base ≤ ea.toNat - ea.toNat % n.bytes + b ∧
        ea.toNat - ea.toNat % n.bytes + b < r.base + r.size)

/-- Whatever the instruction, a time step changes a location only if the instruction names it as its destination, asks for
a flag update, or the Memory stage's load port writes it: the general registers, `imr`, the flags and `pc` of both
contexts. Only loads, stores and SLI leave work for the Memory stage. (Memory is `MemoryChangesOnlyByThePendingStore`'s.) -/
def Obligations.EveryInstructionChangesOnlyWhatItNames : Prop :=
  ∀ (s t : State) (i : Instr) (w : Word), (s.ctx s.cur).ir = .word w → decode w = .ok i → step s = .next t →
    let written := fun r : RegNum => i.computeDest = some r ∨ ∃ v, loadPort s = some (r, v)
    (∀ r : RegNum, 4 ≤ r.toNat → r.toNat ≤ 27 → ¬ written r → readReg t s.cur r = readReg s s.cur r) ∧
    (¬ written 30#5 → t.imr = s.imr) ∧
    (¬ written 3#5 → i.updatesFlags = false → (t.ctx s.cur).flags = (s.ctx s.cur).flags) ∧
    (¬ written 28#5 → (t.ctx s.cur.other).flags = (s.ctx s.cur.other).flags) ∧
    (¬ written 2#5 → (t.ctx s.cur).pc = (s.ctx s.cur).pc + 4#32) ∧
    (¬ written 29#5 → (t.ctx s.cur.other).pc = (s.ctx s.cur.other).pc) ∧
    (i.usesMemoryStage = false → (t.ctx s.cur).ms = .idle)

/-! ## Reset -/

/-- After reset the system context begins executing at address 0 (R44): its first time step has a next state, still in the
system context, whose `pc` is 4 and whose instruction latch holds the word that memory has at address 0. That this step
computes a bubble and fetches is derived (log 1); that it has a next state rests on all addresses being memory at reset
(the model's choice, log 9). -/
def Obligations.ResetBeginsAtAddressZero : Prop :=
  State.reset.cur = .system ∧ State.reset.sys.pc = 0#32 ∧
  ∃ t, step State.reset = .next t ∧ t.cur = .system ∧ t.sys.pc = 4#32 ∧
    t.sys.ir = .word (memRead State.reset.mem 0#32 .word)

/-- THE MODEL'S CHOICES, but for the latches of the system context, which the spec derives: what the state after reset
holds where the source gives no value. The general registers, the flags, the user `pc`, `imr` and the driven bits of
`isr` are 0 (log 2 to 6), the user latches are empty (decision D11, log 7), no byte has been written (log 8) and the
parameters have the spec's defaults over the whole address space (log 9 to 15). With other parameters the state is the
same, but that the user latches are empty only where `RESET_LATCHES_USER` is `bubble` (log 7). -/
def Obligations.ResetHoldsTheChosenValues : Prop :=
  State.reset.sys.ir = .bubble ∧ State.reset.sys.ms = .idle ∧ State.reset.usr.ir = .bubble ∧
  State.reset.usr.ms = .idle ∧ State.reset.usr.pc = 0#32 ∧ State.reset.sys.flags = ⟨false, false, false, false⟩ ∧
  State.reset.usr.flags = ⟨false, false, false, false⟩ ∧ State.reset.imr = 0#32 ∧ State.reset.isr = 0#32 ∧
  State.reset.mem = [] ∧ State.reset.params.rdRestriction = .refuse ∧
  State.reset.params.rrrLogicC = .unchanged ∧ State.reset.params.isrWrite = .refuse ∧
  State.reset.params.stateRegAddrs = [] ∧ State.reset.params.memImplemented = [⟨0, 2 ^ 32⟩] ∧
  (∀ (c : Context) (i : RegNum), 4 ≤ i.toNat → i.toNat ≤ 27 → readReg State.reset c i = 0#32) ∧
  State.reset.params.resetLatchesUser = .bubble ∧
  ∀ p : Params, let r := State.resetWith p
    { r with params := State.reset.params, usr := State.reset.usr } = State.reset ∧ r.params = p ∧
    r.usr.pc = 0#32 ∧ r.usr.flags = ⟨false, false, false, false⟩ ∧
    (p.resetLatchesUser = .bubble → r.usr.ir = .bubble ∧ r.usr.ms = .idle)

/-- The invariant holds after reset: both program counters are word addresses and memory is in canonical form. -/
def Obligations.InvariantAtReset : Prop := State.reset.Inv

/-- Every time step keeps the invariant, from every state that has it: bits 1:0 of both program counters stay 0 (R25) and
memory stays in canonical form. -/
def Obligations.InvariantKeptByStep : Prop :=
  ∀ s t : State, s.Inv → step s = .next t → t.Inv

/-! ## Contexts and the interrupt -/

/-- The executing context changes only by PUNT, which toggles it, or from user to system by the interrupt; the system
context is not interruptible (R38). A user step at whose end the request `(ISR & IMR) != 0` stands is followed by the
system context; that the request is over all bits and sampled after the writes of the step is decisions D10 and D9
(log 24, 37). -/
def Obligations.ContextChangesOnlyByPuntOrInterrupt : Prop :=
  ∀ s t : State, step s = .next t →
    ((s.ctx s.cur).ir = .word 0xF003FF47#32 → t.cur = s.cur.other) ∧
    ((s.ctx s.cur).ir ≠ .word 0xF003FF47#32 → s.cur = .system → t.cur = .system) ∧
    ((s.ctx s.cur).ir ≠ .word 0xF003FF47#32 → s.cur = .user →
      (t.cur = .system ↔ isrValue t &&& t.imr ≠ 0#32))

/-- Taking the interrupt moves execution to the system context and changes nothing else; nothing is saved or copied
(R363, R365). That the request is `(ISR & IMR) != 0` over all bits is decision D10 (log 37). -/
def Obligations.TakingTheInterruptChangesOnlyCur : Prop :=
  ∀ u : State,
    (u.cur = .user → isrValue u &&& u.imr ≠ 0#32 → switchContext false u = { u with cur := .system }) ∧
    (u.cur = .system ∨ isrValue u &&& u.imr = 0#32 → switchContext false u = u) ∧
    switchContext true u = { u with cur := u.cur.other }

/-- The alternate context is frozen (R139): every time step, that of a bubble too, leaves its two latches, whatever is
written; it leaves its `pc` unless a port of the step names `apc`, and its flags unless a port names `aps` (R30, R404). -/
def Obligations.AlternateContextIsFrozen : Prop :=
  ∀ s t : State, step s = .next t →
    (t.ctx s.cur.other).ir = (s.ctx s.cur.other).ir ∧ (t.ctx s.cur.other).ms = (s.ctx s.cur.other).ms ∧
    (¬ s.names 29#5 → (t.ctx s.cur.other).pc = (s.ctx s.cur.other).pc) ∧
    (¬ s.names 28#5 → (t.ctx s.cur.other).flags = (s.ctx s.cur.other).flags)

/-- The debugger's single step (R375): with the mask bit of `dbg_bit` set and left set, a system `punt` is followed by
exactly one time step of the user context and then by the system context, with its pipeline as the `punt` left it but for
what the user wrote through `aps` and `apc`. That the request is sampled at the end of the user's step is decision D9
(log 24). -/
def Obligations.SingleStepDebugging : Prop :=
  ∀ s t u : State, s.cur = .system → (s.ctx s.cur).ir = .word 0xF003FF47#32 → step s = .next t → step t = .next u →
    u.imr.getLsbD u.params.dbgBit.val = true → t.usr.ir ≠ .word 0xF003FF47#32 →
    t.cur = .user ∧ u.cur = .system ∧ u.sys.ir = t.sys.ir ∧ u.sys.ms = .idle ∧ u.usr.ir = .word (fetchedWord t)

/-! ## Registers -/

/-- What each register number reads, by the executing context (R33). That bits 31:5 of `ps` and `aps` read 0 is decision
D13 (log 26). -/
def Obligations.RegisterReads : Prop :=
  ∀ s : State,
    let ps := fun (u : Bool) (x : Flags) =>
      BitVec.ofNat 32 (16 * u.toNat + 8 * x.c.toNat + 4 * x.v.toNat + 2 * x.n.toNat + x.z.toNat)
    let one := decide (s.cur = .user)
    s.x 0#5 = 0#32 ∧ s.x 1#5 = 0xFFFFFFFF#32 ∧ s.x 2#5 = (s.ctx s.cur).pc ∧ s.x 3#5 = ps one (s.ctx s.cur).flags ∧
    (∀ i : Fin 24, (s.cur = .system → s.x (BitVec.ofNat 5 (i.val + 4)) = s.gpr[i]) ∧
      (s.cur = .user → s.x (BitVec.ofNat 5 (27 - i.val)) = s.gpr[i])) ∧
    s.x 28#5 = ps (!one) (s.ctx s.cur.other).flags ∧ s.x 29#5 = (s.ctx s.cur.other).pc ∧ s.x 30#5 = s.imr ∧
    (s.x 31#5).getLsbD s.params.dbgBit.val = true ∧
    ∀ j < 32, j ≠ s.params.dbgBit.val → (s.x 31#5).getLsbD j = s.isr.getLsbD j

/-- A register read after a register write (R34): what was written, in the writable bits of that register, and every other
register number as before. `r0` and `r1` discard it; `pc` and `apc` drop bits 1:0; `ps` and `aps` take bits 3:0; `isr`
does not change in the core (log 13). -/
def Obligations.RegisterReadAfterWrite : Prop :=
  ∀ (s : State) (c : Context) (i j : RegNum) (v : Word),
    let flags := v.toNat % 16
    readReg (writeReg s c i v) c j =
      if i ≠ j ∨ i = 0#5 ∨ i = 1#5 ∨ i = 31#5 then readReg s c j
      else if i = 2#5 ∨ i = 29#5 then BitVec.ofNat 32 (v.toNat / 4 * 4)
      else if i = 3#5 then BitVec.ofNat 32 (flags + if c = .user then 16 else 0)
      else if i = 28#5 then BitVec.ofNat 32 (flags + if c = .user then 0 else 16)
      else v

/-- The two contexts name the 24 general registers in opposite orders: `r(i)` of one is `r(31 - i)` of the other, read and
written (R28). -/
def Obligations.GeneralRegistersAreReversed : Prop :=
  ∀ (s : State) (c : Context) (i : RegNum) (v : Word), 4 ≤ i.toNat → i.toNat ≤ 27 →
    readReg s c.other (31#5 - i) = readReg s c i ∧ readReg (writeReg s c i v) c.other (31#5 - i) = v

/-- Where the load and the computation of one time step have the same destination register, the computed value is written
and the loaded value is discarded: the writes of the step are those of the computation alone, and the register then holds
what a write of the computed value leaves in it (R135), but for the flags in `ps` where the step also updates those. -/
def Obligations.ComputedValueDiscardsLoadedValue : Prop :=
  ∀ (s : State) (r : RegNum) (loaded computed : Word) (fl : Option Flags),
    commit s (some (r, loaded)) (some (r, computed)) fl = commit s none (some (r, computed)) fl ∧
    (fl = none ∨ r ≠ 3#5 →
      readReg (commit s (some (r, loaded)) (some (r, computed)) fl) s.cur r =
        readReg (writeReg s s.cur r computed) s.cur r)

/-- The register updates at the end of a time step, as if in the order of R136: the `pc` is incremented by 4; the loaded
value is written; the other destination register is updated; the flags in `ps` are updated, if specified. A later one
overrides an earlier one of the same location, of both contexts. -/
def Obligations.EndOfStepOrder : Prop :=
  ∀ (s : State) (lw cw : Option (RegNum × Word)) (fl : Option Flags),
    let t := commit s lw cw fl
    let last := fun r : RegNum =>
      match cw, lw with
      | some (i, v), some (j, u) => if i = r then some v else if j = r then some u else none
      | some (i, v), none => if i = r then some v else none
      | none, some (j, u) => if j = r then some u else none
      | none, none => none
    (∀ r : RegNum, 4 ≤ r.toNat → r.toNat ≤ 27 → readReg t s.cur r = (last r).getD (readReg s s.cur r)) ∧
    (t.ctx s.cur).pc = ((last 2#5).map (· &&& 0xFFFFFFFC#32)).getD ((s.ctx s.cur).pc + 4#32) ∧
    (t.ctx s.cur).flags = fl.getD (((last 3#5).map flagsOfPs).getD (s.ctx s.cur).flags) ∧
    (t.ctx s.cur.other).flags = ((last 28#5).map flagsOfPs).getD (s.ctx s.cur.other).flags ∧
    (t.ctx s.cur.other).pc = ((last 29#5).map (· &&& 0xFFFFFFFC#32)).getD (s.ctx s.cur.other).pc ∧
    t.imr = (last 30#5).getD s.imr

/-! ## Memory -/

/-- `MemRead` (R62, R64): the bytes at the aligned address and after it, the one at the lowest address the most
significant, the low bits of the address ignored. That this is what big-endian means is general knowledge, which the spec
marks so (log 29). -/
def Obligations.MemoryReadsBigEndian : Prop :=
  ∀ (m : Memory) (ea : Word),
    let byte := fun a : Nat => (byteAt m (BitVec.ofNat 32 a)).toNat
    let h := ea.toNat / 2 * 2
    let w := ea.toNat / 4 * 4
    (memRead m ea .byte).toNat = byte ea.toNat ∧
    (memRead m ea .half).toNat = 256 * byte h + byte (h + 1) ∧
    (memRead m ea .word).toNat = 256 * (256 * (256 * byte w + byte (w + 1)) + byte (w + 2)) + byte (w + 3)

/-- `MemWrite` (R63, R64): the low bytes of the value, the most significant at the lowest address, go to the bytes of the
aligned unit, and every other byte of memory reads as before. -/
def Obligations.MemoryWriteChangesOnlyItsBytes : Prop :=
  ∀ (m : Memory) (ea : Word) (n : Width) (v a : Word),
    let first := ea.toNat / n.bytes * n.bytes
    (byteAt (memWrite m ea n v) a).toNat =
      if first ≤ a.toNat ∧ a.toNat < first + n.bytes
      then v.toNat / 256 ^ (n.bytes - 1 - (a.toNat - first)) % 256
      else (byteAt m a).toNat

/-- The mixed-width view of a stored word (R66): its half-words and bytes, at aligned and at misaligned addresses. Which
half and which byte a narrower read gives rests on what big-endian means (log 29). -/
def Obligations.MixedWidthView : Prop :=
  ∀ (m : Memory) (a : Word), a.toNat % 4 = 0 →
    let m' := memWrite m a .word 0x11223344#32
    memRead m' a .half = 0x1122#32 ∧ memRead m' (a + 2#32) .half = 0x3344#32 ∧
    memRead m' a .byte = 0x11#32 ∧ memRead m' (a + 1#32) .byte = 0x22#32 ∧ memRead m' (a + 2#32) .byte = 0x33#32 ∧
    memRead m' (a + 3#32) .byte = 0x44#32 ∧ memRead m' (a + 1#32) .half = 0x1122#32 ∧
    memRead m' (a + 3#32) .word = 0x11223344#32

/-- The load port (R134): nothing, the loaded value sign- or zero-extended from its width, or the constant of SLI. That SLI
writes through this port, one step late, is decision D8 (log 23). -/
def Obligations.MemoryStageWritesTheLoadPort : Prop :=
  ∀ (s : State) (ea v : Word) (n : Width) (ext : Extension) (rd : RegNum),
    let ms := (s.ctx s.cur).ms
    let x := (memRead s.mem ea n).toNat
    let top := 2 ^ (8 * n.bytes - 1)
    (ms = .idle → loadPort s = none) ∧ (ms = .store ea n v → loadPort s = none) ∧
    (ms = .imm v rd → loadPort s = some (rd, v)) ∧
    (ms = .load ea n ext rd →
      loadPort s = some (rd, if ext = .sign then BitVec.ofInt 32 (if x < top then x else x - 2 * top)
        else BitVec.ofNat 32 x))

/-- Memory changes in a time step only by the store that the context's step before left in its memory-stage latch, at the
bytes of that store's aligned address, whatever the step computes. That no other agent writes memory is decision D18
(log 30), and which byte goes to which address rests on what big-endian means (log 29). -/
def Obligations.MemoryChangesOnlyByThePendingStore : Prop :=
  ∀ s t : State, step s = .next t → ∀ a : Word,
    (∀ ea n data, (s.ctx s.cur).ms = .store ea n data →
      let first := ea.toNat / n.bytes * n.bytes
      byteAt t.mem a =
        if first ≤ a.toNat ∧ a.toNat < first + n.bytes
        then data.extractLsb' (8 * (n.bytes - 1 - (a.toNat - first))) 8
        else byteAt s.mem a) ∧
    ((∀ ea n data, (s.ctx s.cur).ms ≠ .store ea n data) → byteAt t.mem a = byteAt s.mem a)

/-- The fetch and the store of one time step (R71): the fetched word is the old or the new content of the word at `pc`,
whole; the two are the same where the step stores nothing into that word. Which of the two is a free value (decision D16,
log 16), and the statement holds for either. -/
def Obligations.FetchedWordIsOldOrNew : Prop :=
  ∀ s : State,
    let old := memRead s.mem (s.ctx s.cur).pc .word
    let new := memRead (memAfter s) (s.ctx s.cur).pc .word
    (fetchedWord s = old ∨ fetchedWord s = new) ∧ (storeMeetsFetch s = false → fetchedWord s = old ∧ new = old)

/-- A load right behind a store of the same word, half-word or byte loads what was stored, whatever the formats of the two:
data accesses happen in the order in which their instructions were computed (R70). The time step from `s` performs the
store and computes the load; the load port of `t` has the stored bits, extended as the load says. -/
def Obligations.LoadRightAfterStoreReadsTheStoredWord : Prop :=
  ∀ (s t : State) (ea ea' data : Word) (n : Width) (ext : Extension) (rd : RegNum),
    (s.ctx s.cur).ms = .store ea n data → step s = .next t → t.cur = s.cur →
    (t.ctx t.cur).ms = .load ea' n ext rd → ea'.toNat / n.bytes = ea.toNat / n.bytes →
    let top := 2 ^ (8 * n.bytes - 1)
    let x := data.toNat % (2 * top)
    loadPort t = some (rd, if ext = .sign then BitVec.ofInt 32 (if x < top then x else x - 2 * top)
      else BitVec.ofNat 32 x)

/-! ## RI -/

/-- RI `add`, `addc`, `sub`, `subb` have a next state: `Rd` receives the sum of `Rs1`, the constant (inverted for the
subtractions) and the carry-in, modulo 2^32, and with `F = 1` the flags are those of that addition (R161 to R165, R170 to
R173). Overflow of a subtraction looks at `a` and `~b` by decision D4 (log 21). -/
def Obligations.RIArithmetic : Prop :=
  ∀ p ∈ ([(Instr.addRI, fun k _ => (k, false)), (Instr.addcRI, fun k c => (k, c)),
      (Instr.subRI, fun k _ => (~~~k, true)), (Instr.subbRI, fun k c => (~~~k, c))] :
      List ((RegNum → RegNum → Bool → Bool → BitVec 16 → Instr) × (Word → Bool → Word × Bool))),
    ∀ (s : State) (rd rs1 : RegNum) (f h : Bool) (k : BitVec 16), Ready s → MayWrite s rd →
      let (b, carry) := p.2 (Spec.halfConst h k) s.flags.c
      Completes s (exec (p.1 rd rs1 f h k) s) (some (rd, Spec.sum (s.x rs1) b carry))
        (if f then some (Spec.sumFlags (s.x rs1) b carry) else none) .idle false

/-- RI `and`, `or`, `xor` have a next state: the bitwise result in `Rd`; with `F = 1`, `Z` and `N` from the result, `V` and
`C` cleared. The constant's other half is all ones for `and`, zeros for `or` and `xor` (R94, R166 to R168). `AAA` is 100,
101, 110. -/
def Obligations.RILogic : Prop :=
  ∀ (s : State) (rd rs1 : RegNum) (f h : Bool) (k : BitVec 16), Ready s → MayWrite s rd →
    ((encode (.andRI rd rs1 f h k)).extractLsb' 28 4 = 0b0100#4 ∧ (encode (.orRI rd rs1 f h k)).extractLsb' 28 4 = 0b0101#4 ∧
      (encode (.xorRI rd rs1 f h k)).extractLsb' 28 4 = 0b0110#4) ∧
    (let r := s.x rs1 &&& Spec.halfAndConst h k
     Completes s (exec (.andRI rd rs1 f h k) s) (some (rd, r)) (if f then some (Spec.flags r false false) else none)
      .idle false) ∧
    (let r := s.x rs1 ||| Spec.halfConst h k
     Completes s (exec (.orRI rd rs1 f h k) s) (some (rd, r)) (if f then some (Spec.flags r false false) else none)
      .idle false) ∧
    (let r := s.x rs1 ^^^ Spec.halfConst h k
     Completes s (exec (.xorRI rd rs1 f h k) s) (some (rd, r)) (if f then some (Spec.flags r false false) else none)
      .idle false)

/-- RI `sh` and `sha` by a constant from -31 to 31 have a next state: the shifted value in `Rd` and with `F = 1` its flags
(R169, R174, R175). `C` after a left shift by 0 is 0 by decision D5 (log 20). -/
def Obligations.RIShiftInRange : Prop :=
  ∀ p ∈ [(Instr.shRI, false), (Instr.shaRI, true)], ∀ (s : State) (rd rs1 : RegNum) (f : Bool) (k : BitVec 16),
    Ready s → MayWrite s rd → -31 ≤ k.toInt → k.toInt ≤ 31 →
      let b := BitVec.ofInt 32 k.toInt
      Completes s (exec (p.1 rd rs1 f k) s) (some (rd, Spec.shifted (s.x rs1) b p.2))
        (if f then some (Spec.shiftFlags (s.x rs1) b p.2) else none) .idle false

/-- RI `sh` and `sha` by any other constant have a next state too: `Rd` and, with `F = 1`, the four flags receive values
nothing determines (free values, decision D6, log 17 and 18), and nothing else is touched (R169). -/
def Obligations.RIShiftOutOfRange : Prop :=
  ∀ ctor ∈ [Instr.shRI, Instr.shaRI], ∀ (s : State) (rd rs1 : RegNum) (f : Bool) (k : BitVec 16),
    Ready s → MayWrite s rd → k.toInt < -31 ∨ 31 < k.toInt →
      ∃ v x, Completes s (exec (ctor rd rs1 f k) s) (some (rd, v)) (if f then some x else none) .idle false

/-! ## RR -/

/-- RR `add`, `addc`, `sub`, `subb` have a next state, with any `JJJJJ`: as RI, with `Rs2` for the constant (R194 to R197).
Overflow of a subtraction looks at `a` and `~b` by decision D4 (log 21). -/
def Obligations.RRArithmetic : Prop :=
  ∀ p ∈ ([(Instr.addRR, fun b _ => (b, false)), (Instr.addcRR, fun b c => (b, c)),
      (Instr.subRR, fun b _ => (~~~b, true)), (Instr.subbRR, fun b c => (~~~b, c))] :
      List ((RegNum → RegNum → Bool → RegNum → BitVec 5 → Instr) × (Word → Bool → Word × Bool))),
    ∀ (s : State) (rd rs1 rs2 : RegNum) (f : Bool) (j : BitVec 5), Ready s → MayWrite s rd →
      let (b, carry) := p.2 (s.x rs2) s.flags.c
      Completes s (exec (p.1 rd rs1 f rs2 j) s) (some (rd, Spec.sum (s.x rs1) b carry))
        (if f then some (Spec.sumFlags (s.x rs1) b carry) else none) .idle false

/-- RR `and`, `or`, `xor` have a next state: the bitwise result in `Rd`; with `F = 1`, `Z` and `N` from the result, `V`
cleared and `C` unchanged (R193, R198 to R200). `BBB` is 100, 101, 110. Where `ps` is also written in the step, that the
unchanged `C` is the one of the beginning of the step is deduced (log 38). -/
def Obligations.RRLogicKeepsCarry : Prop :=
  ∀ p ∈ ([(Instr.andRR, 0b100#3, (· &&& ·)), (Instr.orRR, 0b101#3, (· ||| ·)), (Instr.xorRR, 0b110#3, (· ^^^ ·))] :
      List ((RegNum → RegNum → Bool → RegNum → BitVec 5 → Instr) × BitVec 3 × (Word → Word → Word))),
    ∀ (s : State) (rd rs1 rs2 : RegNum) (f : Bool) (j : BitVec 5), Ready s → MayWrite s rd →
      let r := p.2.2 (s.x rs1) (s.x rs2)
      (encode (p.1 rd rs1 f rs2 j)).extractLsb' 8 3 = p.2.1 ∧
      Completes s (exec (p.1 rd rs1 f rs2 j) s) (some (rd, r))
        (if f then some (Spec.flags r s.flags.c false) else none) .idle false

/-- RR `sh` and `sha` by an amount from -31 to 31 in `Rs2` have a next state: the shifted value in `Rd` and with `F = 1`
its flags (R169, R201, R202). `C` after a left shift by 0 is 0 by decision D5 (log 20). -/
def Obligations.RRShiftInRange : Prop :=
  ∀ p ∈ [(Instr.shRR, false), (Instr.shaRR, true)], ∀ (s : State) (rd rs1 rs2 : RegNum) (f : Bool),
    Ready s → MayWrite s rd → Spec.InShiftRange (s.x rs2) →
      Completes s (exec (p.1 rd rs1 f rs2) s) (some (rd, Spec.shifted (s.x rs1) (s.x rs2) p.2))
        (if f then some (Spec.shiftFlags (s.x rs1) (s.x rs2) p.2) else none) .idle false

/-- RR `sh` and `sha` by any other amount have a next state too, with free values in `Rd` and the flags (decision D6,
log 17 and 18), and nothing else touched (R169). -/
def Obligations.RRShiftOutOfRange : Prop :=
  ∀ ctor ∈ [Instr.shRR, Instr.shaRR], ∀ (s : State) (rd rs1 rs2 : RegNum) (f : Bool),
    Ready s → MayWrite s rd → ¬ Spec.InShiftRange (s.x rs2) →
      ∃ v x, Completes s (exec (ctor rd rs1 f rs2) s) (some (rd, v)) (if f then some x else none) .idle false

/-- After a flag-setting RR subtraction `sub.f Rs1, Rs2, r0` the next BR compares the two registers: unsigned for `bhi`,
`bls`, `bcc`, `bcs`, signed for `bge`, `blt`, `bgt`, `ble`, equality for `beq` and `bne` (R161, R441). The signed ones rest
on `V` being the overflow of `a + ~b + 1`, decision D4 (log 21). -/
def Obligations.BranchAfterSubtractionCompares : Prop :=
  ∀ p ∈ ([(Instr.bhiBR, fun a b => decide (b.toNat < a.toNat)), (Instr.blsBR, fun a b => decide (a.toNat ≤ b.toNat)),
      (Instr.bccBR, fun a b => decide (a.toNat < b.toNat)), (Instr.bcsBR, fun a b => decide (b.toNat ≤ a.toNat)),
      (Instr.beqBR, fun a b => decide (a = b)), (Instr.bneBR, fun a b => decide (a ≠ b)),
      (Instr.bgeBR, fun a b => decide (b.toInt ≤ a.toInt)), (Instr.bltBR, fun a b => decide (a.toInt < b.toInt)),
      (Instr.bgtBR, fun a b => decide (b.toInt < a.toInt)), (Instr.bleBR, fun a b => decide (a.toInt ≤ b.toInt))] :
      List ((BitVec 23 → Bool → Instr) × (Word → Word → Bool))),
    ∀ (s t u : State) (rs1 rs2 : RegNum) (j : BitVec 5) (k : BitVec 23) (r : Bool),
      exec (.subRR 0#5 rs1 true rs2 j) s = .next t → t.cur = s.cur → exec (p.1 k r) t = .next u →
      (u.ctx t.cur).pc =
        if p.2 (s.x rs1) (s.x rs2) then pcValue (Spec.branchTarget t k r) else (t.ctx t.cur).pc + 4#32

/-! ## RRR -/

/-- RRR with `op2` one of `add`, `addc`, `sub`, `subb`, and a defined first operation, has a next state: `Rd` receives
`Rs1 op2 (Rs2 op1 Rs3)`, both operations reading the carry of the beginning of the step (decision D21, log 22), and with
`F = 1` the flags are those of the second operation (R210 to R213, R217 to R220). -/
def Obligations.RRRArithmetic : Prop :=
  ∀ p ∈ ([(Instr.putAdd, fun b _ => (b, false)), (Instr.putAddc, fun b c => (b, c)),
      (Instr.putSub, fun b _ => (~~~b, true)), (Instr.putSubb, fun b c => (~~~b, c))] :
      List ((RegNum → RegNum → Bool → RegNum → RegNum → Op1 → Instr) × (Word → Bool → Word × Bool))),
    ∀ (s : State) (rd rs1 rs2 rs3 : RegNum) (f : Bool) (op1 : Op1), Ready s → MayUseRd s rd → MayWrite s rd →
      (op1 = .sha → Spec.InShiftRange (s.x rs3)) →
      let (b, carry) := p.2 (Spec.firstOp op1 (s.x rs2) (s.x rs3) s.flags.c) s.flags.c
      Completes s (exec (p.1 rd rs1 f rs2 rs3 op1) s) (some (rd, Spec.sum (s.x rs1) b carry))
        (if f then some (Spec.sumFlags (s.x rs1) b carry) else none) .idle false

/-- RRR with `op2` one of `and`, `or`, `xor`, and a defined first operation, has a next state: the bitwise result in `Rd`;
with `F = 1`, `Z` and `N` from the result, `V` cleared, and `C` as the parameter `RRR_LOGIC_C` says, unchanged or cleared
(R214, decision D7, log 15; R221 to R223). An unchanged `C` is that of the beginning of the step also where `ps` is written
in it (log 38). -/
def Obligations.RRRLogic : Prop :=
  ∀ p ∈ ([(Instr.putAnd, (· &&& ·)), (Instr.putOr, (· ||| ·)), (Instr.putXor, (· ^^^ ·))] :
      List ((RegNum → RegNum → Bool → RegNum → RegNum → Op1 → Instr) × (Word → Word → Word))),
    ∀ (s : State) (rd rs1 rs2 rs3 : RegNum) (f : Bool) (op1 : Op1), Ready s → MayUseRd s rd → MayWrite s rd →
      (op1 = .sha → Spec.InShiftRange (s.x rs3)) →
      let r := p.2 (s.x rs1) (Spec.firstOp op1 (s.x rs2) (s.x rs3) s.flags.c)
      Completes s (exec (p.1 rd rs1 f rs2 rs3 op1) s) (some (rd, r))
        (if f then some (Spec.flags r (s.params.rrrLogicC == .unchanged && s.flags.c) false) else none) .idle false

/-- RRR with `op2` a shift by an amount from -31 to 31, and a defined first operation, has a next state: the shifted value
of `Rs1` in `Rd` and with `F = 1` its flags (R212, R213, R224, R225). `C` after a left shift by 0 is 0 by decision D5
(log 20). -/
def Obligations.RRRShiftInRange : Prop :=
  ∀ p ∈ [(Instr.putSh, false), (Instr.putSha, true)],
    ∀ (s : State) (rd rs1 rs2 rs3 : RegNum) (f : Bool) (op1 : Op1), Ready s → MayUseRd s rd → MayWrite s rd →
      (op1 = .sha → Spec.InShiftRange (s.x rs3)) →
      let amount := Spec.firstOp op1 (s.x rs2) (s.x rs3) s.flags.c
      Spec.InShiftRange amount →
      Completes s (exec (p.1 rd rs1 f rs2 rs3 op1) s) (some (rd, Spec.shifted (s.x rs1) amount p.2))
        (if f then some (Spec.shiftFlags (s.x rs1) amount p.2) else none) .idle false

/-- RRR with an out-of-range shift as its first operation (any `op2`) or as its second has a next state too, with free
values in `Rd` and the flags (decision D6, log 17 and 18), and nothing else touched (R216). -/
def Obligations.RRRShiftOutOfRange : Prop :=
  ∀ (s : State) (rd rs1 rs2 rs3 : RegNum) (f : Bool), Ready s → MayUseRd s rd → MayWrite s rd →
    (¬ Spec.InShiftRange (s.x rs3) →
      ∀ ctor ∈ [Instr.putAdd, Instr.putAddc, Instr.putSub, Instr.putSubb, Instr.putAnd, Instr.putOr, Instr.putXor,
          Instr.putSh, Instr.putSha],
        ∃ v x, Completes s (exec (ctor rd rs1 f rs2 rs3 .sha) s) (some (rd, v)) (if f then some x else none) .idle
          false) ∧
    (∀ op1 : Op1, (op1 = .sha → Spec.InShiftRange (s.x rs3)) →
      ¬ Spec.InShiftRange (Spec.firstOp op1 (s.x rs2) (s.x rs3) s.flags.c) →
      ∀ ctor ∈ [Instr.putSh, Instr.putSha],
        ∃ v x, Completes s (exec (ctor rd rs1 f rs2 rs3 op1) s) (some (rd, v)) (if f then some x else none) .idle
          false)

/-! ## Loads and stores -/

/-- RM `ld` and `st` have a next state in all four addressing modes: the base updated at the end of this step where the mode
says so, with the unmasked sum, and the access left for the context's next step, with the address and, for a store, the
data of the beginning of this one (R240 to R245). -/
def Obligations.RMLoadsAndStores : Prop :=
  ∀ (s : State) (rd rs1 : RegNum) (k : BitVec 16), Ready s → MayUseRd s rd →
    let sum := BitVec.ofInt 32 ((s.x rs1).toNat + k.toInt)
    CompletesInFourModes s rs1 sum (fun m => exec (.ldRM rd rs1 m k) s) (fun ea => .load ea .word .sign rd) ∧
    CompletesInFourModes s rs1 sum (fun m => exec (.stRM rd rs1 m k) s) (fun ea => .store ea .word (s.x rd))

/-- RRM word loads have a next state in all four addressing modes, with any `JJJJJ` and `E`, the address formed by each of
the seven operations that are not shifts (R261 to R264, R267, R275); `addc` and `subb` read the carry, and no flag is
written. That a word access ignores `E` is decision D19 (log 28). -/
def Obligations.RRMWordLoads : Prop :=
  ∀ p ∈ ([(Instr.ldAddRRM, fun a b _ => Spec.sum a b false), (Instr.ldAddcRRM, fun a b c => Spec.sum a b c),
      (Instr.ldSubRRM, fun a b _ => Spec.sum a (~~~b) true), (Instr.ldSubbRRM, fun a b c => Spec.sum a (~~~b) c),
      (Instr.ldAndRRM, fun a b _ => a &&& b), (Instr.ldOrRRM, fun a b _ => a ||| b),
      (Instr.ldXorRRM, fun a b _ => a ^^^ b)] :
      List ((RegNum → RegNum → AddrMode → RegNum → BitVec 5 → Bool → Instr) × (Word → Word → Bool → Word))),
    ∀ (s : State) (rd rs1 rs2 : RegNum) (j : BitVec 5) (e : Bool), Ready s → MayUseRd s rd →
      CompletesInFourModes s rs1 (p.2 (s.x rs1) (s.x rs2) s.flags.c) (fun m => exec (p.1 rd rs1 m rs2 j e) s)
        (fun ea => .load ea .word .sign rd)

/-- RRM part-word loads have a next state in all four addressing modes, with any `JJJJJ`: half-words and bytes, sign- and
zero-extended, the address formed by each of the seven operations that are not shifts (R261 to R264, R268 to R271,
R275). -/
def Obligations.RRMPartWordLoads : Prop :=
  ∀ p ∈ ([(Instr.ldhAddRRM, Instr.uldhAddRRM, Instr.ldbAddRRM, Instr.uldbAddRRM, fun a b _ => Spec.sum a b false),
      (Instr.ldhAddcRRM, Instr.uldhAddcRRM, Instr.ldbAddcRRM, Instr.uldbAddcRRM, fun a b c => Spec.sum a b c),
      (Instr.ldhSubRRM, Instr.uldhSubRRM, Instr.ldbSubRRM, Instr.uldbSubRRM, fun a b _ => Spec.sum a (~~~b) true),
      (Instr.ldhSubbRRM, Instr.uldhSubbRRM, Instr.ldbSubbRRM, Instr.uldbSubbRRM, fun a b c => Spec.sum a (~~~b) c),
      (Instr.ldhAndRRM, Instr.uldhAndRRM, Instr.ldbAndRRM, Instr.uldbAndRRM, fun a b _ => a &&& b),
      (Instr.ldhOrRRM, Instr.uldhOrRRM, Instr.ldbOrRRM, Instr.uldbOrRRM, fun a b _ => a ||| b),
      (Instr.ldhXorRRM, Instr.uldhXorRRM, Instr.ldbXorRRM, Instr.uldbXorRRM, fun a b _ => a ^^^ b)] :
      List ((RegNum → RegNum → AddrMode → RegNum → BitVec 5 → Instr) ×
        (RegNum → RegNum → AddrMode → RegNum → BitVec 5 → Instr) ×
        (RegNum → RegNum → AddrMode → RegNum → BitVec 5 → Instr) ×
        (RegNum → RegNum → AddrMode → RegNum → BitVec 5 → Instr) × (Word → Word → Bool → Word))),
    ∀ (s : State) (rd rs1 rs2 : RegNum) (j : BitVec 5), Ready s → MayUseRd s rd →
      let sum := p.2.2.2.2 (s.x rs1) (s.x rs2) s.flags.c
      CompletesInFourModes s rs1 sum (fun m => exec (p.1 rd rs1 m rs2 j) s) (fun ea => .load ea .half .sign rd) ∧
      CompletesInFourModes s rs1 sum (fun m => exec (p.2.1 rd rs1 m rs2 j) s) (fun ea => .load ea .half .zero rd) ∧
      CompletesInFourModes s rs1 sum (fun m => exec (p.2.2.1 rd rs1 m rs2 j) s) (fun ea => .load ea .byte .sign rd) ∧
      CompletesInFourModes s rs1 sum (fun m => exec (p.2.2.2.1 rd rs1 m rs2 j) s) (fun ea => .load ea .byte .zero rd)

/-- RRM stores of words, half-words and bytes have a next state in all four addressing modes, with any `JJJJJ` and `E`, the
address formed by each of the seven operations that are not shifts; the data is `Rd` at the beginning of the step (R261 to
R263, R265, R272 to R275). That a store ignores `E` is decision D19 (log 28). -/
def Obligations.RRMStores : Prop :=
  ∀ p ∈ ([(Instr.stAddRRM, Instr.sthAddRRM, Instr.stbAddRRM, fun a b _ => Spec.sum a b false),
      (Instr.stAddcRRM, Instr.sthAddcRRM, Instr.stbAddcRRM, fun a b c => Spec.sum a b c),
      (Instr.stSubRRM, Instr.sthSubRRM, Instr.stbSubRRM, fun a b _ => Spec.sum a (~~~b) true),
      (Instr.stSubbRRM, Instr.sthSubbRRM, Instr.stbSubbRRM, fun a b c => Spec.sum a (~~~b) c),
      (Instr.stAndRRM, Instr.sthAndRRM, Instr.stbAndRRM, fun a b _ => a &&& b),
      (Instr.stOrRRM, Instr.sthOrRRM, Instr.stbOrRRM, fun a b _ => a ||| b),
      (Instr.stXorRRM, Instr.sthXorRRM, Instr.stbXorRRM, fun a b _ => a ^^^ b)] :
      List ((RegNum → RegNum → AddrMode → RegNum → BitVec 5 → Bool → Instr) ×
        (RegNum → RegNum → AddrMode → RegNum → BitVec 5 → Bool → Instr) ×
        (RegNum → RegNum → AddrMode → RegNum → BitVec 5 → Bool → Instr) × (Word → Word → Bool → Word))),
    ∀ (s : State) (rd rs1 rs2 : RegNum) (j : BitVec 5) (e : Bool), Ready s → MayUseRd s rd →
      let sum := p.2.2.2 (s.x rs1) (s.x rs2) s.flags.c
      CompletesInFourModes s rs1 sum (fun m => exec (p.1 rd rs1 m rs2 j e) s) (fun ea => .store ea .word (s.x rd)) ∧
      CompletesInFourModes s rs1 sum (fun m => exec (p.2.1 rd rs1 m rs2 j e) s) (fun ea => .store ea .half (s.x rd)) ∧
      CompletesInFourModes s rs1 sum (fun m => exec (p.2.2.1 rd rs1 m rs2 j e) s) (fun ea => .store ea .byte (s.x rd))

/-- RRM word loads and stores addressed by a shift of -31 to 31 have a next state in all four addressing modes, with any
`YLE` (R261, R263, R275). That `YLE` is ignored there is decision D19 (log 28). -/
def Obligations.RRMShiftInRange : Prop :=
  ∀ p ∈ [(Instr.ldShRRM, Instr.stShRRM, false), (Instr.ldShaRRM, Instr.stShaRRM, true)],
    ∀ (s : State) (rd rs1 rs2 : RegNum) (y : BitVec 3), Ready s → MayUseRd s rd → Spec.InShiftRange (s.x rs2) →
      let sum := Spec.shifted (s.x rs1) (s.x rs2) p.2.2
      CompletesInFourModes s rs1 sum (fun m => exec (p.1 rd rs1 m rs2 y) s) (fun ea => .load ea .word .sign rd) ∧
      CompletesInFourModes s rs1 sum (fun m => exec (p.2.1 rd rs1 m rs2 y) s) (fun ea => .store ea .word (s.x rd))

/-- RRM with a shift by any other amount (R276): in the mode that does not use the sum the instruction runs; in the other
three its address or new base is unspecified and the step is refused (decision D6, log 19). Any `YLE` is ignored by
decision D19 (log 28). -/
def Obligations.RRMShiftOutOfRange : Prop :=
  ∀ p ∈ [(Instr.ldShRRM, Instr.stShRRM), (Instr.ldShaRRM, Instr.stShaRRM)],
    ∀ (s : State) (rd rs1 rs2 : RegNum) (y : BitVec 3), MayUseRd s rd → ¬ Spec.InShiftRange (s.x rs2) →
      (Ready s → Completes s (exec (p.1 rd rs1 .base rs2 y) s) none none (.load (s.x rs1) .word .sign rd) false ∧
        Completes s (exec (p.2 rd rs1 .base rs2 y) s) none none (.store (s.x rs1) .word (s.x rd)) false) ∧
      ∀ m : AddrMode, m ≠ .base → exec (p.1 rd rs1 m rs2 y) s = .refused .unspecifiedAddress ∧
        exec (p.2 rd rs1 m rs2 y) s = .refused .unspecifiedAddress

/-- The SLS load and store have a next state: a word access at the zero-extended 21-bit address, left for the context's
next step, and no register written in this one (R321 to R323). -/
def Obligations.SLSLoadAndStore : Prop :=
  ∀ (s : State) (rd : RegNum) (a : BitVec 21), Ready s → MayUseRd s rd →
    Completes s (exec (.ldSLS rd a) s) none none (.load (BitVec.ofNat 32 a.toNat) .word .sign rd) false ∧
    Completes s (exec (.stSLS rd a) s) none none (.store (BitVec.ofNat 32 a.toNat) .word (s.x rd)) false

/-- SLI has a next state for every destination: the zero-extended 21-bit constant is left for the load port of the
context's next step (R324 to R326; the delay is the node's "same as the RM instruction" read by decision D8, log 23). -/
def Obligations.SLIDelayedWrite : Prop :=
  ∀ (s : State) (rd : RegNum) (k : BitVec 21), Ready s →
    Completes s (exec (.movSLI rd k) s) none none (.imm (BitVec.ofNat 32 k.toNat) rd) false

/-- The SPLS loads and stores have a next state in all four addressing modes: half-words and bytes, loads sign- or
zero-extended, with a 10-bit signed constant (R328 to R335). That a store ignores `E` is decision D19 (log 28). -/
def Obligations.SPLSLoadsAndStores : Prop :=
  ∀ (s : State) (rd rs1 : RegNum) (k : BitVec 10) (e : Bool), Ready s → MayUseRd s rd →
    let sum := BitVec.ofInt 32 ((s.x rs1).toNat + k.toInt)
    CompletesInFourModes s rs1 sum (fun m => exec (.ldhSPLS rd rs1 m k) s) (fun ea => .load ea .half .sign rd) ∧
    CompletesInFourModes s rs1 sum (fun m => exec (.uldhSPLS rd rs1 m k) s) (fun ea => .load ea .half .zero rd) ∧
    CompletesInFourModes s rs1 sum (fun m => exec (.ldbSPLS rd rs1 m k) s) (fun ea => .load ea .byte .sign rd) ∧
    CompletesInFourModes s rs1 sum (fun m => exec (.uldbSPLS rd rs1 m k) s) (fun ea => .load ea .byte .zero rd) ∧
    CompletesInFourModes s rs1 sum (fun m => exec (.sthSPLS rd rs1 m k e) s) (fun ea => .store ea .half (s.x rd)) ∧
    CompletesInFourModes s rs1 sum (fun m => exec (.stbSPLS rd rs1 m k e) s) (fun ea => .store ea .byte (s.x rd))

/-- The load shadow and its override (R246, R247, R264), for every load into `r4` to `r27` and every instruction behind it. The
step from `s` computes the load. The instruction behind it, computed by the step from `t`, still sees the old value of the destination;
after that step the register holds the loaded value, unless that instruction computes the same register, which then holds
what it would hold without the load. -/
def Obligations.LoadHasOneShadow : Prop :=
  ∀ (s t : State) (ea : Word) (n : Width) (ext : Extension) (rd : RegNum), 4 ≤ rd.toNat → rd.toNat ≤ 27 →
    step s = .next t → t.cur = s.cur → (t.ctx t.cur).ms = .load ea n ext rd →
    (¬ s.names rd → t.x rd = s.x rd) ∧
    ∀ u, step t = .next u →
      ((∀ i, t.computes i → i.computeDest ≠ some rd) →
        loadPort t = some (rd, readReg u t.cur rd) ∧ (n = .word → readReg u t.cur rd = memRead t.mem ea .word)) ∧
      ((∃ i, t.computes i ∧ i.computeDest = some rd) →
        ∀ u', step t.withoutPending = .next u' → readReg u t.cur rd = readReg u' t.cur rd)

/-- A word with a prohibited `Rd` field, 2 or 31, in RRR, RM, RRM, SLS and SPLS, loads and stores alike, is refused under
`RD_RESTRICTION = refuse` (R35; decision D3, log 14). -/
def Obligations.RestrictedDestinationIsRefused : Prop :=
  ∀ (i : Instr) (s : State) (rd : RegNum), i.restrictedRd = some rd → rd = 2#5 ∨ rd = 31#5 →
    s.params.rdRestriction = .refuse → exec i s = .refused .restrictedDestination

/-! ## Branches -/

/-- The sixteen BR instructions have a next state: where the condition of their code `DDDI` holds of the flags at the
beginning of the step, `pc` receives the absolute or relative target; where it does not, nothing is written (R103,
R290). -/
def Obligations.BRBranches : Prop :=
  ∀ p ∈ ([(Instr.btBR, 0, fun _ => true), (Instr.bfBR, 1, fun _ => false), (Instr.bhiBR, 2, fun x => x.c && !x.z),
      (Instr.blsBR, 3, fun x => !x.c || x.z), (Instr.bccBR, 4, fun x => !x.c), (Instr.bcsBR, 5, fun x => x.c),
      (Instr.bneBR, 6, fun x => !x.z), (Instr.beqBR, 7, fun x => x.z), (Instr.bvcBR, 8, fun x => !x.v),
      (Instr.bvsBR, 9, fun x => x.v), (Instr.bplBR, 10, fun x => !x.n), (Instr.bmiBR, 11, fun x => x.n),
      (Instr.bgeBR, 12, fun x => x.n == x.v), (Instr.bltBR, 13, fun x => x.n != x.v),
      (Instr.bgtBR, 14, fun x => x.n == x.v && !x.z), (Instr.bleBR, 15, fun x => x.z || x.n != x.v)] :
      List ((BitVec 23 → Bool → Instr) × Nat × (Flags → Bool))),
    ∀ (s : State) (k : BitVec 23) (r : Bool),
      condCode (encode (p.1 k r)) = p.2.1 ∧
      (Ready s → Completes s (exec (p.1 k r) s)
        (if p.2.2 s.flags then some (2#5, Spec.branchTarget s k r) else none) none .idle false)

/-- The sixteen SBR instructions have a next state: where the condition of their code `DDDI` holds of the flags at the
beginning of the step, `pc` receives `Rs1 + Rs3` modulo 2^32; where it does not, nothing is written (R103, R351). -/
def Obligations.SBRBranches : Prop :=
  ∀ p ∈ ([(Instr.btSBR, 0, fun _ => true), (Instr.bfSBR, 1, fun _ => false), (Instr.bhiSBR, 2, fun x => x.c && !x.z),
      (Instr.blsSBR, 3, fun x => !x.c || x.z), (Instr.bccSBR, 4, fun x => !x.c), (Instr.bcsSBR, 5, fun x => x.c),
      (Instr.bneSBR, 6, fun x => !x.z), (Instr.beqSBR, 7, fun x => x.z), (Instr.bvcSBR, 8, fun x => !x.v),
      (Instr.bvsSBR, 9, fun x => x.v), (Instr.bplSBR, 10, fun x => !x.n), (Instr.bmiSBR, 11, fun x => x.n),
      (Instr.bgeSBR, 12, fun x => x.n == x.v), (Instr.bltSBR, 13, fun x => x.n != x.v),
      (Instr.bgtSBR, 14, fun x => x.n == x.v && !x.z), (Instr.bleSBR, 15, fun x => x.z || x.n != x.v)] :
      List ((RegNum → RegNum → Instr) × Nat × (Flags → Bool))),
    ∀ (s : State) (rs1 rs3 : RegNum),
      condCode (encode (p.1 rs1 rs3)) = p.2.1 ∧
      (Ready s → Completes s (exec (p.1 rs1 rs3) s)
        (if p.2.2 s.flags then some (2#5, Spec.sum (s.x rs1) (s.x rs3) false) else none) none .idle false)

/-- A taken branch, BR or SBR, of any condition, absolute or relative, has one shadow (R292, R351): the word fetched during
its Compute step is the one the next step computes, and that next step fetches from the target. -/
def Obligations.BranchHasOneShadow : Prop :=
  ∀ s : State,
    let oneShadow := fun (i : Instr) (target : Word) =>
      Spec.condition (condCode (encode i)) s.flags = true → ∀ t u, exec i s = .next t → t.cur = s.cur → step t = .next u →
        (t.ctx t.cur).ir = .word (fetchedWord s) ∧ (t.ctx t.cur).pc = pcValue target ∧
        (u.ctx t.cur).ir = .word (fetchedWord t) ∧
        fetchedWord t = memRead t.mem target .word
    (∀ br ∈ Spec.brInstrs, ∀ (k : BitVec 23) (r : Bool), oneShadow (br k r) (Spec.branchTarget s k r)) ∧
    ∀ sbr ∈ Spec.sbrInstrs, ∀ rs1 rs3 : RegNum, oneShadow (sbr rs1 rs3) (Spec.sum (s.x rs1) (s.x rs3) false)

/-! ## PUNT -/

/-- PUNT has a next state in both contexts: the word at `pc` is fetched and held, the instruction before it finishes its
load or store, `pc` is incremented, nothing is left for the Memory stage, no flag changes, and the context toggles (R311,
R312). -/
def Obligations.PuntTogglesTheContext : Prop :=
  ∀ s : State, Ready s →
    ∃ t, exec .punt s = .next t ∧ Effect s t none none .idle true ∧ t.cur = s.cur.other ∧
      (t.ctx s.cur).ir = .word (fetchedWord s) ∧ (t.ctx s.cur).ms = .idle
end

