-- ==== Sys2Proof/Laws/Arith.lean ====
section
/-! SUPPORT. The adder, the shifter, the constants and the branch targets in the numbers of `Sys2Proof.Spec` (R94, R161, R169
to R173, R291): what each gives, said once. -/

namespace Sys2Proof.Machine

theorem adder_r (p q : Word) (cin : Bool) : (adder p q cin).r = Spec.sum p q cin := by
  apply BitVec.eq_of_toNat_eq
  cases cin <;> simp [adder, Spec.sum, BitVec.toNat_add, BitVec.toNat_setWidth, BitVec.toNat_ofNat]

theorem adder_c (p q : Word) (cin : Bool) :
    (adder p q cin).c = some (decide (2 ^ 32 ≤ p.toNat + q.toNat + cin.toNat)) := by
  have hp := p.isLt
  have hq := q.isLt
  simp only [adder, Option.some.injEq]
  rw [BitVec.getLsbD, Nat.testBit_eq_decide_div_mod_eq]
  cases cin <;> simp [BitVec.toNat_add, BitVec.toNat_setWidth] <;> omega

theorem msb_eq_decide (a : Word) : a.msb = decide (2 ^ 31 ≤ a.toNat) := by
  rw [BitVec.msb_eq_decide]

/-- Overflow by the signs of the addends and the result is overflow of the signed sum. -/
theorem adder_v (p q : Word) (cin : Bool) : (adder p q cin).v =
    decide (p.toInt + q.toInt + cin.toNat < -2 ^ 31 ∨ 2 ^ 31 ≤ p.toInt + q.toInt + cin.toNat) := by
  have hp := p.isLt
  have hq := q.isLt
  have hr := adder_r p q cin
  simp only [adder] at hr ⊢
  rw [hr]
  rw [Bool.eq_iff_iff]
  simp only [Bool.and_eq_true, beq_iff_eq, bne_iff_ne, ne_eq, msb_eq_decide, decide_eq_decide, decide_eq_true_eq,
    Spec.sum, BitVec.toNat_ofNat, BitVec.toInt_eq_toNat_cond]
  cases cin <;> simp only [Bool.toNat_false, Bool.toNat_true] <;> (repeat' split) <;> omega

/-- The flags of an addition. -/
theorem flagsOf_adder (p q : Word) (cin b : Bool) : flagsOf (adder p q cin) b = Spec.sumFlags p q cin := by
  have h : ((adder p q cin).r == 0#32) = decide ((Spec.sum p q cin).toNat = 0) := by
    rw [adder_r, Bool.eq_iff_iff, beq_iff_eq, decide_eq_true_eq, ← BitVec.toNat_inj]; rfl
  unfold flagsOf Spec.sumFlags Spec.flags
  rw [h, adder_c, adder_v, adder_r, msb_eq_decide]
  rfl

/-- The flags of a bitwise result. -/
theorem flagsOf_logic (r : Word) (b : Bool) : flagsOf ⟨r, none, false⟩ b = Spec.flags r b false := by
  have h : (r == 0#32) = decide (r.toNat = 0) := by
    rw [Bool.eq_iff_iff, beq_iff_eq, decide_eq_true_eq, ← BitVec.toNat_inj]; rfl
  unfold flagsOf Spec.flags
  rw [h, msb_eq_decide]
  rfl

theorem ofInt_div_pow (a : Word) (n : Nat) : BitVec.ofInt 32 (a.toInt / 2 ^ n) = a.sshiftRight n := by
  rw [BitVec.sshiftRight, Int.shiftRight_eq_div_pow]; norm_cast

/-- A shift within its range. -/
theorem shift_inRange (a b : Word) (k : Bool) (h : Spec.InShiftRange b) :
    shift a b k = some { r := Spec.shifted a b k, c := some (Spec.shiftCarry a b), v := false } := by
  obtain ⟨h1, h2⟩ := h
  unfold shift Spec.shifted Spec.shiftCarry
  by_cases h0 : 0 ≤ b.toInt
  · rw [if_pos ⟨h0, h2⟩, if_pos h0]
    simp only [Option.some.injEq, AluResult.mk.injEq, and_true]
    constructor
    · apply BitVec.eq_of_toNat_eq
      simp [BitVec.toNat_shiftLeft, Nat.shiftLeft_eq]
    · rw [BitVec.getLsbD, Nat.testBit_eq_decide_div_mod_eq]
  · rw [if_neg (by omega), if_pos (by omega), if_neg h0]
    simp only [Option.some.injEq, AluResult.mk.injEq, and_true]
    constructor
    · cases k
      · apply BitVec.eq_of_toNat_eq
        simp only [Bool.false_eq_true, if_false, BitVec.toNat_ushiftRight, Nat.shiftRight_eq_div_pow, BitVec.toNat_ofNat]
        rw [Nat.mod_eq_of_lt (Nat.lt_of_le_of_lt (Nat.div_le_self _ _) a.isLt)]
      · simp only [if_true, ofInt_div_pow]
    · have : ¬ 1 ≤ b.toInt := by omega
      simp [this]

theorem shift_outOfRange (a b : Word) (k : Bool) (h : ¬ Spec.InShiftRange b) : shift a b k = none := by
  unfold Spec.InShiftRange at h
  unfold shift
  rw [if_neg (by omega), if_neg (by omega)]

/-- The flags of a shift within its range. -/
theorem flagsOf_shift (a b : Word) (k l : Bool) :
    flagsOf { r := Spec.shifted a b k, c := some (Spec.shiftCarry a b), v := false } l = Spec.shiftFlags a b k := by
  have h := flagsOf_logic (Spec.shifted a b k) (Spec.shiftCarry a b)
  unfold Spec.shiftFlags
  rw [← h]
  rfl

/-- The first operation of RRR where it is defined. -/
theorem aluOp_opOfOp1 (op1 : Op1) (b c : Word) (carry : Bool) (h : op1 = .sha → Spec.InShiftRange c) :
    (aluOp (opOfOp1 op1) b c carry).map AluResult.r = some (Spec.firstOp op1 b c carry) := by
  cases op1 <;> simp only [opOfOp1, aluOp, Option.map_some, Spec.firstOp, adder_r]
  rw [shift_inRange b c true (h rfl)]
  rfl

theorem append_toNat {m n : Nat} (x : BitVec m) (y : BitVec n) : (x ++ y).toNat = x.toNat * 2 ^ n + y.toNat := by
  rw [BitVec.toNat_append, ← Nat.shiftLeft_add_eq_or_of_lt y.isLt, Nat.shiftLeft_eq]

theorem riConst_eq (h : Bool) (k : BitVec 16) : riConst h k = Spec.halfConst h k := by
  have h1 := append_toNat k 0x0000#16
  have h2 := append_toNat 0x0000#16 k
  have := k.isLt
  apply BitVec.eq_of_toNat_eq
  cases h <;> simp [riConst, Spec.halfConst] at h1 h2 ⊢ <;> omega

theorem riAndConst_eq (h : Bool) (k : BitVec 16) : riAndConst h k = Spec.halfAndConst h k := by
  have h1 := append_toNat k 0xFFFF#16
  have h2 := append_toNat 0xFFFF#16 k
  have := k.isLt
  apply BitVec.eq_of_toNat_eq
  cases h <;> simp [riAndConst, Spec.halfAndConst] at h1 h2 ⊢ <;> omega

theorem riShiftConst_eq (k : BitVec 16) : riShiftConst k = BitVec.ofInt 32 k.toInt := rfl

theorem toInt_ofInt_small (z : Int) (h : -2 ^ 31 ≤ z ∧ z < 2 ^ 31) : (BitVec.ofInt 32 z).toInt = z := by
  rw [BitVec.toInt_ofInt, Int.bmod_eq_of_le] <;> omega

theorem brTarget_eq (k : BitVec 23) (r : Bool) (s : State) : brTarget k r s = Spec.branchTarget s k r := by
  have hk := k.isLt
  unfold brTarget Spec.branchTarget
  have e : (brOffset k).toNat = 4 * k.toNat := by
    have h := append_toNat k 0#2
    simp at h
    simp only [brOffset, h]; omega
  cases r
  · apply BitVec.eq_of_toNat_eq; simp [e]
  · simp only [if_true]
    congr 1
    rw [BitVec.signExtend]
    congr 1
    rw [BitVec.toInt_eq_toNat_cond, BitVec.toInt_eq_toNat_cond, e]
    split <;> split <;> omega

/-- `a + sext(K)` of RM and SPLS as the sum of numbers. -/
theorem add_signExtend {n : Nat} (a : Word) (k : BitVec n) :
    a + k.signExtend 32 = BitVec.ofInt 32 (a.toNat + k.toInt) := by
  rw [BitVec.signExtend, BitVec.ofInt_add]
  congr 1
  apply BitVec.eq_of_toNat_eq
  simp

theorem add_eq_sum (a b : Word) : a + b = Spec.sum a b false := by
  apply BitVec.eq_of_toNat_eq; simp [Spec.sum]

end Sys2Proof.Machine
end

