-- ==== Sys2Proof/Laws/Decode.lean ====
section
/-! SUPPORT. The fields of the words that each format's figure makes: what the decoder reads from an encoded word, format by
format (R92 to R108). -/

namespace Sys2Proof

open Sys2Proof.Machine (append_toNat)

theorem field_toNat (w : Word) (lo n : Nat) : (field w lo n).toNat = w.toNat / 2 ^ lo % 2 ^ n := by
  simp [field, BitVec.extractLsb'_toNat, Nat.shiftRight_eq_div_pow]

theorem bit_eq (w : Word) (i : Nat) : bit w i = decide (w.toNat / 2 ^ i % 2 = 1) := by
  rw [bit, BitVec.getLsbD, Nat.testBit_eq_decide_div_mod_eq]

theorem bit_toNat (w : Word) (i : Nat) : (bit w i).toNat = w.toNat / 2 ^ i % 2 := by
  rw [bit_eq]
  by_cases h : w.toNat / 2 ^ i % 2 = 1
  · simp [h]
  · simp [h]; omega

theorem field_eq {w : Word} {lo n : Nat} {x : BitVec n} (h : w.toNat / 2 ^ lo % 2 ^ n = x.toNat) : field w lo n = x := by
  apply BitVec.eq_of_toNat_eq; rw [field_toNat, h]

theorem bit_eq_of {w : Word} {i : Nat} {b : Bool} (h : w.toNat / 2 ^ i % 2 = b.toNat) : bit w i = b := by
  rw [bit_eq, h]; cases b <;> rfl

theorem ofBool_toNat (b : Bool) : (BitVec.ofBool b).toNat = b.toNat := by cases b <;> rfl

/-- The four bytes of a word, put together again. -/
theorem wordOfBytes_bytesOfWord (w : Word) :
    wordOfBytes (field w 24 8) (field w 16 8) (field w 8 8) (field w 0 8) = w := by
  apply BitVec.eq_of_toNat_eq
  have h : (wordOfBytes (field w 24 8) (field w 16 8) (field w 8 8) (field w 0 8)).toNat =
      (((field w 24 8).toNat * 2 ^ 8 + (field w 16 8).toNat) * 2 ^ 8 + (field w 8 8).toNat) * 2 ^ 8 +
        (field w 0 8).toNat := by
    unfold wordOfBytes
    have a := append_toNat (field w 24 8) (field w 16 8)
    have b := append_toNat (field w 24 8 ++ field w 16 8) (field w 8 8)
    have c := append_toNat (field w 24 8 ++ field w 16 8 ++ field w 8 8) (field w 0 8)
    rw [a] at b; rw [b] at c; exact c
  rw [h]
  simp only [field_toNat]
  have := w.isLt
  omega

theorem addrModeOf_bits (m : AddrMode) (w : Word) (i : Nat) (h : field w i 2 = m.bits) :
    addrModeOf (bit w (i + 1)) (bit w i) = m := by
  have h' := congrArg BitVec.toNat h
  rw [field_toNat] at h'
  have e0 : bit w i = decide (m.bits.toNat % 2 = 1) := by rw [bit_eq, ← h']; congr 2; omega
  have e1 : bit w (i + 1) = decide (m.bits.toNat / 2 = 1) := by
    rw [bit_eq, ← h', Nat.pow_succ, ← Nat.div_div_eq_div_mul]; congr 2; omega
  rw [e0, e1]
  cases m <;> rfl

theorem op1Of_bits (o : Op1) : op1Of o.bits = o := by cases o <;> rfl

theorem encodeRI_toNat (aaa : BitVec 3) (rd rs1 : RegNum) (f h : Bool) (k : BitVec 16) :
    (encodeRI aaa rd rs1 f h k).toNat =
      aaa.toNat * 2 ^ 28 + rd.toNat * 2 ^ 23 + rs1.toNat * 2 ^ 18 + f.toNat * 2 ^ 17 + h.toNat * 2 ^ 16 + k.toNat := by
  unfold encodeRI
  simp only [BitVec.toNat_setWidth, append_toNat, ofBool_toNat, BitVec.toNat_ofNat]
  have := aaa.isLt; have := rd.isLt; have := rs1.isLt; have := f.toNat_lt; have := h.toNat_lt; have := k.isLt
  omega

theorem fields_encodeRI (aaa : BitVec 3) (rd rs1 : RegNum) (f h : Bool) (k : BitVec 16) :
    let w := encodeRI aaa rd rs1 f h k
    (field w 28 4).toNat = aaa.toNat ∧ field w 28 3 = aaa ∧ field w 23 5 = rd ∧ field w 18 5 = rs1 ∧ bit w 17 = f ∧
    bit w 16 = h ∧ field w 0 16 = k := by
  have hw := encodeRI_toNat aaa rd rs1 f h k
  have := aaa.isLt; have := rd.isLt; have := rs1.isLt; have := f.toNat_lt; have := h.toNat_lt; have := k.isLt
  refine ⟨(field_toNat _ _ _).trans ?_, field_eq ?_, field_eq ?_, field_eq ?_, bit_eq_of ?_, bit_eq_of ?_, field_eq ?_⟩ <;>
    rw [hw] <;> omega

theorem encodeRR_toNat (rd rs1 : RegNum) (f : Bool) (rs2 : RegNum) (bbb : BitVec 3) (j : BitVec 5) :
    (encodeRR rd rs1 f rs2 bbb j).toNat =
      12 * 2 ^ 28 + rd.toNat * 2 ^ 23 + rs1.toNat * 2 ^ 18 + f.toNat * 2 ^ 17 + rs2.toNat * 2 ^ 11 +
      bbb.toNat * 2 ^ 8 + j.toNat * 2 ^ 3 := by
  unfold encodeRR
  simp only [BitVec.toNat_setWidth, append_toNat, ofBool_toNat, BitVec.toNat_ofNat]
  have := rd.isLt; have := rs1.isLt; have := f.toNat_lt; have := rs2.isLt; have := bbb.isLt; have := j.isLt
  omega

theorem fields_encodeRR (rd rs1 : RegNum) (f : Bool) (rs2 : RegNum) (bbb : BitVec 3) (j : BitVec 5) :
    let w := encodeRR rd rs1 f rs2 bbb j
    (field w 28 4).toNat = 12 ∧ field w 23 5 = rd ∧ field w 18 5 = rs1 ∧ bit w 17 = f ∧ bit w 16 = false ∧
    field w 11 5 = rs2 ∧ field w 8 3 = bbb ∧ field w 3 5 = j ∧ field w 0 3 = 0#3 := by
  have hw := encodeRR_toNat rd rs1 f rs2 bbb j
  have := rd.isLt; have := rs1.isLt; have := f.toNat_lt; have := rs2.isLt; have := bbb.isLt; have := j.isLt
  refine ⟨(field_toNat _ _ _).trans ?_, field_eq ?_, field_eq ?_, bit_eq_of ?_, bit_eq_of ?_, field_eq ?_, field_eq ?_,
    field_eq ?_, field_eq ?_⟩ <;>
    rw [hw] <;> (try simp only [BitVec.toNat_ofNat, Bool.toNat_false]) <;> omega

theorem encodeRRR_toNat (rd rs1 : RegNum) (f h : Bool) (rs2 : RegNum) (aaa : BitVec 3) (rs3 : RegNum) (op1 : Op1) :
    (encodeRRR rd rs1 f h rs2 aaa rs3 op1).toNat =
      13 * 2 ^ 28 + rd.toNat * 2 ^ 23 + rs1.toNat * 2 ^ 18 + f.toNat * 2 ^ 17 + h.toNat * 2 ^ 16 +
      rs2.toNat * 2 ^ 11 + aaa.toNat * 2 ^ 8 + rs3.toNat * 2 ^ 3 + op1.bits.toNat := by
  unfold encodeRRR
  simp only [BitVec.toNat_setWidth, append_toNat, ofBool_toNat, BitVec.toNat_ofNat]
  have := rd.isLt; have := rs1.isLt; have := f.toNat_lt; have := h.toNat_lt; have := rs2.isLt; have := aaa.isLt;
  have := rs3.isLt; have := op1.bits.isLt
  omega

theorem fields_encodeRRR (rd rs1 : RegNum) (f h : Bool) (rs2 : RegNum) (aaa : BitVec 3) (rs3 : RegNum) (op1 : Op1) :
    let w := encodeRRR rd rs1 f h rs2 aaa rs3 op1
    (field w 28 4).toNat = 13 ∧ field w 23 5 = rd ∧ field w 18 5 = rs1 ∧ bit w 17 = f ∧ bit w 16 = h ∧
    field w 11 5 = rs2 ∧ field w 8 3 = aaa ∧ field w 3 5 = rs3 ∧ field w 0 3 = op1.bits := by
  have hw := encodeRRR_toNat rd rs1 f h rs2 aaa rs3 op1
  have := rd.isLt; have := rs1.isLt; have := f.toNat_lt; have := h.toNat_lt; have := rs2.isLt; have := aaa.isLt;
  have := rs3.isLt; have := op1.bits.isLt
  refine ⟨(field_toNat _ _ _).trans ?_, field_eq ?_, field_eq ?_, bit_eq_of ?_, bit_eq_of ?_, field_eq ?_, field_eq ?_,
    field_eq ?_, field_eq ?_⟩ <;>
    rw [hw] <;> omega

theorem encodeRM_toNat (st : Bool) (rd rs1 : RegNum) (m : AddrMode) (k : BitVec 16) :
    (encodeRM st rd rs1 m k).toNat =
      4 * 2 ^ 29 + st.toNat * 2 ^ 28 + rd.toNat * 2 ^ 23 + rs1.toNat * 2 ^ 18 + m.bits.toNat * 2 ^ 16 + k.toNat := by
  unfold encodeRM
  simp only [BitVec.toNat_setWidth, append_toNat, ofBool_toNat, BitVec.toNat_ofNat]
  have := st.toNat_lt; have := rd.isLt; have := rs1.isLt; have := m.bits.isLt; have := k.isLt
  omega

theorem fields_encodeRM (st : Bool) (rd rs1 : RegNum) (m : AddrMode) (k : BitVec 16) :
    let w := encodeRM st rd rs1 m k
    (field w 28 4).toNat = 8 + st.toNat ∧ field w 23 5 = rd ∧ field w 18 5 = rs1 ∧ field w 16 2 = m.bits ∧
    field w 0 16 = k := by
  have hw := encodeRM_toNat st rd rs1 m k
  have := st.toNat_lt; have := rd.isLt; have := rs1.isLt; have := m.bits.isLt; have := k.isLt
  refine ⟨(field_toNat _ _ _).trans ?_, field_eq ?_, field_eq ?_, field_eq ?_, field_eq ?_⟩ <;>
    rw [hw] <;> omega

theorem encodeRRM_toNat (st : Bool) (rd rs1 : RegNum) (m : AddrMode) (rs2 : RegNum) (bbb : BitVec 3) (j : BitVec
    5) (y : BitVec 3) :
    (encodeRRM st rd rs1 m rs2 bbb j y).toNat =
      5 * 2 ^ 29 + st.toNat * 2 ^ 28 + rd.toNat * 2 ^ 23 + rs1.toNat * 2 ^ 18 + m.bits.toNat * 2 ^ 16 +
      rs2.toNat * 2 ^ 11 + bbb.toNat * 2 ^ 8 + j.toNat * 2 ^ 3 + y.toNat := by
  unfold encodeRRM
  simp only [BitVec.toNat_setWidth, append_toNat, ofBool_toNat, BitVec.toNat_ofNat]
  have := st.toNat_lt; have := rd.isLt; have := rs1.isLt; have := m.bits.isLt; have := rs2.isLt; have := bbb.isLt;
  have := j.isLt; have := y.isLt
  omega

theorem fields_encodeRRM (st : Bool) (rd rs1 : RegNum) (m : AddrMode) (rs2 : RegNum) (bbb : BitVec 3) (j : BitVec
    5) (y : BitVec 3) :
    let w := encodeRRM st rd rs1 m rs2 bbb j y
    (field w 28 4).toNat = 10 + st.toNat ∧ bit w 28 = st ∧ field w 23 5 = rd ∧ field w 18 5 = rs1 ∧
    field w 16 2 = m.bits ∧ field w 11 5 = rs2 ∧ field w 8 3 = bbb ∧ field w 3 5 = j ∧ field w 0 3 = y := by
  have hw := encodeRRM_toNat st rd rs1 m rs2 bbb j y
  have := st.toNat_lt; have := rd.isLt; have := rs1.isLt; have := m.bits.isLt; have := rs2.isLt; have := bbb.isLt;
  have := j.isLt; have := y.isLt
  refine ⟨(field_toNat _ _ _).trans ?_, bit_eq_of ?_, field_eq ?_, field_eq ?_, field_eq ?_, field_eq ?_, field_eq ?_,
    field_eq ?_, field_eq ?_⟩ <;>
    rw [hw] <;> omega

theorem encodeBR_toNat (d : BitVec 4) (k : BitVec 23) (r : Bool) :
    (encodeBR d k r).toNat =
      14 * 2 ^ 28 + d.toNat / 2 * 2 ^ 25 + k.toNat * 2 ^ 2 + r.toNat * 2 ^ 1 + d.toNat % 2 := by
  unfold encodeBR
  simp only [BitVec.toNat_setWidth, append_toNat, ofBool_toNat, BitVec.toNat_ofNat, BitVec.extractLsb'_toNat,
    Nat.shiftRight_eq_div_pow, Nat.pow_zero, Nat.div_one]
  have := d.isLt; have := k.isLt; have := r.toNat_lt
  have hy0 : d.toNat / 2 ^ 1 % 2 ^ 3 = d.toNat / 2 := by omega
  have hy1 : d.toNat % 2 ^ 1 = d.toNat % 2 := by omega
  rw [hy0, hy1]
  clear hy0 hy1
  have hx0 : d.toNat / 2 < 2 ^ 3 := by omega
  have hx1 : d.toNat % 2 < 2 ^ 1 := by omega
  generalize d.toNat / 2 = x0 at *
  generalize d.toNat % 2 = x1 at *
  omega

theorem fields_encodeBR (d : BitVec 4) (k : BitVec 23) (r : Bool) :
    let w := encodeBR d k r
    (field w 28 4).toNat = 14 ∧ (field w 25 3).toNat = d.toNat / 2 ∧ field w 2 23 = k ∧ bit w 1 = r ∧
    (bit w 0).toNat = d.toNat % 2 := by
  have hw := encodeBR_toNat d k r
  have := d.isLt; have := k.isLt; have := r.toNat_lt
  have hx0 : d.toNat / 2 < 2 ^ 3 := by omega
  have hx1 : d.toNat % 2 < 2 ^ 1 := by omega
  generalize d.toNat / 2 = x0 at *
  generalize d.toNat % 2 = x1 at *
  refine ⟨(field_toNat _ _ _).trans ?_, (field_toNat _ _ _).trans ?_, field_eq ?_, bit_eq_of ?_, (bit_toNat _ _).trans ?_⟩ <;>
    rw [hw] <;> omega

theorem encodeSLS_toNat (st : Bool) (rd : RegNum) (a : BitVec 21) :
    (encodeSLS st rd a).toNat =
      15 * 2 ^ 28 + rd.toNat * 2 ^ 23 + a.toNat / 65536 * 2 ^ 18 + st.toNat * 2 ^ 16 + a.toNat % 65536 := by
  unfold encodeSLS
  simp only [BitVec.toNat_setWidth, append_toNat, ofBool_toNat, BitVec.toNat_ofNat, BitVec.extractLsb'_toNat,
    Nat.shiftRight_eq_div_pow, Nat.pow_zero, Nat.div_one]
  have := rd.isLt; have := a.isLt; have := st.toNat_lt
  have hy0 : a.toNat / 2 ^ 16 % 2 ^ 5 = a.toNat / 65536 := by omega
  have hy1 : a.toNat % 2 ^ 16 = a.toNat % 65536 := by omega
  rw [hy0, hy1]
  clear hy0 hy1
  have hx0 : a.toNat / 65536 < 2 ^ 5 := by omega
  have hx1 : a.toNat % 65536 < 2 ^ 16 := by omega
  generalize a.toNat / 65536 = x0 at *
  generalize a.toNat % 65536 = x1 at *
  omega

theorem fields_encodeSLS (st : Bool) (rd : RegNum) (a : BitVec 21) :
    let w := encodeSLS st rd a
    (field w 28 4).toNat = 15 ∧ field w 23 5 = rd ∧ (field w 18 5).toNat = a.toNat / 65536 ∧
    (field w 16 2).toNat = st.toNat ∧ (field w 0 16).toNat = a.toNat % 65536 := by
  have hw := encodeSLS_toNat st rd a
  have := rd.isLt; have := a.isLt; have := st.toNat_lt
  have hx0 : a.toNat / 65536 < 2 ^ 5 := by omega
  have hx1 : a.toNat % 65536 < 2 ^ 16 := by omega
  generalize a.toNat / 65536 = x0 at *
  generalize a.toNat % 65536 = x1 at *
  refine ⟨(field_toNat _ _ _).trans ?_, field_eq ?_, (field_toNat _ _ _).trans ?_, (field_toNat _ _ _).trans ?_,
    (field_toNat _ _ _).trans ?_⟩ <;>
    rw [hw] <;> omega

theorem encodeSLI_toNat (rd : RegNum) (k : BitVec 21) :
    (encodeSLI rd k).toNat =
      15 * 2 ^ 28 + rd.toNat * 2 ^ 23 + k.toNat / 65536 * 2 ^ 18 + 2 * 2 ^ 16 + k.toNat % 65536 := by
  unfold encodeSLI
  simp only [BitVec.toNat_setWidth, append_toNat, BitVec.toNat_ofNat, BitVec.extractLsb'_toNat,
    Nat.shiftRight_eq_div_pow, Nat.pow_zero, Nat.div_one]
  have := rd.isLt; have := k.isLt
  have hy0 : k.toNat / 2 ^ 16 % 2 ^ 5 = k.toNat / 65536 := by omega
  have hy1 : k.toNat % 2 ^ 16 = k.toNat % 65536 := by omega
  rw [hy0, hy1]
  clear hy0 hy1
  have hx0 : k.toNat / 65536 < 2 ^ 5 := by omega
  have hx1 : k.toNat % 65536 < 2 ^ 16 := by omega
  generalize k.toNat / 65536 = x0 at *
  generalize k.toNat % 65536 = x1 at *
  omega

theorem fields_encodeSLI (rd : RegNum) (k : BitVec 21) :
    let w := encodeSLI rd k
    (field w 28 4).toNat = 15 ∧ field w 23 5 = rd ∧ (field w 18 5).toNat = k.toNat / 65536 ∧
    (field w 16 2).toNat = 2 ∧ (field w 0 16).toNat = k.toNat % 65536 := by
  have hw := encodeSLI_toNat rd k
  have := rd.isLt; have := k.isLt
  have hx0 : k.toNat / 65536 < 2 ^ 5 := by omega
  have hx1 : k.toNat % 65536 < 2 ^ 16 := by omega
  generalize k.toNat / 65536 = x0 at *
  generalize k.toNat % 65536 = x1 at *
  refine ⟨(field_toNat _ _ _).trans ?_, field_eq ?_, (field_toNat _ _ _).trans ?_, (field_toNat _ _ _).trans ?_,
    (field_toNat _ _ _).trans ?_⟩ <;>
    rw [hw] <;> omega

theorem encodeSPLS_toNat (rd rs1 : RegNum) (y st e : Bool) (m : AddrMode) (k : BitVec 10) :
    (encodeSPLS rd rs1 y st e m k).toNat =
      15 * 2 ^ 28 + rd.toNat * 2 ^ 23 + rs1.toNat * 2 ^ 18 + 6 * 2 ^ 15 + y.toNat * 2 ^ 14 + st.toNat * 2 ^ 13 +
      e.toNat * 2 ^ 12 + m.bits.toNat * 2 ^ 10 + k.toNat := by
  unfold encodeSPLS
  simp only [BitVec.toNat_setWidth, append_toNat, ofBool_toNat, BitVec.toNat_ofNat]
  have := rd.isLt; have := rs1.isLt; have := y.toNat_lt; have := st.toNat_lt; have := e.toNat_lt; have :=
  m.bits.isLt; have := k.isLt
  omega

theorem fields_encodeSPLS (rd rs1 : RegNum) (y st e : Bool) (m : AddrMode) (k : BitVec 10) :
    let w := encodeSPLS rd rs1 y st e m k
    (field w 28 4).toNat = 15 ∧ (field w 16 2).toNat = 3 ∧ bit w 15 = false ∧ field w 23 5 = rd ∧
    field w 18 5 = rs1 ∧ bit w 14 = y ∧ bit w 13 = st ∧ bit w 12 = e ∧ field w 10 2 = m.bits ∧ field w 0 10 = k := by
  have hw := encodeSPLS_toNat rd rs1 y st e m k
  have := rd.isLt; have := rs1.isLt; have := y.toNat_lt; have := st.toNat_lt; have := e.toNat_lt; have :=
  m.bits.isLt; have := k.isLt
  refine ⟨(field_toNat _ _ _).trans ?_, (field_toNat _ _ _).trans ?_, bit_eq_of ?_, field_eq ?_, field_eq ?_, bit_eq_of ?_,
    bit_eq_of ?_, bit_eq_of ?_, field_eq ?_, field_eq ?_⟩ <;>
    rw [hw] <;> (try simp only [Bool.toNat_false]) <;> omega

theorem encodeSBR_toNat (d : BitVec 4) (rs1 rs3 : RegNum) :
    (encodeSBR d rs1 rs3).toNat =
      15 * 2 ^ 28 + d.toNat / 2 * 2 ^ 25 + rs1.toNat * 2 ^ 18 + 960 * 2 ^ 8 + rs3.toNat * 2 ^ 3 + d.toNat % 2 := by
  unfold encodeSBR
  simp only [BitVec.toNat_setWidth, append_toNat, BitVec.toNat_ofNat, BitVec.extractLsb'_toNat,
    Nat.shiftRight_eq_div_pow, Nat.pow_zero, Nat.div_one]
  have := d.isLt; have := rs1.isLt; have := rs3.isLt
  have hy0 : d.toNat / 2 ^ 1 % 2 ^ 3 = d.toNat / 2 := by omega
  have hy1 : d.toNat % 2 ^ 1 = d.toNat % 2 := by omega
  rw [hy0, hy1]
  clear hy0 hy1
  have hx0 : d.toNat / 2 < 2 ^ 3 := by omega
  have hx1 : d.toNat % 2 < 2 ^ 1 := by omega
  generalize d.toNat / 2 = x0 at *
  generalize d.toNat % 2 = x1 at *
  omega

theorem fields_encodeSBR (d : BitVec 4) (rs1 rs3 : RegNum) :
    let w := encodeSBR d rs1 rs3
    (field w 28 4).toNat = 15 ∧ (field w 16 2).toNat = 3 ∧ bit w 15 = true ∧ field w 8 7 = 0x40#7 ∧
    field w 1 2 = 0#2 ∧ field w 23 2 = 0#2 ∧ (field w 25 3).toNat = d.toNat / 2 ∧ (bit w 0).toNat = d.toNat % 2 ∧
    field w 18 5 = rs1 ∧ field w 3 5 = rs3 := by
  have hw := encodeSBR_toNat d rs1 rs3
  have := d.isLt; have := rs1.isLt; have := rs3.isLt
  have hx0 : d.toNat / 2 < 2 ^ 3 := by omega
  have hx1 : d.toNat % 2 < 2 ^ 1 := by omega
  generalize d.toNat / 2 = x0 at *
  generalize d.toNat % 2 = x1 at *
  refine ⟨(field_toNat _ _ _).trans ?_, (field_toNat _ _ _).trans ?_, bit_eq_of ?_, field_eq ?_, field_eq ?_, field_eq ?_,
    (field_toNat _ _ _).trans ?_, (bit_toNat _ _).trans ?_, field_eq ?_, field_eq ?_⟩ <;>
    rw [hw] <;> (try simp only [BitVec.toNat_ofNat, Bool.toNat_true]) <;> omega

end Sys2Proof
end

