-- ==== Sys2Proof/Laws/Memory.lean ====
section
/-! SUPPORT. Memory: a byte read after a write, the canonical form, and the bytes a store changes (R62 to R64). -/

namespace Sys2Proof.Machine

theorem Memory.lookup_insert (m : Memory) (a : Nat) (b : Byte) (x : Nat) :
    (m.insert a b).lookup x = if x = a then some b else m.lookup x := by
  induction m with
  | nil => simp [Memory.insert, Memory.lookup]
  | cons p m ih =>
    obtain ⟨k, u⟩ := p
    simp only [Memory.insert]
    split
    · simp [Memory.lookup]
    · split
      · subst_vars; simp only [Memory.lookup]; split <;> rfl
      · simp only [Memory.lookup, ih]
        split <;> split <;> simp_all

theorem Memory.mem_insert {m : Memory} {a : Nat} {b : Byte} {p : Host.Cell} (h : p ∈ m.insert a b) :
    p = (a, b) ∨ p ∈ m := by
  induction m with
  | nil => simp_all [Memory.insert]
  | cons q m ih =>
    obtain ⟨k, u⟩ := q
    simp only [Memory.insert] at h
    split at h
    · simpa using h
    · split at h <;> simp only [List.mem_cons] at h ⊢
      · rcases h with h | h <;> simp [h]
      · rcases h with h | h
        · simp [h]
        · rcases ih h with h | h <;> simp [h]

/-- A write keeps the canonical form. -/
theorem Memory.wf_insert {m : Memory} (h : m.wf) {a : Nat} (ha : a < 0x100000000) (b : Byte) : (m.insert a b).wf := by
  refine ⟨?_, fun p hp => ?_⟩
  · obtain ⟨hs, -⟩ := h
    induction m with
    | nil => simp [Memory.insert]
    | cons q m ih =>
      obtain ⟨k, u⟩ := q
      obtain ⟨hk, hm⟩ := List.pairwise_cons.1 hs
      simp only [Memory.insert]
      split
      · refine List.pairwise_cons.2 ⟨fun p hp => ?_, hs⟩
        rcases List.mem_cons.1 hp with rfl | hp
        · assumption
        · have := hk p hp; simp only at this ⊢; omega
      · split
        · subst_vars; exact List.pairwise_cons.2 ⟨hk, hm⟩
        · refine List.pairwise_cons.2 ⟨fun p hp => ?_, ih hm⟩
          rcases Memory.mem_insert hp with rfl | hp
          · simp only; omega
          · exact hk p hp
  · rcases Memory.mem_insert hp with rfl | hp
    · exact ha
    · exact h.2 p hp

theorem wf_setByte {m : Memory} (h : m.wf) (a : Word) (b : Byte) : (setByte m a b).wf :=
  Memory.wf_insert h a.isLt b

/-- Every memory operation keeps the canonical form. -/
theorem wf_memWrite {m : Memory} (h : m.wf) (ea : Word) (n : Width) (v : Word) : (memWrite m ea n v).wf := by
  cases n
  · exact wf_setByte h _ _
  · exact wf_setByte (wf_setByte h _ _) _ _
  · exact wf_setByte (wf_setByte (wf_setByte (wf_setByte h _ _) _ _) _ _) _ _

theorem wf_memAfter {s : State} (h : s.mem.wf) : (memAfter s).wf := by
  unfold memAfter
  split
  · exact wf_memWrite h _ _ _
  all_goals exact h

/-- A read after a write of one byte. -/
theorem byteAt_setByte (m : Memory) (a x : Word) (b : Byte) :
    byteAt (setByte m a b) x = if x = a then b else byteAt m x := by
  simp only [byteAt, setByte, Memory.lookup_insert, ← BitVec.toNat_inj]
  split <;> rfl

/-! ## The aligned address and the bytes behind it -/

/-- Clearing the low `n` bits of a word is rounding its value down to a multiple of `2 ^ n`. -/
theorem toNat_and_clear (a m : Word) (n : Nat) (hm : ∀ i < 32, m.getLsbD i = decide (n ≤ i)) :
    (a &&& m).toNat = a.toNat / 2 ^ n * 2 ^ n := by
  have hlt : a.toNat / 2 ^ n * 2 ^ n < 2 ^ 32 := Nat.lt_of_le_of_lt (Nat.div_mul_le_self _ _) a.isLt
  have : a &&& m = BitVec.ofNat 32 (a.toNat / 2 ^ n * 2 ^ n) := by
    apply BitVec.eq_of_getLsbD_eq
    intro i hi
    rw [BitVec.getLsbD_and, BitVec.getLsbD_ofNat, hm i hi, ← Nat.shiftLeft_eq, ← Nat.shiftRight_eq_div_pow,
      Nat.testBit_shiftLeft, Nat.testBit_shiftRight]
    by_cases h : n ≤ i
    · simp [h, hi, BitVec.getLsbD, Nat.add_sub_cancel' h]
    · simp [h]
  rw [this, BitVec.toNat_ofNat, Nat.mod_eq_of_lt hlt]

/-- The aligned address is the largest multiple of the access size that is not above the address (R64). -/
theorem alignTo_toNat (n : Width) (a : Word) : (alignTo n a).toNat = a.toNat - a.toNat % n.bytes := by
  cases n
  · simp [alignTo, Width.bytes, Nat.mod_one]
  · rw [alignTo, toNat_and_clear a _ 1 (by decide)]; simp only [Width.bytes]; omega
  · rw [alignTo, toNat_and_clear a _ 2 (by decide)]; simp only [Width.bytes]; omega

theorem alignTo_add_toNat (n : Width) (a : Word) (k : Nat) (hk : k < n.bytes) :
    (alignTo n a + BitVec.ofNat 32 k).toNat = (alignTo n a).toNat + k := by
  have := a.isLt
  rw [BitVec.toNat_add, BitVec.toNat_ofNat, alignTo_toNat]
  cases n <;> simp only [Width.bytes] at hk ⊢ <;> omega

theorem storedByte_inside {ea data a : Word} {n : Width} {k : Nat} (hk : k < n.bytes)
    (h : a.toNat = (alignTo n ea).toNat + k) :
    (if (alignTo n ea).toNat ≤ a.toNat ∧ a.toNat < (alignTo n ea).toNat + n.bytes then
      some (data.extractLsb' (8 * (n.bytes - 1 - (a.toNat - (alignTo n ea).toNat))) 8) else none) =
    some (data.extractLsb' (8 * (n.bytes - 1 - k)) 8) := by
  rw [if_pos (by omega), h, Nat.add_sub_cancel_left]

/-- A store changes exactly the bytes of `pendingStoreByte`. -/
theorem byteAt_memAfter (s : State) (a : Word) :
    byteAt (memAfter s) a = (pendingStoreByte s a).getD (byteAt s.mem a) := by
  unfold memAfter pendingStoreByte
  cases (s.ctx s.cur).ms with
  | idle => rfl
  | load => rfl
  | imm => rfl
  | store ea n data =>
    have e0 : ∀ k < n.bytes, (a = alignTo n ea + BitVec.ofNat 32 k) ↔ a.toNat = (alignTo n ea).toNat + k := by
      intro k hk; rw [← BitVec.toNat_inj, alignTo_add_toNat n ea k hk]
    have hin : ∀ k < n.bytes, a.toNat = (alignTo n ea).toNat + k → _ := fun k hk h =>
      storedByte_inside (data := data) hk h
    simp only
    cases n
    · have h0 := e0 0 (by decide)
      simp only [BitVec.add_zero, Nat.add_zero] at h0
      simp only [memWrite, byteAt_setByte, h0]
      split
      · rw [hin 0 (by decide) (by omega)]; rfl
      · rw [if_neg (by simp only [Width.bytes]; omega)]; rfl
    · have h0 := e0 0 (by decide)
      have h1 := e0 1 (by decide)
      simp only [BitVec.add_zero, Nat.add_zero] at h0 h1
      simp only [memWrite, byteAt_setByte, h0, h1]
      split
      · rw [hin 1 (by decide) (by omega)]; rfl
      · split
        · rw [hin 0 (by decide) (by omega)]; rfl
        · rw [if_neg (by simp only [Width.bytes]; omega)]; rfl
    · have h0 := e0 0 (by decide)
      have h1 := e0 1 (by decide)
      have h2 := e0 2 (by decide)
      have h3 := e0 3 (by decide)
      simp only [BitVec.add_zero, Nat.add_zero] at h0 h1 h2 h3
      simp only [memWrite, byteAt_setByte, h0, h1, h2, h3]
      split
      · rw [hin 3 (by decide) (by omega)]; rfl
      · split
        · rw [hin 2 (by decide) (by omega)]; rfl
        · split
          · rw [hin 1 (by decide) (by omega)]; rfl
          · split
            · rw [hin 0 (by decide) (by omega)]; rfl
            · rw [if_neg (by simp only [Width.bytes]; omega)]; rfl

end Sys2Proof.Machine
end

