-- ==== Sys2Proof/Laws/State.lean ====
section
/-! SUPPORT. One lemma for each field and each update of the state, so that no later proof unfolds a record update. -/

namespace Sys2Proof.Machine

@[simp] theorem Context.other_other (c : Context) : c.other.other = c := by cases c <;> rfl
@[simp] theorem Context.other_ne (c : Context) : c.other ≠ c := by cases c <;> decide
@[simp] theorem Context.ne_other (c : Context) : c ≠ c.other := by cases c <;> decide

theorem Context.eq_or_other (c d : Context) : d = c ∨ d = c.other := by cases c <;> cases d <;> decide

/-! ## Replacing a context's own part -/

@[simp] theorem ctx_setCtx_same (s : State) (c : Context) (x : CtxState) : (s.setCtx c x).ctx c = x := by cases c <;> rfl
@[simp] theorem ctx_setCtx_other (s : State) (c : Context) (x : CtxState) :
    (s.setCtx c x).ctx c.other = s.ctx c.other := by cases c <;> rfl
@[simp] theorem ctx_setCtx_of_other (s : State) (c : Context) (x : CtxState) :
    (s.setCtx c.other x).ctx c = s.ctx c := by cases c <;> rfl
@[simp] theorem setCtx_cur (s : State) (c : Context) (x : CtxState) : (s.setCtx c x).cur = s.cur := by cases c <;> rfl
@[simp] theorem setCtx_gpr (s : State) (c : Context) (x : CtxState) : (s.setCtx c x).gpr = s.gpr := by cases c <;> rfl
@[simp] theorem setCtx_imr (s : State) (c : Context) (x : CtxState) : (s.setCtx c x).imr = s.imr := by cases c <;> rfl
@[simp] theorem setCtx_isr (s : State) (c : Context) (x : CtxState) : (s.setCtx c x).isr = s.isr := by cases c <;> rfl
@[simp] theorem setCtx_mem (s : State) (c : Context) (x : CtxState) : (s.setCtx c x).mem = s.mem := by cases c <;> rfl
@[simp] theorem setCtx_params (s : State) (c : Context) (x : CtxState) : (s.setCtx c x).params = s.params := by
  cases c <;> rfl
@[simp] theorem setCtx_isrInputs (s : State) (c : Context) (x : CtxState) :
    (s.setCtx c x).isrInputs = s.isrInputs := by cases c <;> rfl
@[simp] theorem setCtx_tick (s : State) (c : Context) (x : CtxState) : (s.setCtx c x).tick = s.tick := by cases c <;> rfl

/-! ## The other updates leave the contexts' own parts -/

@[simp] theorem ctx_with_imr (s : State) (v : Word) (c : Context) : ({ s with imr := v } : State).ctx c = s.ctx c := by
  cases c <;> rfl
@[simp] theorem ctx_with_gpr (s : State) (g : Vector Word 24) (c : Context) :
    ({ s with gpr := g } : State).ctx c = s.ctx c := by cases c <;> rfl

/-! ## Replacing memory -/

@[simp] theorem setMem_ctx (s : State) (m : Memory) (c : Context) : (s.setMem m).ctx c = s.ctx c := by cases c <;> rfl
@[simp] theorem setMem_cur (s : State) (m : Memory) : (s.setMem m).cur = s.cur := rfl
@[simp] theorem setMem_gpr (s : State) (m : Memory) : (s.setMem m).gpr = s.gpr := rfl
@[simp] theorem setMem_imr (s : State) (m : Memory) : (s.setMem m).imr = s.imr := rfl
@[simp] theorem setMem_isr (s : State) (m : Memory) : (s.setMem m).isr = s.isr := rfl
@[simp] theorem setMem_mem (s : State) (m : Memory) : (s.setMem m).mem = m := rfl
@[simp] theorem setMem_params (s : State) (m : Memory) : (s.setMem m).params = s.params := rfl
@[simp] theorem setMem_isrInputs (s : State) (m : Memory) : (s.setMem m).isrInputs = s.isrInputs := rfl
@[simp] theorem setMem_tick (s : State) (m : Memory) : (s.setMem m).tick = s.tick := rfl

/-! ## The environment -/

@[simp] theorem environment_ctx (s : State) (c : Context) : (environment s).ctx c = s.ctx c := by cases c <;> rfl
@[simp] theorem environment_cur (s : State) : (environment s).cur = s.cur := rfl
@[simp] theorem environment_gpr (s : State) : (environment s).gpr = s.gpr := rfl
@[simp] theorem environment_imr (s : State) : (environment s).imr = s.imr := rfl
@[simp] theorem environment_isr (s : State) : (environment s).isr = isrNext s := rfl
@[simp] theorem environment_mem (s : State) : (environment s).mem = s.mem := rfl
@[simp] theorem environment_params (s : State) : (environment s).params = s.params := rfl
@[simp] theorem environment_isrInputs (s : State) : (environment s).isrInputs = s.isrInputs.tail := rfl
@[simp] theorem environment_tick (s : State) : (environment s).tick = s.tick + 1 := rfl

/-! ## The latches -/

@[simp] theorem latch_ctx_same (s : State) (w : Word) (o : MemOp) :
    (latch s w o).ctx s.cur = { s.ctx s.cur with ir := .word w, ms := o } := by simp [latch]
@[simp] theorem latch_ctx_other (s : State) (w : Word) (o : MemOp) :
    (latch s w o).ctx s.cur.other = s.ctx s.cur.other := by simp [latch]
@[simp] theorem latch_cur (s : State) (w : Word) (o : MemOp) : (latch s w o).cur = s.cur := by simp [latch]
@[simp] theorem latch_gpr (s : State) (w : Word) (o : MemOp) : (latch s w o).gpr = s.gpr := by simp [latch]
@[simp] theorem latch_imr (s : State) (w : Word) (o : MemOp) : (latch s w o).imr = s.imr := by simp [latch]
@[simp] theorem latch_mem (s : State) (w : Word) (o : MemOp) : (latch s w o).mem = s.mem := by simp [latch]
@[simp] theorem latch_params (s : State) (w : Word) (o : MemOp) : (latch s w o).params = s.params := by simp [latch]
@[simp] theorem latch_isrInputs (s : State) (w : Word) (o : MemOp) : (latch s w o).isrInputs = s.isrInputs := by
  simp [latch]
@[simp] theorem latch_tick (s : State) (w : Word) (o : MemOp) : (latch s w o).tick = s.tick := by simp [latch]

/-! ## The context switch -/

theorem switchContext_eq (p : Bool) (s : State) : ∃ c, switchContext p s = { s with cur := c } := by
  unfold switchContext
  split
  · exact ⟨_, rfl⟩
  · split
    · exact ⟨_, rfl⟩
    · exact ⟨s.cur, rfl⟩

@[simp] theorem switchContext_ctx (p : Bool) (s : State) (c : Context) : (switchContext p s).ctx c = s.ctx c := by
  obtain ⟨d, h⟩ := switchContext_eq p s; rw [h]; cases c <;> rfl
@[simp] theorem switchContext_gpr (p : Bool) (s : State) : (switchContext p s).gpr = s.gpr := by
  obtain ⟨d, h⟩ := switchContext_eq p s; rw [h]
@[simp] theorem switchContext_imr (p : Bool) (s : State) : (switchContext p s).imr = s.imr := by
  obtain ⟨d, h⟩ := switchContext_eq p s; rw [h]
@[simp] theorem switchContext_isr (p : Bool) (s : State) : (switchContext p s).isr = s.isr := by
  obtain ⟨d, h⟩ := switchContext_eq p s; rw [h]
@[simp] theorem switchContext_mem (p : Bool) (s : State) : (switchContext p s).mem = s.mem := by
  obtain ⟨d, h⟩ := switchContext_eq p s; rw [h]
@[simp] theorem switchContext_params (p : Bool) (s : State) : (switchContext p s).params = s.params := by
  obtain ⟨d, h⟩ := switchContext_eq p s; rw [h]
@[simp] theorem switchContext_isrInputs (p : Bool) (s : State) : (switchContext p s).isrInputs = s.isrInputs := by
  obtain ⟨d, h⟩ := switchContext_eq p s; rw [h]
@[simp] theorem switchContext_tick (p : Bool) (s : State) : (switchContext p s).tick = s.tick := by
  obtain ⟨d, h⟩ := switchContext_eq p s; rw [h]

end Sys2Proof.Machine
end

