-- ==== Sys2Proof/Laws/Registers.lean ====
section
/-! SUPPORT. What a register write does to every location (R34), and what the end of a time step leaves in each (R136). -/

namespace Sys2Proof.Machine

/-- The two numberings of `G` name 24 different registers (R28). -/
theorem phys_inj (c : Context) (i j : RegNum) (hi : 4 ≤ i.toNat ∧ i.toNat ≤ 27) (hj : 4 ≤ j.toNat ∧ j.toNat ≤ 27)
    (h : (phys c i).val = (phys c j).val) : i = j := by
  apply BitVec.eq_of_toNat_eq
  cases c <;> simp only [phys] at h <;> omega

/-- The reversal (R28): `r(i)` of one context is `r(31 - i)` of the other. -/
theorem phys_other (c : Context) (i : RegNum) (hi : 4 ≤ i.toNat ∧ i.toNat ≤ 27) :
    phys c.other i = phys c (31#5 - i) := by
  have e : (31#5 - i).toNat = 31 - i.toNat := by
    rw [BitVec.toNat_sub]; simp; omega
  cases c <;> simp only [Context.other, phys, e, Fin.mk.injEq] <;> omega

/-- A general register number is none of the special ones. -/
theorem general_ne {i : RegNum} (hi : 4 ≤ i.toNat ∧ i.toNat ≤ 27) :
    i ≠ 0#5 ∧ i ≠ 1#5 ∧ i ≠ 2#5 ∧ i ≠ 3#5 ∧ i ≠ 28#5 ∧ i ≠ 29#5 ∧ i ≠ 30#5 ∧ i ≠ 31#5 := by
  refine ⟨?_, ?_, ?_, ?_, ?_, ?_, ?_, ?_⟩ <;> rintro rfl <;> simp at hi

/-- A register number that is none of the special ones is general. -/
theorem general_of_ne {i : RegNum} (h : i ≠ 0#5 ∧ i ≠ 1#5 ∧ i ≠ 2#5 ∧ i ≠ 3#5 ∧ i ≠ 28#5 ∧ i ≠ 29#5 ∧ i ≠ 30#5 ∧ i ≠ 31#5) :
    4 ≤ i.toNat ∧ i.toNat ≤ 27 := by
  obtain ⟨h0, h1, h2, h3, h4, h5, h6, h7⟩ := h
  simp only [ne_eq, ← BitVec.toNat_inj, BitVec.toNat_ofNat] at h0 h1 h2 h3 h4 h5 h6 h7
  have := i.isLt
  omega

theorem readReg_general (s : State) (c : Context) (i : RegNum) (hi : 4 ≤ i.toNat ∧ i.toNat ≤ 27) :
    readReg s c i = s.gpr[phys c i] := by
  obtain ⟨h0, h1, h2, h3, h4, h5, h6, h7⟩ := general_ne hi
  simp [readReg, h0, h1, h2, h3, h4, h5, h6, h7]

/-! ## One register write, location by location -/

section Write
variable (s : State) (c : Context) (i : RegNum) (v : Word)

@[simp] theorem writeReg_cur : (writeReg s c i v).cur = s.cur := by unfold writeReg; (repeat' split) <;> simp
@[simp] theorem writeReg_mem : (writeReg s c i v).mem = s.mem := by unfold writeReg; (repeat' split) <;> simp
@[simp] theorem writeReg_isr : (writeReg s c i v).isr = s.isr := by unfold writeReg; (repeat' split) <;> simp
@[simp] theorem writeReg_params : (writeReg s c i v).params = s.params := by unfold writeReg; (repeat' split) <;> simp
@[simp] theorem writeReg_isrInputs : (writeReg s c i v).isrInputs = s.isrInputs := by
  unfold writeReg; (repeat' split) <;> simp
@[simp] theorem writeReg_tick : (writeReg s c i v).tick = s.tick := by unfold writeReg; (repeat' split) <;> simp

@[simp] theorem writeReg_latches (d : Context) :
    ((writeReg s c i v).ctx d).ir = (s.ctx d).ir ∧ ((writeReg s c i v).ctx d).ms = (s.ctx d).ms := by
  obtain rfl | rfl := Context.eq_or_other c d <;> unfold writeReg <;> constructor <;> (repeat' split) <;> simp
@[simp] theorem writeReg_ir (d : Context) : ((writeReg s c i v).ctx d).ir = (s.ctx d).ir := (writeReg_latches s c i v d).1
@[simp] theorem writeReg_ms (d : Context) : ((writeReg s c i v).ctx d).ms = (s.ctx d).ms := (writeReg_latches s c i v d).2

theorem writeReg_pc : ((writeReg s c i v).ctx c).pc = if i = 2#5 then pcValue v else (s.ctx c).pc := by
  unfold writeReg; (repeat' split) <;> simp_all

theorem writeReg_altPc :
    ((writeReg s c i v).ctx c.other).pc = if i = 29#5 then pcValue v else (s.ctx c.other).pc := by
  unfold writeReg; (repeat' split) <;> simp_all

theorem writeReg_flags :
    ((writeReg s c i v).ctx c).flags = if i = 3#5 then flagsOfPs v else (s.ctx c).flags := by
  unfold writeReg; (repeat' split) <;> simp_all

theorem writeReg_altFlags :
    ((writeReg s c i v).ctx c.other).flags = if i = 28#5 then flagsOfPs v else (s.ctx c.other).flags := by
  unfold writeReg; (repeat' split) <;> simp_all

theorem writeReg_imr : (writeReg s c i v).imr = if i = 30#5 then v else s.imr := by
  unfold writeReg; (repeat' split) <;> simp_all

theorem writeReg_gpr (j : RegNum) (hj : 4 ≤ j.toNat ∧ j.toNat ≤ 27) :
    (writeReg s c i v).gpr[phys c j] = if i = j then v else s.gpr[phys c j] := by
  obtain ⟨h0, h1, h2, h3, h4, h5, h6, h7⟩ := general_ne hj
  by_cases hi : 4 ≤ i.toNat ∧ i.toNat ≤ 27
  · obtain ⟨g0, g1, g2, g3, g4, g5, g6, g7⟩ := general_ne hi
    simp only [writeReg, g0, g1, g2, g3, g4, g5, g6, g7, if_false]
    by_cases e : i = j
    · subst e; simp
    · have : (phys c i).val ≠ (phys c j).val := fun h => e (phys_inj c i j hi hj h)
      simp only [Fin.getElem_fin, e, if_false]
      rw [Vector.getElem_set_ne _ _ this]
  · have e : i ≠ j := by rintro rfl; exact hi hj
    have : (writeReg s c i v).gpr = s.gpr := by
      unfold writeReg
      split; · rfl
      split; · rfl
      split; · simp
      split; · simp
      split; · simp
      split; · simp
      split; · rfl
      split; · rfl
      exact absurd (general_of_ne ⟨‹_›, ‹_›, ‹_›, ‹_›, ‹_›, ‹_›, ‹_›, ‹_›⟩) hi
    simp [this, e]

end Write

/-! ## The two ports together: the compute port's value before the load port's -/

section Ports
variable (s : State) (c : Context) (lw cw : Option (RegNum × Word))

theorem ports_cur : (writePort (writePort s c lw) c cw).cur = s.cur := by
  rcases lw with _ | ⟨i, v⟩ <;> rcases cw with _ | ⟨j, u⟩ <;> simp [writePort]
theorem ports_mem : (writePort (writePort s c lw) c cw).mem = s.mem := by
  rcases lw with _ | ⟨i, v⟩ <;> rcases cw with _ | ⟨j, u⟩ <;> simp [writePort]
theorem ports_isr : (writePort (writePort s c lw) c cw).isr = s.isr := by
  rcases lw with _ | ⟨i, v⟩ <;> rcases cw with _ | ⟨j, u⟩ <;> simp [writePort]
theorem ports_params : (writePort (writePort s c lw) c cw).params = s.params := by
  rcases lw with _ | ⟨i, v⟩ <;> rcases cw with _ | ⟨j, u⟩ <;> simp [writePort]
theorem ports_isrInputs : (writePort (writePort s c lw) c cw).isrInputs = s.isrInputs := by
  rcases lw with _ | ⟨i, v⟩ <;> rcases cw with _ | ⟨j, u⟩ <;> simp [writePort]
theorem ports_tick : (writePort (writePort s c lw) c cw).tick = s.tick := by
  rcases lw with _ | ⟨i, v⟩ <;> rcases cw with _ | ⟨j, u⟩ <;> simp [writePort]
theorem ports_ir (d : Context) : ((writePort (writePort s c lw) c cw).ctx d).ir = (s.ctx d).ir := by
  rcases lw with _ | ⟨i, v⟩ <;> rcases cw with _ | ⟨j, u⟩ <;> simp [writePort]
theorem ports_ms (d : Context) : ((writePort (writePort s c lw) c cw).ctx d).ms = (s.ctx d).ms := by
  rcases lw with _ | ⟨i, v⟩ <;> rcases cw with _ | ⟨j, u⟩ <;> simp [writePort]

theorem ports_pc : ((writePort (writePort s c lw) c cw).ctx c).pc =
    ((lands cw lw 2#5).map pcValue).getD (s.ctx c).pc := by
  rcases lw with _ | ⟨i, v⟩ <;> rcases cw with _ | ⟨j, u⟩ <;>
    simp only [writePort, lands, writeReg_pc, Option.filter, Option.map, Option.getD] <;> (repeat' split) <;> simp_all
theorem ports_altPc : ((writePort (writePort s c lw) c cw).ctx c.other).pc =
    ((lands cw lw 29#5).map pcValue).getD (s.ctx c.other).pc := by
  rcases lw with _ | ⟨i, v⟩ <;> rcases cw with _ | ⟨j, u⟩ <;>
    simp only [writePort, lands, writeReg_altPc, Option.filter, Option.map, Option.getD] <;> (repeat' split) <;> simp_all
theorem ports_flags : ((writePort (writePort s c lw) c cw).ctx c).flags =
    ((lands cw lw 3#5).map flagsOfPs).getD (s.ctx c).flags := by
  rcases lw with _ | ⟨i, v⟩ <;> rcases cw with _ | ⟨j, u⟩ <;>
    simp only [writePort, lands, writeReg_flags, Option.filter, Option.map, Option.getD] <;> (repeat' split) <;> simp_all
theorem ports_altFlags : ((writePort (writePort s c lw) c cw).ctx c.other).flags =
    ((lands cw lw 28#5).map flagsOfPs).getD (s.ctx c.other).flags := by
  rcases lw with _ | ⟨i, v⟩ <;> rcases cw with _ | ⟨j, u⟩ <;>
    simp only [writePort, lands, writeReg_altFlags, Option.filter, Option.map, Option.getD] <;> (repeat' split) <;> simp_all
theorem ports_imr : (writePort (writePort s c lw) c cw).imr = (lands cw lw 30#5).getD s.imr := by
  rcases lw with _ | ⟨i, v⟩ <;> rcases cw with _ | ⟨j, u⟩ <;>
    simp only [writePort, lands, writeReg_imr, Option.filter, Option.map, Option.getD] <;> (repeat' split) <;> simp_all
theorem ports_gpr (j : RegNum) (hj : 4 ≤ j.toNat ∧ j.toNat ≤ 27) :
    (writePort (writePort s c lw) c cw).gpr[phys c j] = (lands cw lw j).getD s.gpr[phys c j] := by
  rcases lw with _ | ⟨i, v⟩ <;> rcases cw with _ | ⟨k, u⟩ <;>
    simp only [writePort, lands, writeReg_gpr _ _ _ _ j hj, Option.filter, Option.map, Option.getD] <;>
    (repeat' split) <;> simp_all

end Ports

end Sys2Proof.Machine
end

