-- ==== Sys2Proof/Laws/TimeStep.lean ====
section
/-! SUPPORT. What one time step can do, said once (R136, R137): every claim about an instruction cites these lemmas and
unfolds nothing of the time step. -/

namespace Sys2Proof.Machine

theorem getLsbD_isrValue (s : State) : (isrValue s).getLsbD s.params.dbgBit.val = true := by
  simp [isrValue]

/-- The interrupt request is `(ISR & IMR) != 0` (R362). -/
theorem interruptRequest_iff (s : State) : interruptRequest s = true ↔ isrValue s &&& s.imr ≠ 0#32 := by
  unfold interruptRequest
  simp only [Bool.and_eq_true, bne_iff_ne, Bool.or_eq_true]
  constructor
  · rintro ⟨-, h | h⟩
    · intro e
      have e' := congrArg (fun w => w.getLsbD s.params.dbgBit.val) e
      simp only [BitVec.getLsbD_and, getLsbD_isrValue, h, BitVec.getLsbD_zero] at e'
      simp at e'
    · exact h
  · intro h
    refine ⟨?_, .inr h⟩
    intro e; simp [e] at h

/-! ## The end of a time step -/

section Commit
variable (s : State) (lw cw : Option (RegNum × Word)) (fl : Option Flags)

theorem incrementPc_cur : (incrementPc s).cur = s.cur := by simp [incrementPc]

theorem incrementPc_ctx_other : (incrementPc s).ctx s.cur.other = s.ctx s.cur.other := by simp [incrementPc]

theorem updateFlags_cur (t : State) : (updateFlags t fl).cur = t.cur := by cases fl <;> simp [updateFlags]

theorem commit_cur : (commit s lw cw fl).cur = s.cur := by
  simp [commit, updateFlags_cur, ports_cur, incrementPc_cur]

theorem updateFlags_ctx_other (t : State) : (updateFlags t fl).ctx t.cur.other = t.ctx t.cur.other := by
  cases fl <;> simp [updateFlags]

theorem updateFlags_ctx_same (t : State) :
    (updateFlags t fl).ctx t.cur = { t.ctx t.cur with flags := fl.getD (t.ctx t.cur).flags } := by
  cases fl <;> simp [updateFlags]

theorem updateFlags_rest (t : State) : (updateFlags t fl).gpr = t.gpr ∧ (updateFlags t fl).imr = t.imr ∧
    (updateFlags t fl).mem = t.mem ∧ (updateFlags t fl).params = t.params ∧
    (updateFlags t fl).isrInputs = t.isrInputs ∧ (updateFlags t fl).tick = t.tick := by
  cases fl <;> simp [updateFlags]

/-- The executing context's own part after the writes of a time step. -/
theorem commit_ctx_same : (commit s lw cw fl).ctx s.cur =
    { pc := ((lands cw lw 2#5).map pcValue).getD ((s.ctx s.cur).pc + 4#32)
      flags := fl.getD (((lands cw lw 3#5).map flagsOfPs).getD (s.ctx s.cur).flags)
      ir := (s.ctx s.cur).ir
      ms := (s.ctx s.cur).ms } := by
  have hc : (writePort (writePort (incrementPc s) s.cur lw) s.cur cw).cur = s.cur := by
    rw [ports_cur, incrementPc_cur]
  have h := updateFlags_ctx_same fl (writePort (writePort (incrementPc s) s.cur lw) s.cur cw)
  rw [hc] at h
  rw [commit, h]
  simp [ports_pc, ports_flags, ports_ir, ports_ms, incrementPc]

/-- The alternate context's own part after the writes of a time step. -/
theorem commit_ctx_other : (commit s lw cw fl).ctx s.cur.other =
    { pc := ((lands cw lw 29#5).map pcValue).getD (s.ctx s.cur.other).pc
      flags := ((lands cw lw 28#5).map flagsOfPs).getD (s.ctx s.cur.other).flags
      ir := (s.ctx s.cur.other).ir
      ms := (s.ctx s.cur.other).ms } := by
  have hc : (writePort (writePort (incrementPc s) s.cur lw) s.cur cw).cur = s.cur := by
    rw [ports_cur, incrementPc_cur]
  have h := updateFlags_ctx_other fl (writePort (writePort (incrementPc s) s.cur lw) s.cur cw)
  rw [hc] at h
  rw [commit, h]
  have e : ∀ x y : CtxState, x.pc = y.pc → x.flags = y.flags → x.ir = y.ir → x.ms = y.ms → x = y := by
    rintro ⟨⟩ ⟨⟩; simp_all
  apply e <;> simp [ports_altPc, ports_altFlags, ports_ir, ports_ms, incrementPc]

theorem commit_imr : (commit s lw cw fl).imr = (lands cw lw 30#5).getD s.imr := by
  rw [commit, (updateFlags_rest fl _).2.1, ports_imr]; simp [incrementPc]

theorem commit_gpr (j : RegNum) (hj : 4 ≤ j.toNat ∧ j.toNat ≤ 27) :
    (commit s lw cw fl).gpr[phys s.cur j] = (lands cw lw j).getD s.gpr[phys s.cur j] := by
  simp only [commit, (updateFlags_rest fl _).1, ports_gpr _ _ _ _ j hj]; simp [incrementPc]

theorem commit_mem : (commit s lw cw fl).mem = s.mem := by
  rw [commit, (updateFlags_rest fl _).2.2.1, ports_mem]; simp [incrementPc]
theorem commit_params : (commit s lw cw fl).params = s.params := by
  rw [commit, (updateFlags_rest fl _).2.2.2.1, ports_params]; simp [incrementPc]
theorem commit_isrInputs : (commit s lw cw fl).isrInputs = s.isrInputs := by
  rw [commit, (updateFlags_rest fl _).2.2.2.2.1, ports_isrInputs]; simp [incrementPc]
theorem commit_tick : (commit s lw cw fl).tick = s.tick := by
  rw [commit, (updateFlags_rest fl _).2.2.2.2.2, ports_tick]; simp [incrementPc]

end Commit

/-! ## The time step -/

section Advance
variable (s : State) (k : Compute)

theorem advance_ctx_same : (advance s k).ctx s.cur =
    { pc := ((lands k.cw (loadPort s) 2#5).map pcValue).getD ((s.ctx s.cur).pc + 4#32)
      flags := k.fl.getD (((lands k.cw (loadPort s) 3#5).map flagsOfPs).getD (s.ctx s.cur).flags)
      ir := .word (fetchedWord s)
      ms := k.ms } := by
  have h := latch_ctx_same (commit s (loadPort s) k.cw k.fl) (fetchedWord s) k.ms
  rw [commit_cur] at h
  simp [advance, h, commit_ctx_same]

theorem advance_ctx_other : (advance s k).ctx s.cur.other =
    { pc := ((lands k.cw (loadPort s) 29#5).map pcValue).getD (s.ctx s.cur.other).pc
      flags := ((lands k.cw (loadPort s) 28#5).map flagsOfPs).getD (s.ctx s.cur.other).flags
      ir := (s.ctx s.cur.other).ir
      ms := (s.ctx s.cur.other).ms } := by
  have h := latch_ctx_other (commit s (loadPort s) k.cw k.fl) (fetchedWord s) k.ms
  rw [commit_cur] at h
  simp [advance, h, commit_ctx_other]

theorem advance_mem : (advance s k).mem = memAfter s := by simp [advance]

theorem isrNext_of_eq {t : State} (h1 : t.isrInputs = s.isrInputs) (h2 : t.tick = s.tick) : isrNext t = isrNext s := by
  simp [isrNext, h1, h2]

/-- One time step, location by location. -/
theorem advance_effect : Effect s (advance s k) k.cw k.fl k.ms k.punt := by
  have hsame := advance_ctx_same s k
  have hother := advance_ctx_other s k
  refine
    { general := fun i h1 h2 => ?_, pc := by rw [hsame], flags := by rw [hsame], altFlags := by rw [hother],
      altPc := by rw [hother], imr := by simp [advance, commit_imr], ir := by rw [hsame], ms := by rw [hsame],
      altIr := by rw [hother], altMs := by rw [hother],
      mem := fun a => by rw [advance_mem, byteAt_memAfter],
      isr := ?_, isrInputs := by simp [advance, commit_isrInputs], tick := by simp [advance, commit_tick],
      params := by simp [advance, commit_params], cur := ?_ }
  · rw [readReg_general _ _ _ ⟨h1, h2⟩, readReg_general _ _ _ ⟨h1, h2⟩, ← commit_gpr s _ _ k.fl i ⟨h1, h2⟩]
    simp [advance]
  · simp only [advance, switchContext_isr, environment_isr]
    apply isrNext_of_eq <;> simp [commit_isrInputs, commit_tick]
  · generalize hu : environment ((latch (commit s (loadPort s) k.cw k.fl) (fetchedWord s) k.ms).setMem (memAfter s)) = u
    have hcur : u.cur = s.cur := by rw [← hu]; simp [commit_cur]
    have ha : advance s k = switchContext k.punt u := by rw [← hu]; rfl
    have hv : isrValue (advance s k) = isrValue u := by simp [ha, isrValue]
    have hm : (advance s k).imr = u.imr := by simp [ha]
    simp only [hv, hm, ← interruptRequest_iff]
    rw [ha]
    unfold switchContext
    split
    · simp [toggleContext, hcur]
    · rw [hcur]
      split
      · rfl
      · exact hcur

/-- A time step has a next state exactly when nothing refuses it, and then it is `advance`. -/
theorem timeStep_eq_next {t : State} : timeStep s k = .next t ↔ stepRefusal s k = none ∧ advance s k = t := by
  unfold timeStep
  cases stepRefusal s k <;> simp

/-- What a time step that has a next state did. -/
theorem timeStep_effect {s t : State} {k : Compute} (h : timeStep s k = .next t) :
    Effect s t k.cw k.fl k.ms k.punt := by
  rw [timeStep_eq_next] at h
  exact h.2 ▸ advance_effect s k

theorem portRefusal_eq_none {p : Params} {i : RegNum} {v : Word} :
    portRefusal p (some (i, v)) = none ↔ i ≠ 31#5 ∨ p.isrWrite = .environment := by
  obtain ⟨_, _, _, _, _, w⟩ := p
  by_cases h : i = 31#5 <;> cases w <;> simp [portRefusal, isrWriteRefused, h]

/-- A time step completes when the fetch, the Memory stage and its own register write have a meaning. -/
theorem timeStep_completes {s : State} {k : Compute} (hr : Ready s) (hw : portRefusal s.params k.cw = none) :
    ∃ t, timeStep s k = .next t ∧ Effect s t k.cw k.fl k.ms k.punt := by
  obtain ⟨h1, h2, h3⟩ := hr
  refine ⟨advance s k, ?_, advance_effect s k⟩
  rw [timeStep_eq_next]
  simp [stepRefusal, h1, h2, h3, hw]

theorem pcValue_low (v : Word) : (pcValue v).extractLsb' 0 2 = 0#2 := by
  apply BitVec.eq_of_getLsbD_eq
  intro i hi
  have : i = 0 ∨ i = 1 := by omega
  rcases this with rfl | rfl <;> simp [pcValue]

theorem add_four_low {v : Word} (h : v.extractLsb' 0 2 = 0#2) : (v + 4#32).extractLsb' 0 2 = 0#2 := by
  have h' := congrArg BitVec.toNat h
  apply BitVec.eq_of_toNat_eq
  simp only [BitVec.extractLsb'_toNat, BitVec.toNat_add, BitVec.toNat_ofNat, Nat.shiftRight_zero] at h' ⊢
  omega

end Advance

/-! ## A state with nothing pending -/

@[simp] theorem withoutPending_cur (s : State) : s.withoutPending.cur = s.cur := by simp [State.withoutPending]
@[simp] theorem withoutPending_params (s : State) : s.withoutPending.params = s.params := by
  simp [State.withoutPending]
@[simp] theorem withoutPending_tick (s : State) : s.withoutPending.tick = s.tick := by simp [State.withoutPending]
@[simp] theorem withoutPending_ir (s : State) : (s.withoutPending.ctx s.cur).ir = (s.ctx s.cur).ir := by
  simp [State.withoutPending]
@[simp] theorem withoutPending_pc (s : State) (c : Context) : (s.withoutPending.ctx c).pc = (s.ctx c).pc := by
  rcases Context.eq_or_other s.cur c with rfl | rfl <;> simp [State.withoutPending]
@[simp] theorem withoutPending_flags (s : State) (c : Context) : (s.withoutPending.ctx c).flags = (s.ctx c).flags := by
  rcases Context.eq_or_other s.cur c with rfl | rfl <;> simp [State.withoutPending]
@[simp] theorem withoutPending_readReg (s : State) (c : Context) (i : RegNum) :
    readReg s.withoutPending c i = readReg s c i := by
  simp only [readReg, withoutPending_pc, withoutPending_flags, isrValue, withoutPending_params]
  simp [State.withoutPending]
@[simp] theorem withoutPending_x (s : State) (i : RegNum) : s.withoutPending.x i = s.x i := by simp [State.x]
@[simp] theorem withoutPending_stateFlags (s : State) : s.withoutPending.flags = s.flags := by simp [State.flags]

end Sys2Proof.Machine
end

