-- ==== Sys2Proof/Laws/Step.lean ====
section
/-! SUPPORT. The time steps of the instruction shapes: when each has a next state and what its Compute stage produced, and
what the step of any instruction may produce (R133). -/

namespace Sys2Proof.Machine

/-- A time step whose own register write is allowed completes with what its Compute stage produced. -/
theorem completes_timeStep {s : State} {k : Compute} (hr : Ready s) (hw : ∀ r v, k.cw = some (r, v) → MayWrite s r) :
    Completes s (timeStep s k) k.cw k.fl k.ms k.punt := by
  apply timeStep_completes hr
  cases h : k.cw with
  | none => rfl
  | some p => exact portRefusal_eq_none.2 (hw p.1 p.2 h)

/-- RI, RR and RRR with a defined result. -/
theorem completes_alu {s : State} {rd : RegNum} {f l : Bool} {o : AluResult} {n : Nat} (hr : Ready s)
    (hw : MayWrite s rd) :
    Completes s (timeStep s (aluCompute n rd f l (some o))) (some (rd, o.r))
      (if f then some (flagsOf o l) else none) .idle false :=
  completes_timeStep hr (fun r v h => by simp [aluCompute] at h; exact h.1 ▸ hw)

/-- RI, RR and RRR with an undefined result: the two free values. -/
theorem completes_alu_none {s : State} {rd : RegNum} {f l : Bool} {n : Nat} (hr : Ready s) (hw : MayWrite s rd) :
    Completes s (timeStep s (aluCompute n rd f l none)) (some (rd, Config.freeWord n))
      (if f then some (flagsOfPs ((Config.freeFlags n).setWidth 32)) else none) .idle false :=
  completes_timeStep hr (fun r v h => by simp [aluCompute] at h; exact h.1 ▸ hw)

/-- A load, store or branch: the register write and the operation for the Memory stage. -/
theorem completes_mem {s : State} {cw : Option (RegNum × Word)} {ms : MemOp} (hr : Ready s)
    (hw : ∀ r v, cw = some (r, v) → MayWrite s r) : Completes s (timeStep s (memCompute cw ms)) cw none ms false :=
  completes_timeStep hr hw

theorem rdRefused_eq_false {s : State} {rd : RegNum} (h : MayUseRd s rd) : rdRefused s.params rd = false := by
  rcases h with ⟨h1, h2⟩ | h
  · simp [rdRefused, h1, h2]
  · simp only [rdRefused, h]
    exact Bool.and_false _

/-- A load with a known sum, in all four modes. -/
theorem loadStep_completes {s : State} {rd rs1 : RegNum} {sum : Word} {n : Width} {ext : Extension} (hr : Ready s)
    (hd : MayUseRd s rd) :
    CompletesInFourModes s rs1 sum (fun m => loadStep rd rs1 m (some sum) n ext s) (fun ea => .load ea n ext rd) := by
  have h := rdRefused_eq_false hd
  simp only [CompletesInFourModes, loadStep, h, addressUnspecified, baseUpdate, effectiveAddress, Option.isNone_some,
    Bool.and_false, Bool.false_eq_true, if_false, Option.map_some, Option.getD_some]
  exact ⟨completes_mem hr (by simp), completes_mem hr (by simp),
    fun w => completes_mem hr (by rintro r v ⟨⟩; exact w), fun w => completes_mem hr (by rintro r v ⟨⟩; exact w)⟩

/-- A store with a known sum, in all four modes. -/
theorem storeStep_completes {s : State} {rd rs1 : RegNum} {sum : Word} {n : Width} (hr : Ready s) (hd : MayUseRd s rd) :
    CompletesInFourModes s rs1 sum (fun m => storeStep rd rs1 m (some sum) n s) (fun ea => .store ea n (s.x rd)) := by
  have h := rdRefused_eq_false hd
  simp only [CompletesInFourModes, storeStep, h, addressUnspecified, baseUpdate, effectiveAddress, Option.isNone_some,
    Bool.and_false, Bool.false_eq_true, if_false, Option.map_some, Option.getD_some]
  exact ⟨completes_mem hr (by simp), completes_mem hr (by simp),
    fun w => completes_mem hr (by rintro r v ⟨⟩; exact w), fun w => completes_mem hr (by rintro r v ⟨⟩; exact w)⟩

/-- A taken or untaken branch. -/
theorem branchStep_completes {s : State} {d : Cond} {target : Word} (hr : Ready s) :
    Completes s (branchStep d target s) (if d.holds s.flags then some (2#5, target) else none) none .idle false := by
  apply completes_mem hr
  intro r v h
  split at h
  · simp at h; exact .inl (h.1 ▸ by decide)
  · simp at h

/-! ## What the step of any instruction may produce -/

/-- The Compute stage of instruction `i` may produce `k` (R133). -/
structure Produces (i : Instr) (k : Compute) : Prop where
  /-- The register write is to the register the instruction names. -/
  cw : ∀ p, k.cw = some p → i.computeDest = some p.1
  /-- And there is one, but for an untaken branch. -/
  always : ∀ r, i.computeDest = some r → r = 2#5 ∨ ∃ v, k.cw = some (r, v)
  fl : i.updatesFlags = false → k.fl = none
  ms : i.usesMemoryStage = false → k.ms = .idle
  punt : k.punt = true ↔ i = .punt

/-- `run`, the time step of `i`, is either refused or one time step whose Compute stage produced what `i` may; and in either
case it does the same without the operation pending for the Memory stage, of which the Compute stage reads nothing. -/
abbrev Runs (i : Instr) (s : State) (run : State → StepResult) : Prop :=
  (∃ r, run s = .refused r ∧ run s.withoutPending = .refused r) ∨
    ∃ k, Produces i k ∧ run s = timeStep s k ∧ run s.withoutPending = timeStep s.withoutPending k

theorem runs_timeStep {i : Instr} {s : State} (f : State → Compute) (h : f s.withoutPending = f s)
    (hp : Produces i (f s)) : Runs i s (fun s => timeStep s (f s)) :=
  .inr ⟨f s, hp, rfl, by rw [← h]⟩

theorem runs_ite {i : Instr} {s : State} {c : State → Bool} {r : Refusal} {run : State → StepResult}
    (hc : c s.withoutPending = c s) (h : c s = false → Runs i s run) :
    Runs i s (fun s => if c s = true then .refused r else run s) := by
  cases hs : c s with
  | true => exact .inl ⟨r, by simp [hs], by simp [hc, hs]⟩
  | false => simpa [Runs, hc, hs] using h hs

theorem produces_alu {i : Instr} {tick : Nat} {rd : RegNum} {f l : Bool} {o : Option AluResult}
    (h1 : i.computeDest = some rd) (h2 : i.updatesFlags = f) (h3 : i ≠ .punt) :
    Produces i (aluCompute tick rd f l o) := by
  refine ⟨fun p hp => ?_, fun r hr => ?_, fun hf => ?_, fun _ => ?_, ?_⟩ <;> cases o <;> simp_all [aluCompute]
  all_goals rw [← hp]

theorem produces_mem {i : Instr} {cw : Option (RegNum × Word)} {ms : MemOp} (h1 : ∀ p, cw = some p → i.computeDest = some p.1)
    (h1' : ∀ r, i.computeDest = some r → r = 2#5 ∨ ∃ v, cw = some (r, v))
    (h2 : i.usesMemoryStage = false → ms = .idle) (h3 : i ≠ .punt) : Produces i (memCompute cw ms) :=
  ⟨h1, h1', fun _ => rfl, h2, by simp [memCompute, h3]⟩

theorem baseUpdate_dest {m : AddrMode} {rs1 : RegNum} {sum : Option Word} {p : RegNum × Word}
    (h : baseUpdate m rs1 sum = some p) : m.baseDest rs1 = some p.1 := by
  cases m <;> cases sum <;> simp_all [baseUpdate, AddrMode.baseDest]
  all_goals rw [← h]

theorem baseUpdate_some {m : AddrMode} {rs1 r : RegNum} {sum : Option Word} (hu : ¬ addressUnspecified m sum = true)
    (h : m.baseDest rs1 = some r) : ∃ v, baseUpdate m rs1 sum = some (r, v) := by
  cases m <;> cases sum <;> simp_all [baseUpdate, AddrMode.baseDest, addressUnspecified]

theorem produces_base {i : Instr} {m : AddrMode} {rs1 : RegNum} {sum : Option Word} {ms : MemOp}
    (h1 : i.computeDest = m.baseDest rs1) (h2 : i.usesMemoryStage = true) (h3 : i ≠ .punt)
    (hu : addressUnspecified m sum = false) : Produces i (memCompute (baseUpdate m rs1 sum) ms) :=
  produces_mem (fun _ hp => h1.trans (baseUpdate_dest hp))
    (fun _ hr => .inr (baseUpdate_some (by simp [hu]) (h1 ▸ hr))) (by simp [h2]) h3

theorem runs_rrr {i : Instr} {s : State} {op2 : AluOp} {op1 : Op1} {rd rs1 rs2 rs3 : RegNum} {f : Bool}
    (h1 : i.computeDest = some rd) (h2 : i.updatesFlags = f) (h3 : i ≠ .punt) :
    Runs i s (rrrStep op2 op1 rd rs1 f rs2 rs3) :=
  runs_ite (c := fun s => rdRefused s.params rd) (by simp) fun _ =>
    runs_timeStep (fun s => aluCompute s.tick rd f (rrrLogicCarry s)
      (rrrResult op2 op1 (s.x rs1) (s.x rs2) (s.x rs3) s.flags.c)) (by simp [rrrLogicCarry]) (produces_alu h1 h2 h3)

theorem runs_load {i : Instr} {s : State} {rd rs1 : RegNum} {m : AddrMode} {sum : State → Option Word} {n : Width}
    {ext : Extension} (hs : sum s.withoutPending = sum s) (h1 : i.computeDest = m.baseDest rs1)
    (h2 : i.usesMemoryStage = true) (h3 : i ≠ .punt) : Runs i s (fun s => loadStep rd rs1 m (sum s) n ext s) :=
  runs_ite (c := fun s => rdRefused s.params rd) (by simp) fun _ =>
    runs_ite (c := fun s => addressUnspecified m (sum s)) (by simp [hs]) fun hu =>
      runs_timeStep (fun s => memCompute (baseUpdate m rs1 (sum s))
        (.load ((effectiveAddress m (s.x rs1) (sum s)).getD (s.x rs1)) n ext rd)) (by simp [hs]) (produces_base h1 h2 h3 hu)

theorem runs_store {i : Instr} {s : State} {rd rs1 : RegNum} {m : AddrMode} {sum : State → Option Word} {n : Width}
    (hs : sum s.withoutPending = sum s) (h1 : i.computeDest = m.baseDest rs1) (h2 : i.usesMemoryStage = true)
    (h3 : i ≠ .punt) : Runs i s (fun s => storeStep rd rs1 m (sum s) n s) :=
  runs_ite (c := fun s => rdRefused s.params rd) (by simp) fun _ =>
    runs_ite (c := fun s => addressUnspecified m (sum s)) (by simp [hs]) fun hu =>
      runs_timeStep (fun s => memCompute (baseUpdate m rs1 (sum s))
        (.store ((effectiveAddress m (s.x rs1) (sum s)).getD (s.x rs1)) n (s.x rd))) (by simp [hs])
        (produces_base h1 h2 h3 hu)

theorem runs_branch {i : Instr} {s : State} {d : Cond} {target : State → Word} (ht : target s.withoutPending = target s)
    (h1 : i.computeDest = some 2#5) (h3 : i ≠ .punt) : Runs i s (fun s => branchStep d (target s) s) :=
  runs_timeStep (fun s => memCompute (if d.holds s.flags then some (2#5, target s) else none) .idle) (by simp [ht])
    (produces_mem (fun p hp => by split at hp <;> simp_all; rw [← hp])
      (fun r hr => by rw [h1] at hr; exact .inl (Option.some.inj hr).symm) (fun _ => rfl) h3)

/-- Every instruction is refused or runs a time step that produces only what the instruction may. -/
theorem exec_runs (i : Instr) (s : State) : Runs i s (exec i) := by
  cases i
  case punt =>
    exact runs_timeStep (fun _ => _) rfl ⟨by simp, by simp [Instr.computeDest], fun _ => rfl, fun _ => rfl, by simp⟩
  case movSLI =>
    exact runs_timeStep (fun _ => memCompute none _) rfl
      (produces_mem (by simp) (by simp [Instr.computeDest]) (by simp [Instr.usesMemoryStage]) (by simp))
  case addRI | addcRI | subRI | subbRI | andRI | orRI | xorRI | shRI | shaRI | addRR | addcRR | subRR | subbRR
      | andRR | orRR | xorRR | shRR | shaRR =>
    exact runs_timeStep (fun _ => aluCompute _ _ _ _ _) (by simp) (produces_alu rfl rfl (by simp))
  case putAdd | putAddc | putSub | putSubb | putAnd | putOr | putXor | putSh | putSha =>
    exact runs_rrr rfl rfl (by simp)
  case ldRM | ldAddRRM | ldAddcRRM | ldSubRRM | ldSubbRRM | ldAndRRM | ldOrRRM | ldXorRRM | ldhAddRRM
      | ldhAddcRRM | ldhSubRRM | ldhSubbRRM | ldhAndRRM | ldhOrRRM | ldhXorRRM | uldhAddRRM | uldhAddcRRM
      | uldhSubRRM | uldhSubbRRM | uldhAndRRM | uldhOrRRM | uldhXorRRM | ldbAddRRM | ldbAddcRRM | ldbSubRRM
      | ldbSubbRRM | ldbAndRRM | ldbOrRRM | ldbXorRRM | uldbAddRRM | uldbAddcRRM | uldbSubRRM | uldbSubbRRM
      | uldbAndRRM | uldbOrRRM | uldbXorRRM | ldShRRM | ldShaRRM | ldhSPLS | uldhSPLS | ldbSPLS | uldbSPLS =>
    exact runs_load (by simp [rmSum, rrmSum, splsSum]) rfl rfl (by simp)
  case stRM | stAddRRM | stAddcRRM | stSubRRM | stSubbRRM | stAndRRM | stOrRRM | stXorRRM | sthAddRRM
      | sthAddcRRM | sthSubRRM | sthSubbRRM | sthAndRRM | sthOrRRM | sthXorRRM | stbAddRRM | stbAddcRRM
      | stbSubRRM | stbSubbRRM | stbAndRRM | stbOrRRM | stbXorRRM | stShRRM | stShaRRM | sthSPLS | stbSPLS =>
    exact runs_store (by simp [rmSum, rrmSum, splsSum]) rfl rfl (by simp)
  case ldSLS rd a =>
    exact runs_ite (c := fun s => rdRefused s.params rd) (by simp) fun _ => runs_timeStep (fun _ => memCompute none _) rfl
      (produces_mem (by simp) (by simp [Instr.computeDest]) (by simp [Instr.usesMemoryStage]) (by simp))
  case stSLS rd a =>
    exact runs_ite (c := fun s => rdRefused s.params rd) (by simp) fun _ =>
      runs_timeStep (fun s => memCompute none (.store _ _ (s.x _))) (by simp)
        (produces_mem (by simp) (by simp [Instr.computeDest]) (by simp [Instr.usesMemoryStage]) (by simp))
  case btBR | bfBR | bhiBR | blsBR | bccBR | bcsBR | bneBR | beqBR | bvcBR | bvsBR | bplBR | bmiBR | bgeBR
      | bltBR | bgtBR | bleBR | btSBR | bfSBR | bhiSBR | blsSBR | bccSBR | bcsSBR | bneSBR | beqSBR | bvcSBR
      | bvsSBR | bplSBR | bmiSBR | bgeSBR | bltSBR | bgtSBR | bleSBR =>
    exact runs_branch (by simp [brTarget]) rfl (by simp)

/-- What the latch of the executing context may produce: nothing from a bubble, what its instruction may from a word. -/
def LatchProduces (s : State) (k : Compute) : Prop :=
  ((s.ctx s.cur).ir = .bubble ∧ k = Compute.nothing) ∨ ∃ i, s.computes i ∧ Produces i k

/-- Every step is refused or a time step that produces only what the latched instruction may, with and without the
operation pending for the Memory stage. -/
theorem step_cases (s : State) :
    (∃ r, step s = .refused r ∧ step s.withoutPending = .refused r) ∨
      ∃ k, LatchProduces s k ∧ step s = timeStep s k ∧ step s.withoutPending = timeStep s.withoutPending k := by
  cases hl : (s.ctx s.cur).ir with
  | bubble =>
    refine .inr ⟨Compute.nothing, .inl ⟨hl, rfl⟩, ?_, ?_⟩ <;> simp [step, hl, bubbleStep]
  | word w =>
    cases hd : decode w with
    | error e => exact .inl ⟨refusalOfDecode e, by simp [step, hl, hd], by simp [step, hl, hd]⟩
    | ok i =>
      have hs : step s = exec i s ∧ step s.withoutPending = exec i s.withoutPending := by simp [step, hl, hd]
      rw [hs.1, hs.2]
      exact (exec_runs i s).imp id fun ⟨k, hp, h⟩ => ⟨k, .inr ⟨i, ⟨w, hl, hd⟩, hp⟩, h⟩

/-- Every step that has a next state is one of `timeStep`. -/
theorem step_runs {s t : State} (h : step s = .next t) : ∃ k, timeStep s k = .next t ∧ LatchProduces s k := by
  rcases step_cases s with ⟨r, hr, _⟩ | ⟨k, hp, hk, _⟩
  · rw [hr] at h; cases h
  · exact ⟨k, hk ▸ h, hp⟩

/-- The Compute stage of a step names only registers that the step names. -/
theorem LatchProduces.names {s : State} {k : Compute} (h : LatchProduces s k) {r : RegNum} {v : Word}
    (hv : k.cw = some (r, v)) : ∃ i, s.computes i ∧ i.computeDest = some r := by
  rcases h with ⟨_, rfl⟩ | ⟨i, hi, hp⟩
  · cases hv
  · exact ⟨i, hi, hp.cw _ hv⟩

/-- A register that no port of the step names keeps its value. -/
theorem lands_eq_none {s : State} {k : Compute} (h : LatchProduces s k) {r : RegNum} (hn : ¬ s.names r) :
    lands k.cw (loadPort s) r = none := by
  have hl : (loadPort s).filter (fun p => p.1 == r) = none := by
    rw [Option.filter_eq_none_iff]
    rintro ⟨a, v⟩ hp ha
    have e : a = r := eq_of_beq ha
    exact hn (.inr ⟨v, e ▸ hp⟩)
  unfold lands
  split
  · split
    · exact absurd (.inl (h.names (by subst_vars; assumption))) hn
    · rw [hl]; rfl
  · rw [hl]; rfl

end Sys2Proof.Machine
end

