-- ==== Sys2Proof/Tests/Slice0.lean ====
section
/-! SUPPORT. Tests. Expected results are the spec's: the encodings of `30_encoding.md` written out bit by bit, the vectors
of `95_test_vectors.md` (named at each test), the rules named otherwise. Then one witness for each statement of
Certificates/Slice0/Obligations.lean that has hypotheses: a state and operands that meet all of them. -/

namespace Sys2Proof.Tests

-- One proof at a time: side by side, these kernel evaluations ask for more threads than the check's memory allows.
set_option Elab.async false

open Sys2Proof.Machine

/-! ## A small state -/

/-- Concrete parameters: 2 MiB of memory, eight bytes of state registers inside it, `dbg_bit` 5, the other defaults. -/
def params : Params :=
  { dbgBit := 5, memImplemented := [⟨0, 0x200000⟩], stateRegAddrs := [⟨0x3F0, 8⟩], rdRestriction := .refuse,
    rrrLogicC := .unchanged, isrWrite := .refuse, resetLatchesUser := .bubble }

/-- The vectors' setting (`95_test_vectors.md`): system context, the word in the Compute stage was at 0x100. -/
def base : State :=
  { cur := .system
    sys := { pc := 0x104#32, flags := ⟨false, false, false, false⟩, ir := .bubble, ms := .idle }
    usr := { pc := 0x300#32, flags := ⟨false, false, false, false⟩, ir := .bubble, ms := .idle }
    gpr := Vector.replicate 24 0#32
    imr := 0#32, isr := 0#32, mem := [], params := params, isrInputs := [0#32, 0#32, 0#32], tick := 0 }

/-- Words of memory: the vectors' `DATA`. -/
def data : Memory :=
  memWrite (memWrite (memWrite [] 0x200#32 .word 0x11223344#32) 0x204#32 .word 0x8899AABB#32) 0x208#32 .word
    0xCCDDEEFF#32

/-- The state at the beginning of the Compute step of the word `w`. -/
def at' (w : Word) (regs : List (Nat × Word)) (cvnz : BitVec 4) : State :=
  let s := regs.foldl (fun s p => writeReg s s.cur (BitVec.ofNat 5 p.1) p.2) base
  { s with sys := { s.sys with ir := .word w, flags := flagsOfPs (cvnz.setWidth 32) }, mem := data }

/-- The next state of an outcome that has one. -/
def next? : StepResult → Option State
  | .next t => some t
  | .fault _ => none
  | .refused _ => none

/-- One step of `w`: register `rd`, the flags `C V N Z` and `pc` after it. -/
def alu (rd : RegNum) (w : Word) (regs : List (Nat × Word)) (cvnz : BitVec 4) : Option (Word × BitVec 4 × Word) :=
  (next? (step (at' w regs cvnz))).map fun t => (t.x rd, (t.x 3#5).setWidth 4, t.x 2#5)

/-- One step of `w`: `pc` after it. -/
def target (w : Word) (regs : List (Nat × Word)) (cvnz : BitVec 4) : Option Word :=
  (next? (step (at' w regs cvnz))).map fun t => t.x 2#5

/-- One step of the load `w`: `r8` after it, and the load port of the next step. -/
def loads (w : Word) (regs : List (Nat × Word)) (cvnz : BitVec 4) : Option (Word × Option (RegNum × Word)) :=
  (next? (step (at' w regs cvnz))).map fun t => (t.x 8#5, loadPort t)

/-- One step of the store `w`: `r8` and the word at `a` after it, and that word after the next Memory stage. -/
def stores (w : Word) (regs : List (Nat × Word)) (cvnz : BitVec 4) (a : Word) : Option (Word × Word × Word) :=
  (next? (step (at' w regs cvnz))).map fun t => (t.x 8#5, memRead t.mem a .word, memRead (memAfter t) a .word)

/-- One step of `w`: what it leaves for the Memory stage. -/
def leaves (w : Word) (regs : List (Nat × Word)) (cvnz : BitVec 4) : Option MemOp :=
  (next? (step (at' w regs cvnz))).map fun t => t.sys.ms

/-- Why one step of `w` has no next state. -/
def refuses (w : Word) (regs : List (Nat × Word)) : Option Refusal :=
  match step (at' w regs 0#4) with
  | .refused r => some r
  | .next _ => none
  | .fault _ => none

/-! ## Decoding: a word of every instruction, its fields written out from the encoding tables -/

theorem test_decode_RI :
    decode 0b0000_00101_10000_0_0_1110101101001111#32 = .ok (.addRI 5#5 16#5 false false 0xeb4f#16) ∧
    decode 0b0001_00110_10001_1_0_1000111100010100#32 = .ok (.addcRI 6#5 17#5 true false 0x8f14#16) ∧
    decode 0b0010_00111_10010_0_1_0011001011011001#32 = .ok (.subRI 7#5 18#5 false true 0x32d9#16) ∧
    decode 0b0011_01000_10011_1_1_1101011010011110#32 = .ok (.subbRI 8#5 19#5 true true 0xd69e#16) ∧
    decode 0b0100_01001_10100_0_0_0111101001100011#32 = .ok (.andRI 9#5 20#5 false false 0x7a63#16) ∧
    decode 0b0101_01010_10101_1_0_1001111000101000#32 = .ok (.orRI 10#5 21#5 true false 0x9e28#16) ∧
    decode 0b0110_01011_10110_0_1_1100000111101101#32 = .ok (.xorRI 11#5 22#5 false true 0xc1ed#16) ∧
    decode 0b0111_01100_10000_1_0_1110010110110010#32 = .ok (.shRI 12#5 16#5 true 0xe5b2#16) ∧
    decode 0b0111_01101_10001_0_1_0000100101110111#32 = .ok (.shaRI 13#5 17#5 false 0x977#16) := by
  decide

theorem test_decode_RR :
    decode 0b1100_01110_10010_1_0_00100_000_00100_000#32 = .ok (.addRR 14#5 18#5 true 4#5 0x4#5) ∧
    decode 0b1100_01111_10011_0_0_00111_001_01111_000#32 = .ok (.addcRR 15#5 19#5 false 7#5 0xf#5) ∧
    decode 0b1100_00101_10100_1_0_01010_010_11010_000#32 = .ok (.subRR 5#5 20#5 true 10#5 0x1a#5) ∧
    decode 0b1100_00110_10101_0_0_01101_011_00101_000#32 = .ok (.subbRR 6#5 21#5 false 13#5 0x5#5) ∧
    decode 0b1100_00111_10110_1_0_10000_100_10000_000#32 = .ok (.andRR 7#5 22#5 true 16#5 0x10#5) ∧
    decode 0b1100_01000_10000_0_0_10011_101_11011_000#32 = .ok (.orRR 8#5 16#5 false 19#5 0x1b#5) ∧
    decode 0b1100_01001_10001_1_0_10110_110_00110_000#32 = .ok (.xorRR 9#5 17#5 true 22#5 0x6#5) ∧
    decode 0b1100_01010_10010_0_0_11001_11110000000#32 = .ok (.shRR 10#5 18#5 false 25#5) ∧
    decode 0b1100_01011_10011_1_0_11100_11111000000#32 = .ok (.shaRR 11#5 19#5 true 28#5) := by
  decide

theorem test_decode_RRR :
    decode 0b1101_01100_10100_0_0_11111_000_01100_010#32 = .ok (.putAdd 12#5 20#5 false 31#5 12#5 .sub) ∧
    decode 0b1101_01101_10101_1_0_00010_001_01011_011#32 = .ok (.putAddc 13#5 21#5 true 2#5 11#5 .subb) ∧
    decode 0b1101_01110_10110_0_0_00101_010_01010_100#32 = .ok (.putSub 14#5 22#5 false 5#5 10#5 .and) ∧
    decode 0b1101_01111_10000_1_0_01000_011_01001_101#32 = .ok (.putSubb 15#5 16#5 true 8#5 9#5 .or) ∧
    decode 0b1101_00101_10001_0_0_01011_100_01000_110#32 = .ok (.putAnd 5#5 17#5 false 11#5 8#5 .xor) ∧
    decode 0b1101_00110_10010_1_0_01110_101_00111_111#32 = .ok (.putOr 6#5 18#5 true 14#5 7#5 .sha) ∧
    decode 0b1101_00111_10011_0_0_10001_110_00110_000#32 = .ok (.putXor 7#5 19#5 false 17#5 6#5 .add) ∧
    decode 0b1101_01000_10100_1_0_10100_111_00101_001#32 = .ok (.putSh 8#5 20#5 true 20#5 5#5 .addc) ∧
    decode 0b1101_01001_10101_0_1_10111_111_00100_010#32 = .ok (.putSha 9#5 21#5 false 23#5 4#5 .sub) := by
  decide

theorem test_decode_RM :
    decode 0b1000_01010_10110_1_1_1011000100010110#32 = .ok (.ldRM 10#5 22#5 .preModify 0xb116#16) ∧
    decode 0b1001_01011_10000_0_0_1101010011011011#32 = .ok (.stRM 11#5 16#5 .base 0xd4db#16) := by
  decide

theorem test_decode_RRM_1 :
    decode 0b1010_01100_10001_0_1_00000_000_00000_01_1#32 = .ok (.ldAddRRM 12#5 17#5 .postModify 0#5 0x0#5 true) ∧
    decode 0b1010_01101_10010_1_0_00011_001_01011_01_0#32 = .ok (.ldAddcRRM 13#5 18#5 .sum 3#5 0xb#5 false) ∧
    decode 0b1010_01110_10011_1_1_00110_010_10110_01_1#32 = .ok (.ldSubRRM 14#5 19#5 .preModify 6#5 0x16#5 true) ∧
    decode 0b1010_01111_10100_0_0_01001_011_00001_01_0#32 = .ok (.ldSubbRRM 15#5 20#5 .base 9#5 0x1#5 false) ∧
    decode 0b1010_00101_10101_0_1_01100_100_01100_01_1#32 = .ok (.ldAndRRM 5#5 21#5 .postModify 12#5 0xc#5 true) ∧
    decode 0b1010_00110_10110_1_0_01111_101_10111_01_0#32 = .ok (.ldOrRRM 6#5 22#5 .sum 15#5 0x17#5 false) ∧
    decode 0b1010_00111_10000_1_1_10010_110_00010_01_1#32 = .ok (.ldXorRRM 7#5 16#5 .preModify 18#5 0x2#5 true) ∧
    decode 0b1010_01000_10001_0_0_10101_000_01101_000#32 = .ok (.ldhAddRRM 8#5 17#5 .base 21#5 0xd#5) ∧
    decode 0b1010_01001_10010_0_1_11000_001_11000_000#32 = .ok (.ldhAddcRRM 9#5 18#5 .postModify 24#5 0x18#5) ∧
    decode 0b1010_01010_10011_1_0_11011_010_00011_000#32 = .ok (.ldhSubRRM 10#5 19#5 .sum 27#5 0x3#5) := by
  decide

theorem test_decode_RRM_2 :
    decode 0b1010_01011_10100_1_1_11110_011_01110_000#32 = .ok (.ldhSubbRRM 11#5 20#5 .preModify 30#5 0xe#5) ∧
    decode 0b1010_01100_10101_0_0_00001_100_11001_000#32 = .ok (.ldhAndRRM 12#5 21#5 .base 1#5 0x19#5) ∧
    decode 0b1010_01101_10110_0_1_00100_101_00100_000#32 = .ok (.ldhOrRRM 13#5 22#5 .postModify 4#5 0x4#5) ∧
    decode 0b1010_01110_10000_1_0_00111_110_01111_000#32 = .ok (.ldhXorRRM 14#5 16#5 .sum 7#5 0xf#5) ∧
    decode 0b1010_01111_10001_1_1_01010_000_11010_001#32 = .ok (.uldhAddRRM 15#5 17#5 .preModify 10#5 0x1a#5) ∧
    decode 0b1010_00101_10010_0_0_01101_001_00101_001#32 = .ok (.uldhAddcRRM 5#5 18#5 .base 13#5 0x5#5) ∧
    decode 0b1010_00110_10011_0_1_10000_010_10000_001#32 = .ok (.uldhSubRRM 6#5 19#5 .postModify 16#5 0x10#5) ∧
    decode 0b1010_00111_10100_1_0_10011_011_11011_001#32 = .ok (.uldhSubbRRM 7#5 20#5 .sum 19#5 0x1b#5) ∧
    decode 0b1010_01000_10101_1_1_10110_100_00110_001#32 = .ok (.uldhAndRRM 8#5 21#5 .preModify 22#5 0x6#5) ∧
    decode 0b1010_01001_10110_0_0_11001_101_10001_001#32 = .ok (.uldhOrRRM 9#5 22#5 .base 25#5 0x11#5) := by
  decide

theorem test_decode_RRM_3 :
    decode 0b1010_01010_10000_0_1_11100_110_11100_001#32 = .ok (.uldhXorRRM 10#5 16#5 .postModify 28#5 0x1c#5) ∧
    decode 0b1010_01011_10001_1_0_11111_000_00111_100#32 = .ok (.ldbAddRRM 11#5 17#5 .sum 31#5 0x7#5) ∧
    decode 0b1010_01100_10010_1_1_00010_001_10010_100#32 = .ok (.ldbAddcRRM 12#5 18#5 .preModify 2#5 0x12#5) ∧
    decode 0b1010_01101_10011_0_0_00101_010_11101_100#32 = .ok (.ldbSubRRM 13#5 19#5 .base 5#5 0x1d#5) ∧
    decode 0b1010_01110_10100_0_1_01000_011_01000_100#32 = .ok (.ldbSubbRRM 14#5 20#5 .postModify 8#5 0x8#5) ∧
    decode 0b1010_01111_10101_1_0_01011_100_10011_100#32 = .ok (.ldbAndRRM 15#5 21#5 .sum 11#5 0x13#5) ∧
    decode 0b1010_00101_10110_1_1_01110_101_11110_100#32 = .ok (.ldbOrRRM 5#5 22#5 .preModify 14#5 0x1e#5) ∧
    decode 0b1010_00110_10000_0_0_10001_110_01001_100#32 = .ok (.ldbXorRRM 6#5 16#5 .base 17#5 0x9#5) ∧
    decode 0b1010_00111_10001_0_1_10100_000_10100_101#32 = .ok (.uldbAddRRM 7#5 17#5 .postModify 20#5 0x14#5) ∧
    decode 0b1010_01000_10010_1_0_10111_001_11111_101#32 = .ok (.uldbAddcRRM 8#5 18#5 .sum 23#5 0x1f#5) := by
  decide

theorem test_decode_RRM_4 :
    decode 0b1010_01001_10011_1_1_11010_010_01010_101#32 = .ok (.uldbSubRRM 9#5 19#5 .preModify 26#5 0xa#5) ∧
    decode 0b1010_01010_10100_0_0_11101_011_10101_101#32 = .ok (.uldbSubbRRM 10#5 20#5 .base 29#5 0x15#5) ∧
    decode 0b1010_01011_10101_0_1_00000_100_00000_101#32 = .ok (.uldbAndRRM 11#5 21#5 .postModify 0#5 0x0#5) ∧
    decode 0b1010_01100_10110_1_0_00011_101_01011_101#32 = .ok (.uldbOrRRM 12#5 22#5 .sum 3#5 0xb#5) ∧
    decode 0b1010_01101_10000_1_1_00110_110_10110_101#32 = .ok (.uldbXorRRM 13#5 16#5 .preModify 6#5 0x16#5) ∧
    decode 0b1011_01110_10001_0_0_01001_000_00001_01_0#32 = .ok (.stAddRRM 14#5 17#5 .base 9#5 0x1#5 false) ∧
    decode 0b1011_01111_10010_0_1_01100_001_01100_01_1#32 = .ok (.stAddcRRM 15#5 18#5 .postModify 12#5 0xc#5 true) ∧
    decode 0b1011_00101_10011_1_0_01111_010_10111_01_0#32 = .ok (.stSubRRM 5#5 19#5 .sum 15#5 0x17#5 false) ∧
    decode 0b1011_00110_10100_1_1_10010_011_00010_01_1#32 = .ok (.stSubbRRM 6#5 20#5 .preModify 18#5 0x2#5 true) ∧
    decode 0b1011_00111_10101_0_0_10101_100_01101_01_0#32 = .ok (.stAndRRM 7#5 21#5 .base 21#5 0xd#5 false) := by
  decide

theorem test_decode_RRM_5 :
    decode 0b1011_01000_10110_0_1_11000_101_11000_01_1#32 = .ok (.stOrRRM 8#5 22#5 .postModify 24#5 0x18#5 true) ∧
    decode 0b1011_01001_10000_1_0_11011_110_00011_01_0#32 = .ok (.stXorRRM 9#5 16#5 .sum 27#5 0x3#5 false) ∧
    decode 0b1011_01010_10001_1_1_11110_000_01110_00_1#32 = .ok (.sthAddRRM 10#5 17#5 .preModify 30#5 0xe#5 true) ∧
    decode 0b1011_01011_10010_0_0_00001_001_11001_00_0#32 = .ok (.sthAddcRRM 11#5 18#5 .base 1#5 0x19#5 false) ∧
    decode 0b1011_01100_10011_0_1_00100_010_00100_00_1#32 = .ok (.sthSubRRM 12#5 19#5 .postModify 4#5 0x4#5 true) ∧
    decode 0b1011_01101_10100_1_0_00111_011_01111_00_0#32 = .ok (.sthSubbRRM 13#5 20#5 .sum 7#5 0xf#5 false) ∧
    decode 0b1011_01110_10101_1_1_01010_100_11010_00_1#32 = .ok (.sthAndRRM 14#5 21#5 .preModify 10#5 0x1a#5 true) ∧
    decode 0b1011_01111_10110_0_0_01101_101_00101_00_0#32 = .ok (.sthOrRRM 15#5 22#5 .base 13#5 0x5#5 false) ∧
    decode 0b1011_00101_10000_0_1_10000_110_10000_00_1#32 = .ok (.sthXorRRM 5#5 16#5 .postModify 16#5 0x10#5 true) ∧
    decode 0b1011_00110_10001_1_0_10011_000_11011_10_0#32 = .ok (.stbAddRRM 6#5 17#5 .sum 19#5 0x1b#5 false) := by
  decide

theorem test_decode_RRM_6 :
    decode 0b1011_00111_10010_1_1_10110_001_00110_10_1#32 = .ok (.stbAddcRRM 7#5 18#5 .preModify 22#5 0x6#5 true) ∧
    decode 0b1011_01000_10011_0_0_11001_010_10001_10_0#32 = .ok (.stbSubRRM 8#5 19#5 .base 25#5 0x11#5 false) ∧
    decode 0b1011_01001_10100_0_1_11100_011_11100_10_1#32 = .ok (.stbSubbRRM 9#5 20#5 .postModify 28#5 0x1c#5 true) ∧
    decode 0b1011_01010_10101_1_0_11111_100_00111_10_0#32 = .ok (.stbAndRRM 10#5 21#5 .sum 31#5 0x7#5 false) ∧
    decode 0b1011_01011_10110_1_1_00010_101_10010_10_1#32 = .ok (.stbOrRRM 11#5 22#5 .preModify 2#5 0x12#5 true) ∧
    decode 0b1011_01100_10000_0_0_00101_110_11101_10_0#32 = .ok (.stbXorRRM 12#5 16#5 .base 5#5 0x1d#5 false) ∧
    decode 0b1010_01101_10001_0_1_01000_11110000_101#32 = .ok (.ldShRRM 13#5 17#5 .postModify 8#5 0x5#3) ∧
    decode 0b1010_01110_10010_1_0_01011_11111000_110#32 = .ok (.ldShaRRM 14#5 18#5 .sum 11#5 0x6#3) ∧
    decode 0b1011_01111_10011_1_1_01110_11110000_111#32 = .ok (.stShRRM 15#5 19#5 .preModify 14#5 0x7#3) ∧
    decode 0b1011_00101_10100_0_0_10001_11111000_000#32 = .ok (.stShaRRM 5#5 20#5 .base 17#5 0x0#3) := by
  decide

theorem test_decode_BR_1 :
    decode 0b1110000_10001101101101011001100_0_0#32 = .ok (.btBR 0x46dacc#23 false) ∧
    decode 0b1110000_10111000111111010010001_1_1#32 = .ok (.bfBR 0x5c7e91#23 true) ∧
    decode 0b1110001_11100100010001001010110_1_0#32 = .ok (.bhiBR 0x722256#23 true) ∧
    decode 0b1110001_00001111100011000011011_0_1#32 = .ok (.blsBR 0x7c61b#23 false) ∧
    decode 0b1110010_10111010110100111100000_0_0#32 = .ok (.bccBR 0x5d69e0#23 false) ∧
    decode 0b1110010_01100110000110110100101_1_1#32 = .ok (.bcsBR 0x330da5#23 true) ∧
    decode 0b1110011_10010001011000101101010_1_0#32 = .ok (.bneBR 0x48b16a#23 true) ∧
    decode 0b1110011_10111100101010100101111_0_1#32 = .ok (.beqBR 0x5e552f#23 false) ∧
    decode 0b1110100_11100111111100011110100_0_0#32 = .ok (.bvcBR 0x73f8f4#23 false) ∧
    decode 0b1110100_00010011001110010111001_1_1#32 = .ok (.bvsBR 0x99cb9#23 true) := by
  decide

theorem test_decode_BR_2 :
    decode 0b1110101_10111110100000001111110_1_0#32 = .ok (.bplBR 0x5f407e#23 true) ∧
    decode 0b1110101_01101001110010001000011_0_1#32 = .ok (.bmiBR 0x34e443#23 false) ∧
    decode 0b1110110_10010101000100000001000_0_0#32 = .ok (.bgeBR 0x4a8808#23 false) ∧
    decode 0b1110110_11000000010101111001101_1_1#32 = .ok (.bltBR 0x602bcd#23 true) ∧
    decode 0b1110111_11101011100111110010010_1_0#32 = .ok (.bgtBR 0x75cf92#23 true) ∧
    decode 0b1110111_00010110111001101010111_0_1#32 = .ok (.bleBR 0xb7357#23 false) := by
  decide

theorem test_decode_PUNT :
    decode 0b11110000000000111111111101000111#32 = .ok .punt := by
  decide

theorem test_decode_SLS :
    decode 0b1111_01100_10101_00_1000111110011110#32 = .ok (.ldSLS 12#5 0x158f9e#21) ∧
    decode 0b1111_01101_10101_01_1000111110011111#32 = .ok (.stSLS 13#5 0x158f9f#21) := by
  decide

theorem test_decode_SLI :
    decode 0b1111_01110_11010_10_0010001101000101#32 = .ok (.movSLI 14#5 0x1a2345#21) := by
  decide

theorem test_decode_SPLS :
    decode 0b1111_01111_10100_110000_0_1_1000110000#32 = .ok (.ldhSPLS 15#5 20#5 .postModify 0x230#10) ∧
    decode 0b1111_00101_10101_110001_1_0_0111110101#32 = .ok (.uldhSPLS 5#5 21#5 .sum 0x1f5#10) ∧
    decode 0b1111_00110_10110_110100_1_1_1110111010#32 = .ok (.ldbSPLS 6#5 22#5 .preModify 0x3ba#10) ∧
    decode 0b1111_00111_10000_110101_0_0_0101111111#32 = .ok (.uldbSPLS 7#5 16#5 .base 0x17f#10) ∧
    decode 0b1111_01000_10001_11001_1_0_1_1101000100#32 = .ok (.sthSPLS 8#5 17#5 .postModify 0x344#10 true) ∧
    decode 0b1111_01001_10010_11011_0_1_0_0100001001#32 = .ok (.stbSPLS 9#5 18#5 .sum 0x109#10 false) := by
  decide

theorem test_decode_SBR_1 :
    decode 0b111100000_10011_1111000000_01011_000#32 = .ok (.btSBR 19#5 11#5) ∧
    decode 0b111100000_10100_1111000000_01010_001#32 = .ok (.bfSBR 20#5 10#5) ∧
    decode 0b111100100_10101_1111000000_01001_000#32 = .ok (.bhiSBR 21#5 9#5) ∧
    decode 0b111100100_10110_1111000000_01000_001#32 = .ok (.blsSBR 22#5 8#5) ∧
    decode 0b111101000_10000_1111000000_00111_000#32 = .ok (.bccSBR 16#5 7#5) ∧
    decode 0b111101000_10001_1111000000_00110_001#32 = .ok (.bcsSBR 17#5 6#5) ∧
    decode 0b111101100_10010_1111000000_00101_000#32 = .ok (.bneSBR 18#5 5#5) ∧
    decode 0b111101100_10011_1111000000_00100_001#32 = .ok (.beqSBR 19#5 4#5) ∧
    decode 0b111110000_10100_1111000000_00011_000#32 = .ok (.bvcSBR 20#5 3#5) ∧
    decode 0b111110000_10101_1111000000_00010_001#32 = .ok (.bvsSBR 21#5 2#5) := by
  decide

theorem test_decode_SBR_2 :
    decode 0b111110100_10110_1111000000_00001_000#32 = .ok (.bplSBR 22#5 1#5) ∧
    decode 0b111110100_10000_1111000000_00000_001#32 = .ok (.bmiSBR 16#5 0#5) ∧
    decode 0b111111000_10001_1111000000_11111_000#32 = .ok (.bgeSBR 17#5 31#5) ∧
    decode 0b111111000_10010_1111000000_11110_001#32 = .ok (.bltSBR 18#5 30#5) ∧
    decode 0b111111100_10011_1111000000_11101_000#32 = .ok (.bgtSBR 19#5 29#5) ∧
    decode 0b111111100_10100_1111000000_11100_001#32 = .ok (.bleSBR 20#5 28#5) := by
  decide

/-! ## Words without an instruction, and operands the spec refuses -/

/-- Vectors RR-14, RR-15, RRR-11, RRM-14, PUNT-2, PUNT-3, SBR-5. -/
theorem test_undefined_words :
    decode 0xC2903700#32 = .error .reservedOperation ∧ decode 0xC2913000#32 = .error .reservedBit ∧
    decode 0xD2913038#32 = .error .reservedBit ∧ decode 0xA3A24806#32 = .error .noAccessWidth ∧
    decode 0xF007FF47#32 = .error .reservedBit ∧ decode 0xF0038000#32 = .error .unassignedSpecial ∧
    decode 0xF09FC048#32 = .error .reservedBit := by
  decide

/-- Vectors RRR-10, RM-12, RRM-17, SLS-5 (R35) and RRM-15 (R276); an access of the state registers and one outside
memory (R41, R61) are refused when the Memory stage makes it. -/
theorem test_refused_operands :
    refuses 0xD1103038#32 [] = some .restrictedDestination ∧
    refuses 0x81220000#32 [(8, 0x200#32)] = some .restrictedDestination ∧
    refuses 0xBFA24802#32 [(8, 0x200#32), (9, 8#32)] = some .restrictedDestination ∧
    refuses 0xF100001C#32 [] = some .restrictedDestination ∧
    refuses 0xA3A24F82#32 [(8, 1#32), (9, 0x28#32)] = some .unspecifiedAddress ∧
    refuses 0x0F800000#32 [] = some .isrWrite ∧
    accessRefusal params 0x3F4#32 .word = some .stateRegister ∧
    accessRefusal params 0x200000#32 .byte = some .unimplementedMemory ∧
    accessRefusal params 0x1FFFFF#32 .word = none := by
  decide +kernel

/-- Each check of WellFormed refuses a term that breaks it and accepts the boundary (R35, R114). -/
theorem test_wellFormed :
    (Instr.ldRM 2#5 8#5 .sum 0#16).destAllowed = false ∧
    (Instr.putAdd 31#5 4#5 false 6#5 7#5 .add).destAllowed = false ∧
    (Instr.ldRM 3#5 8#5 .sum 0#16).wellFormed = true ∧ (Instr.movSLI 2#5 0#21).wellFormed = true ∧
    (Instr.shRI 5#5 4#5 false 32#16).shiftConstInRange = false ∧
    (Instr.shaRI 5#5 4#5 false 0xFFE0#16).shiftConstInRange = false ∧
    (Instr.shRI 5#5 4#5 false 31#16).wellFormed = true ∧ (Instr.shaRI 5#5 4#5 false 0xFFE1#16).wellFormed = true := by
  decide

/-- The host's bit numbering: a table word is the instruction's word, and `withFetchWord` puts it where `step` looks. -/
theorem test_table_word :
    decodeTableWord 32 0x02920010 = some (.addRI 5#5 4#5 true false 0x10#16) ∧
    ((State.reset.withFetchWord 32 0x02920010).ctx .system).ir = .word 0x02920010#32 ∧
    decodeBytes [0x02#8, 0x92#8, 0x00#8, 0x10#8, 0xFF#8] = .ok (.addRI 5#5 4#5 true false 0x10#16, [0xFF#8]) ∧
    decodeBytes [0x02#8, 0x92#8, 0x00#8] = .error .truncated := by
  decide

/-- The assembler's operands and pseudo-instructions, by the words the spec prints: R102, R116, E1, E4, E9, programs P1, P2,
vectors RI-18, SBR-3, SLI-2. -/
theorem test_assembler :
    encode .nop = 0x00000000#32 ∧ encode (.movReg 25#5 24#5) = 0xCC640000#32 ∧
    (Instr.movLconst 0x1FFFFF#32 7#5).map encode = some 0xF3FEFFFF#32 ∧ Instr.movLconst 0x200000#32 7#5 = none ∧
    (Instr.movConst 0x00000200#32 8#5).map encode = some 0x04000200#32 ∧ Instr.movConst 0x00010001#32 8#5 = none ∧
    encode (.branchTo .btSBR 9#5) = 0xF003C048#32 ∧
    encode (.ldStep 7#5 8#5 .postModify true) = 0x83A10004#32 ∧
    encode (.byteStep .uldbSPLS 7#5 8#5 .postModify true) = 0xF3A35401#32 ∧
    encode (.byteStep (.stbSPLS · · · · false) 7#5 9#5 .preModify false) = 0xF3A76FFF#32 ∧
    (brabsOperand 0x1FFFFFC#32).map (fun k => encode (.btBR k false)) = some 0xE1FFFFFC#32 ∧
    (broffOperand 0xFF000000#32).map (fun k => encode (.btBR k true)) = some 0xE1000002#32 ∧
    brabsOperand 0x2000000#32 = none ∧ brabsOperand 6#32 = none ∧
    (shiftConstOperand 0xFFFFFFFC#32).map (fun k => encode (.shRI 5#5 4#5 true k)) = some 0x7292FFFC#32 ∧
    andConstOperand 0xFFFF00FF#32 = some (false, 0x00FF#16) ∧ andConstOperand 0x00FFFFFF#32 = some (true, 0x00FF#16) := by
  decide

/-! ## One time step of each RI, RR and RRR instruction -/

/-- Vectors RI-1, RI-3. -/
theorem test_RI_add :
    alu 5 0x02920010#32 [(4, 0xFFFFFFF0#32)] 0b0000#4 = some (0x00000000#32, 0b1001#4, 0x108#32) ∧
    alu 5 0x02911234#32 [(4, 0x00005678#32)] 0b1111#4 = some (0x12345678#32, 0b1111#4, 0x108#32) := by
  decide +kernel

/-- Vectors RI-4, RI-5. -/
theorem test_RI_addc :
    alu 5 0x12920000#32 [(4, 0xFFFFFFFF#32)] 0b1000#4 = some (0x00000000#32, 0b1001#4, 0x108#32) ∧
    alu 5 0x12920000#32 [(4, 0xFFFFFFFF#32)] 0b0000#4 = some (0xFFFFFFFF#32, 0b0010#4, 0x108#32) := by
  decide +kernel

/-- Vectors RI-7, RI-8. -/
theorem test_RI_sub :
    alu 5 0x22920005#32 [(4, 0x00000003#32)] 0b0000#4 = some (0xFFFFFFFE#32, 0b0010#4, 0x108#32) ∧
    alu 5 0x22920001#32 [(4, 0x80000000#32)] 0b0000#4 = some (0x7FFFFFFF#32, 0b1100#4, 0x108#32) := by
  decide +kernel

/-- Vectors RI-10, RI-11. -/
theorem test_RI_subb :
    alu 5 0x32920005#32 [(4, 0x00000005#32)] 0b0000#4 = some (0xFFFFFFFF#32, 0b0010#4, 0x108#32) ∧
    alu 5 0x32920005#32 [(4, 0x00000005#32)] 0b1000#4 = some (0x00000000#32, 0b1001#4, 0x108#32) := by
  decide +kernel

/-- Vectors RI-12, RI-13. -/
theorem test_RI_and :
    alu 5 0x429200FF#32 [(4, 0x12345678#32)] 0b1100#4 = some (0x12340078#32, 0b0000#4, 0x108#32) ∧
    alu 5 0x429300FF#32 [(4, 0x12345678#32)] 0b1100#4 = some (0x00345678#32, 0b0000#4, 0x108#32) := by
  decide +kernel

/-- Vectors RI-14. -/
theorem test_RI_or :
    alu 5 0x52938000#32 [(4, 0x00000001#32)] 0b1100#4 = some (0x80000001#32, 0b0010#4, 0x108#32) := by
  decide +kernel

/-- Vectors RI-15. -/
theorem test_RI_xor :
    alu 5 0x62925678#32 [(4, 0x00005678#32)] 0b1000#4 = some (0x00000000#32, 0b0001#4, 0x108#32) := by
  decide +kernel

/-- Vectors RI-16, RI-18. -/
theorem test_RI_sh :
    alu 5 0x72920004#32 [(4, 0xF0000001#32)] 0b0000#4 = some (0x00000010#32, 0b1000#4, 0x108#32) ∧
    alu 5 0x7292FFFC#32 [(4, 0x80000010#32)] 0b1100#4 = some (0x08000001#32, 0b0000#4, 0x108#32) := by
  decide +kernel

/-- Vectors RI-19, RI-23. -/
theorem test_RI_sha :
    alu 5 0x7293FFFC#32 [(4, 0x80000010#32)] 0b1100#4 = some (0xF8000001#32, 0b0010#4, 0x108#32) ∧
    alu 5 0x7293FFE1#32 [(4, 0x80000000#32)] 0b0000#4 = some (0xFFFFFFFF#32, 0b0010#4, 0x108#32) := by
  decide +kernel

/-- Vectors RI-26, RI-27, RI-28, RI-29, RI-30. -/
theorem test_RI_special_registers :
    alu 2 0x01000130#32 [] 0b0000#4 = some (0x130#32, 0b0000#4, 0x130#32) ∧
    alu 5 0x02880000#32 [] 0b0000#4 = some (0x00000104#32, 0b0000#4, 0x108#32) ∧
    alu 0 0x00120001#32 [(4, 0xFFFFFFFF#32)] 0b0000#4 = some (0x00000000#32, 0b1001#4, 0x108#32) ∧
    alu 3 0x5182000F#32 [] 0b0000#4 = some (0x00000000#32, 0b0000#4, 0x108#32) ∧
    alu 3 0x5180000A#32 [] 0b0000#4 = some (0x0000000A#32, 0b1010#4, 0x108#32) := by
  decide +kernel

/-- Vectors RR-1. -/
theorem test_RR_add :
    alu 5 0xC2923000#32 [(4, 0x80000000#32), (6, 0x80000000#32)] 0b0000#4 =
      some (0x00000000#32, 0b1101#4, 0x108#32) := by
  decide +kernel

/-- Vectors RR-2. -/
theorem test_RR_addc :
    alu 5 0xC2923100#32 [(4, 0x00000001#32), (6, 0x00000002#32)] 0b1000#4 =
      some (0x00000004#32, 0b0000#4, 0x108#32) := by
  decide +kernel

/-- Vectors RR-3, RR-4. -/
theorem test_RR_sub :
    alu 5 0xC2923200#32 [(4, 0x00000001#32), (6, 0xFFFFFFFF#32)] 0b0000#4 = some (0x00000002#32, 0b0000#4, 0x108#32) ∧
    alu 5 0xC2923200#32 [(4, 0x7FFFFFFF#32), (6, 0xFFFFFFFF#32)] 0b0000#4 =
      some (0x80000000#32, 0b0110#4, 0x108#32) := by
  decide +kernel

/-- Vectors RR-5. -/
theorem test_RR_subb :
    alu 5 0xC2923300#32 [(4, 0x00000000#32), (6, 0x00000000#32)] 0b0000#4 =
      some (0xFFFFFFFF#32, 0b0010#4, 0x108#32) := by
  decide +kernel

/-- Vectors RR-6. -/
theorem test_RR_and :
    alu 5 0xC2923400#32 [(4, 0xFF00FF00#32), (6, 0x0FF00FF0#32)] 0b1100#4 =
      some (0x0F000F00#32, 0b1000#4, 0x108#32) := by
  decide +kernel

/-- Vectors RR-7. -/
theorem test_RR_or :
    alu 5 0xC2923500#32 [(4, 0x80000000#32), (6, 0x00000001#32)] 0b0100#4 =
      some (0x80000001#32, 0b0010#4, 0x108#32) := by
  decide +kernel

/-- Vectors RR-8. -/
theorem test_RR_xor :
    alu 5 0xC2922600#32 [(4, 0xDEADBEEF#32)] 0b1010#4 = some (0x00000000#32, 0b1001#4, 0x108#32) := by
  decide +kernel

/-- Vectors RR-9, RR-10. -/
theorem test_RR_sh :
    alu 5 0xC2923780#32 [(4, 0x80000001#32), (6, 0x00000001#32)] 0b0000#4 = some (0x00000002#32, 0b1000#4, 0x108#32) ∧
    alu 5 0xC2923780#32 [(4, 0x80000001#32), (6, 0xFFFFFFFF#32)] 0b1000#4 =
      some (0x40000000#32, 0b0000#4, 0x108#32) := by
  decide +kernel

/-- Vectors RR-11. -/
theorem test_RR_sha :
    alu 5 0xC29237C0#32 [(4, 0x80000001#32), (6, 0xFFFFFFFF#32)] 0b0000#4 =
      some (0xC0000000#32, 0b0010#4, 0x108#32) := by
  decide +kernel

/-- Vectors RRR-1. -/
theorem test_RRR_add :
    alu 5 0xD292303A#32 [(4, 0x00000064#32), (6, 0x00000032#32), (7, 0x00000014#32)] 0b0000#4 =
      some (0x00000082#32, 0b0000#4, 0x108#32) := by
  decide +kernel

/-- Vectors RRR-4. -/
theorem test_RRR_addc :
    alu 5 0xD2923139#32 [(4, 0x00000001#32), (6, 0xFFFFFFFF#32), (7, 0x00000000#32)] 0b1000#4 =
      some (0x00000002#32, 0b0000#4, 0x108#32) := by
  decide +kernel

/-- Vectors RRR-2. -/
theorem test_RRR_sub :
    alu 5 0xD2923238#32 [(4, 0x00000005#32), (6, 0x00000003#32), (7, 0x00000002#32)] 0b0000#4 =
      some (0x00000000#32, 0b1001#4, 0x108#32) := by
  decide +kernel

/-- Vectors RRR-9. -/
theorem test_RRR_subb :
    alu 5 0xD292333B#32 [(4, 0x0000000A#32), (6, 0x00000005#32), (7, 0x00000002#32)] 0b0000#4 =
      some (0x00000007#32, 0b1000#4, 0x108#32) := by
  decide +kernel

/-- Vectors RRR-3. -/
theorem test_RRR_and :
    alu 5 0xD292343F#32 [(4, 0x000000FF#32), (6, 0x80000000#32), (7, 0xFFFFFFE8#32)] 0b1100#4 =
      some (0x00000080#32, 0b1000#4, 0x108#32) := by
  decide +kernel

/-- Vectors RRR-8. -/
theorem test_RRR_or :
    alu 5 0xD292353C#32 [(4, 0x00000000#32), (6, 0x000000F0#32), (7, 0x0000000F#32)] 0b0100#4 =
      some (0x00000000#32, 0b0001#4, 0x108#32) := by
  decide +kernel

/-- Vectors RRR-7. -/
theorem test_RRR_xor :
    alu 5 0xD290363E#32 [(4, 0xF0F0F0F0#32), (6, 0xFF00FF00#32), (7, 0x0F0F0F0F#32)] 0b1010#4 =
      some (0x00FF00FF#32, 0b1010#4, 0x108#32) := by
  decide +kernel

/-- Vectors RRR-5. -/
theorem test_RRR_sh :
    alu 5 0xD292373D#32 [(4, 0x40000001#32), (6, 0x00000001#32), (7, 0x00000000#32)] 0b0000#4 =
      some (0x80000002#32, 0b0010#4, 0x108#32) := by
  decide +kernel

/-- Vectors RRR-6. -/
theorem test_RRR_sha :
    alu 5 0xD293373A#32 [(4, 0x80000000#32), (6, 0x00000000#32), (7, 0x00000004#32)] 0b0000#4 =
      some (0xF8000000#32, 0b0010#4, 0x108#32) := by
  decide +kernel

/-! ## Loads and stores: the base after the Compute step, and what the Memory stage of the next step does -/

/-- Vectors RM-1, RM-2, RM-3, RM-4, RM-7. -/
theorem test_RM_ld :
    loads 0x83A20004#32 [(8, 0x00000200#32), (7, 0xAAAAAAAA#32)] 0b0000#4 =
      some (0x00000200#32, some (7#5, 0x8899AABB#32)) ∧
    loads 0x83A30004#32 [(8, 0x00000200#32), (7, 0xAAAAAAAA#32)] 0b0000#4 =
      some (0x00000204#32, some (7#5, 0x8899AABB#32)) ∧
    loads 0x83A10004#32 [(8, 0x00000200#32), (7, 0xAAAAAAAA#32)] 0b0000#4 =
      some (0x00000204#32, some (7#5, 0x11223344#32)) ∧
    loads 0x83A00004#32 [(8, 0x00000200#32), (7, 0xAAAAAAAA#32)] 0b0000#4 =
      some (0x00000200#32, some (7#5, 0x11223344#32)) ∧
    loads 0x84230004#32 [(8, 0x00000200#32)] 0b0000#4 = some (0x00000204#32, some (8#5, 0x8899AABB#32)) := by
  decide +kernel

/-- Vectors RM-8, RM-9, RM-10. -/
theorem test_RM_st :
    stores 0x93A20004#32 [(8, 0x00000200#32), (7, 0xDEADBEEF#32)] 0b0000#4 0x204#32 =
      some (0x00000200#32, 0x8899AABB#32, 0xDEADBEEF#32) ∧
    stores 0x93A3FFFC#32 [(8, 0x00000208#32), (7, 0x01020304#32)] 0b0000#4 0x204#32 =
      some (0x00000204#32, 0x8899AABB#32, 0x01020304#32) ∧
    stores 0x94210004#32 [(8, 0x00000200#32)] 0b0000#4 0x200#32 =
      some (0x00000204#32, 0x11223344#32, 0x00000200#32) := by
  decide +kernel

/-- Vectors RRM-1, RRM-2, RRM-3, RRM-4, RRM-5. -/
theorem test_RRM_widths_of_loads :
    loads 0xA3A24802#32 [(8, 0x00000200#32), (9, 0x00000004#32), (7, 0x00000000#32)] 0b0000#4 =
      some (0x00000200#32, some (7#5, 0x8899AABB#32)) ∧
    loads 0xA3A24800#32 [(8, 0x00000200#32), (9, 0x00000004#32), (7, 0x00000000#32)] 0b0000#4 =
      some (0x00000200#32, some (7#5, 0xFFFF8899#32)) ∧
    loads 0xA3A24801#32 [(8, 0x00000200#32), (9, 0x00000006#32), (7, 0x00000000#32)] 0b0000#4 =
      some (0x00000200#32, some (7#5, 0x0000AABB#32)) ∧
    loads 0xA3A24804#32 [(8, 0x00000200#32), (9, 0x00000007#32), (7, 0x00000000#32)] 0b0000#4 =
      some (0x00000200#32, some (7#5, 0xFFFFFFBB#32)) ∧
    loads 0xA3A24805#32 [(8, 0x00000200#32), (9, 0x00000005#32), (7, 0x00000000#32)] 0b0000#4 =
      some (0x00000200#32, some (7#5, 0x00000099#32)) := by
  decide +kernel

/-- Vectors RRM-7, RRM-8, RRM-9. -/
theorem test_RRM_widths_of_stores :
    stores 0xB3A24802#32 [(8, 0x00000200#32), (9, 0x00000008#32), (7, 0x01020304#32)] 0b0000#4 0x208#32 =
      some (0x00000200#32, 0xCCDDEEFF#32, 0x01020304#32) ∧
    stores 0xB3A24800#32 [(8, 0x00000200#32), (9, 0x00000006#32), (7, 0x01020304#32)] 0b0000#4 0x204#32 =
      some (0x00000200#32, 0x8899AABB#32, 0x88990304#32) ∧
    stores 0xB3A24804#32 [(8, 0x00000200#32), (9, 0x00000005#32), (7, 0x01020304#32)] 0b0000#4 0x204#32 =
      some (0x00000200#32, 0x8899AABB#32, 0x8804AABB#32) := by
  decide +kernel

/-- Vectors RRM-10, RRM-11, RRM-12, RRM-13, RRM-16. -/
theorem test_RRM_ld_operations :
    loads 0xA3A34A02#32 [(8, 0x0000020C#32), (9, 0x00000004#32), (7, 0x00000000#32)] 0b0000#4 =
      some (0x00000208#32, some (7#5, 0xCCDDEEFF#32)) ∧
    loads 0xA3A24F85#32 [(8, 0x00000081#32), (9, 0x00000002#32), (7, 0x00000000#32)] 0b0000#4 =
      some (0x00000081#32, some (7#5, 0x8899AABB#32)) ∧
    loads 0xA3A14C02#32 [(8, 0x00000207#32), (9, 0xFFFFFFFC#32), (7, 0x00000000#32)] 0b0000#4 =
      some (0x00000204#32, some (7#5, 0x8899AABB#32)) ∧
    loads 0xA3A24902#32 [(8, 0x00000200#32), (9, 0x00000003#32), (7, 0x00000000#32)] 0b1000#4 =
      some (0x00000200#32, some (7#5, 0x8899AABB#32)) ∧
    loads 0xA3A04F82#32 [(8, 0x00000204#32), (9, 0x00000028#32), (7, 0x00000000#32)] 0b0000#4 =
      some (0x00000204#32, some (7#5, 0x8899AABB#32)) := by
  decide +kernel

/-- Vectors SLS-1, SLS-2. -/
theorem test_SLS_ld :
    loads 0xF3800204#32 [(7, 0x00000000#32)] 0b0000#4 = some (0x0#32, some (7#5, 0x8899AABB#32)) ∧
    loads 0xF3800207#32 [(7, 0x00000000#32)] 0b0000#4 = some (0x0#32, some (7#5, 0x8899AABB#32)) := by
  decide +kernel

/-- Vectors SLS-3. -/
theorem test_SLS_st :
    stores 0xF3810208#32 [(7, 0x0BADF00D#32)] 0b0000#4 0x208#32 = some (0x0#32, 0xCCDDEEFF#32, 0x0BADF00D#32) := by
  decide +kernel

/-- Vectors SLI-1, SLI-2. -/
theorem test_SLI_mov :
    loads 0xF3862345#32 [(7, 0xAAAAAAAA#32)] 0b1111#4 = some (0x0#32, some (7#5, 0x00012345#32)) ∧
    loads 0xF3FEFFFF#32 [(7, 0x00000000#32)] 0b0000#4 = some (0x0#32, some (7#5, 0x001FFFFF#32)) := by
  decide +kernel

/-- Vectors SPLS-1, SPLS-2, SPLS-3, SPLS-4. -/
theorem test_SPLS_loads :
    loads 0xF3A30806#32 [(8, 0x00000200#32), (7, 0x00000000#32)] 0b0000#4 =
      some (0x00000200#32, some (7#5, 0xFFFFAABB#32)) ∧
    loads 0xF3A31806#32 [(8, 0x00000200#32), (7, 0x00000000#32)] 0b0000#4 =
      some (0x00000200#32, some (7#5, 0x0000AABB#32)) ∧
    loads 0xF3A34806#32 [(8, 0x00000200#32), (7, 0x00000000#32)] 0b0000#4 =
      some (0x00000200#32, some (7#5, 0xFFFFFFAA#32)) ∧
    loads 0xF3A35806#32 [(8, 0x00000200#32), (7, 0x00000000#32)] 0b0000#4 =
      some (0x00000200#32, some (7#5, 0x000000AA#32)) := by
  decide +kernel

/-- Vectors SPLS-7, SPLS-8. -/
theorem test_SPLS_modes :
    loads 0xF3A34FFF#32 [(8, 0x00000208#32), (7, 0x00000000#32)] 0b0000#4 =
      some (0x00000207#32, some (7#5, 0xFFFFFFBB#32)) ∧
    loads 0xF3A35401#32 [(8, 0x00000204#32), (7, 0x00000000#32)] 0b0000#4 =
      some (0x00000205#32, some (7#5, 0x00000088#32)) := by
  decide +kernel

/-- Vectors SPLS-5, SPLS-6, SPLS-10. -/
theorem test_SPLS_stores :
    stores 0xF3A32806#32 [(8, 0x00000200#32), (7, 0x01020304#32)] 0b0000#4 0x204#32 =
      some (0x00000200#32, 0x8899AABB#32, 0x88990304#32) ∧
    stores 0xF3A36806#32 [(8, 0x00000200#32), (7, 0x01020304#32)] 0b0000#4 0x204#32 =
      some (0x00000200#32, 0x8899AABB#32, 0x889904BB#32) ∧
    stores 0xF3A37806#32 [(8, 0x00000200#32), (7, 0x01020304#32)] 0b0000#4 0x204#32 =
      some (0x00000200#32, 0x8899AABB#32, 0x889904BB#32) := by
  decide +kernel

/-- RRM with `add`: R261, R267 to R275, by hand. -/
theorem test_RRM_add :
    leaves 0xa3a24802#32 [(7, 0x01020304#32), (8, 0x200#32), (9, 0x4#32)] 0#4 =
      some (.load 0x204#32 .word .sign 7#5) ∧
    leaves 0xa3a24800#32 [(7, 0x01020304#32), (8, 0x200#32), (9, 0x4#32)] 0#4 =
      some (.load 0x204#32 .half .sign 7#5) ∧
    leaves 0xa3a24801#32 [(7, 0x01020304#32), (8, 0x200#32), (9, 0x4#32)] 0#4 =
      some (.load 0x204#32 .half .zero 7#5) ∧
    leaves 0xa3a24804#32 [(7, 0x01020304#32), (8, 0x200#32), (9, 0x4#32)] 0#4 =
      some (.load 0x204#32 .byte .sign 7#5) ∧
    leaves 0xa3a24805#32 [(7, 0x01020304#32), (8, 0x200#32), (9, 0x4#32)] 0#4 =
      some (.load 0x204#32 .byte .zero 7#5) ∧
    leaves 0xb3a24802#32 [(7, 0x01020304#32), (8, 0x200#32), (9, 0x4#32)] 0#4 =
      some (.store 0x204#32 .word 0x01020304#32) ∧
    leaves 0xb3a24800#32 [(7, 0x01020304#32), (8, 0x200#32), (9, 0x4#32)] 0#4 =
      some (.store 0x204#32 .half 0x01020304#32) ∧
    leaves 0xb3a24804#32 [(7, 0x01020304#32), (8, 0x200#32), (9, 0x4#32)] 0#4 =
      some (.store 0x204#32 .byte 0x01020304#32) := by
  decide +kernel

/-- RRM with `addc`: R261, R267 to R275, by hand. -/
theorem test_RRM_addc :
    leaves 0xa3a24902#32 [(7, 0x01020304#32), (8, 0x200#32), (9, 0x3#32)] 8#4 =
      some (.load 0x204#32 .word .sign 7#5) ∧
    leaves 0xa3a24900#32 [(7, 0x01020304#32), (8, 0x200#32), (9, 0x3#32)] 8#4 =
      some (.load 0x204#32 .half .sign 7#5) ∧
    leaves 0xa3a24901#32 [(7, 0x01020304#32), (8, 0x200#32), (9, 0x3#32)] 8#4 =
      some (.load 0x204#32 .half .zero 7#5) ∧
    leaves 0xa3a24904#32 [(7, 0x01020304#32), (8, 0x200#32), (9, 0x3#32)] 8#4 =
      some (.load 0x204#32 .byte .sign 7#5) ∧
    leaves 0xa3a24905#32 [(7, 0x01020304#32), (8, 0x200#32), (9, 0x3#32)] 8#4 =
      some (.load 0x204#32 .byte .zero 7#5) ∧
    leaves 0xb3a24902#32 [(7, 0x01020304#32), (8, 0x200#32), (9, 0x3#32)] 8#4 =
      some (.store 0x204#32 .word 0x01020304#32) ∧
    leaves 0xb3a24900#32 [(7, 0x01020304#32), (8, 0x200#32), (9, 0x3#32)] 8#4 =
      some (.store 0x204#32 .half 0x01020304#32) ∧
    leaves 0xb3a24904#32 [(7, 0x01020304#32), (8, 0x200#32), (9, 0x3#32)] 8#4 =
      some (.store 0x204#32 .byte 0x01020304#32) := by
  decide +kernel

/-- RRM with `sub`: R261, R267 to R275, by hand. -/
theorem test_RRM_sub :
    leaves 0xa3a24a02#32 [(7, 0x01020304#32), (8, 0x20c#32), (9, 0x4#32)] 8#4 =
      some (.load 0x208#32 .word .sign 7#5) ∧
    leaves 0xa3a24a00#32 [(7, 0x01020304#32), (8, 0x20c#32), (9, 0x4#32)] 8#4 =
      some (.load 0x208#32 .half .sign 7#5) ∧
    leaves 0xa3a24a01#32 [(7, 0x01020304#32), (8, 0x20c#32), (9, 0x4#32)] 8#4 =
      some (.load 0x208#32 .half .zero 7#5) ∧
    leaves 0xa3a24a04#32 [(7, 0x01020304#32), (8, 0x20c#32), (9, 0x4#32)] 8#4 =
      some (.load 0x208#32 .byte .sign 7#5) ∧
    leaves 0xa3a24a05#32 [(7, 0x01020304#32), (8, 0x20c#32), (9, 0x4#32)] 8#4 =
      some (.load 0x208#32 .byte .zero 7#5) ∧
    leaves 0xb3a24a02#32 [(7, 0x01020304#32), (8, 0x20c#32), (9, 0x4#32)] 8#4 =
      some (.store 0x208#32 .word 0x01020304#32) ∧
    leaves 0xb3a24a00#32 [(7, 0x01020304#32), (8, 0x20c#32), (9, 0x4#32)] 8#4 =
      some (.store 0x208#32 .half 0x01020304#32) ∧
    leaves 0xb3a24a04#32 [(7, 0x01020304#32), (8, 0x20c#32), (9, 0x4#32)] 8#4 =
      some (.store 0x208#32 .byte 0x01020304#32) := by
  decide +kernel

/-- RRM with `subb`: R261, R267 to R275, by hand. -/
theorem test_RRM_subb :
    leaves 0xa3a24b02#32 [(7, 0x01020304#32), (8, 0x20c#32), (9, 0x3#32)] 0#4 =
      some (.load 0x208#32 .word .sign 7#5) ∧
    leaves 0xa3a24b00#32 [(7, 0x01020304#32), (8, 0x20c#32), (9, 0x3#32)] 0#4 =
      some (.load 0x208#32 .half .sign 7#5) ∧
    leaves 0xa3a24b01#32 [(7, 0x01020304#32), (8, 0x20c#32), (9, 0x3#32)] 0#4 =
      some (.load 0x208#32 .half .zero 7#5) ∧
    leaves 0xa3a24b04#32 [(7, 0x01020304#32), (8, 0x20c#32), (9, 0x3#32)] 0#4 =
      some (.load 0x208#32 .byte .sign 7#5) ∧
    leaves 0xa3a24b05#32 [(7, 0x01020304#32), (8, 0x20c#32), (9, 0x3#32)] 0#4 =
      some (.load 0x208#32 .byte .zero 7#5) ∧
    leaves 0xb3a24b02#32 [(7, 0x01020304#32), (8, 0x20c#32), (9, 0x3#32)] 0#4 =
      some (.store 0x208#32 .word 0x01020304#32) ∧
    leaves 0xb3a24b00#32 [(7, 0x01020304#32), (8, 0x20c#32), (9, 0x3#32)] 0#4 =
      some (.store 0x208#32 .half 0x01020304#32) ∧
    leaves 0xb3a24b04#32 [(7, 0x01020304#32), (8, 0x20c#32), (9, 0x3#32)] 0#4 =
      some (.store 0x208#32 .byte 0x01020304#32) := by
  decide +kernel

/-- RRM with `and`: R261, R267 to R275, by hand. -/
theorem test_RRM_and :
    leaves 0xa3a24c02#32 [(7, 0x01020304#32), (8, 0x20f#32), (9, 0xfffffff4#32)] 0#4 =
      some (.load 0x204#32 .word .sign 7#5) ∧
    leaves 0xa3a24c00#32 [(7, 0x01020304#32), (8, 0x20f#32), (9, 0xfffffff4#32)] 0#4 =
      some (.load 0x204#32 .half .sign 7#5) ∧
    leaves 0xa3a24c01#32 [(7, 0x01020304#32), (8, 0x20f#32), (9, 0xfffffff4#32)] 0#4 =
      some (.load 0x204#32 .half .zero 7#5) ∧
    leaves 0xa3a24c04#32 [(7, 0x01020304#32), (8, 0x20f#32), (9, 0xfffffff4#32)] 0#4 =
      some (.load 0x204#32 .byte .sign 7#5) ∧
    leaves 0xa3a24c05#32 [(7, 0x01020304#32), (8, 0x20f#32), (9, 0xfffffff4#32)] 0#4 =
      some (.load 0x204#32 .byte .zero 7#5) ∧
    leaves 0xb3a24c02#32 [(7, 0x01020304#32), (8, 0x20f#32), (9, 0xfffffff4#32)] 0#4 =
      some (.store 0x204#32 .word 0x01020304#32) ∧
    leaves 0xb3a24c00#32 [(7, 0x01020304#32), (8, 0x20f#32), (9, 0xfffffff4#32)] 0#4 =
      some (.store 0x204#32 .half 0x01020304#32) ∧
    leaves 0xb3a24c04#32 [(7, 0x01020304#32), (8, 0x20f#32), (9, 0xfffffff4#32)] 0#4 =
      some (.store 0x204#32 .byte 0x01020304#32) := by
  decide +kernel

/-- RRM with `or`: R261, R267 to R275, by hand. -/
theorem test_RRM_or :
    leaves 0xa3a24d02#32 [(7, 0x01020304#32), (8, 0x200#32), (9, 0x204#32)] 0#4 =
      some (.load 0x204#32 .word .sign 7#5) ∧
    leaves 0xa3a24d00#32 [(7, 0x01020304#32), (8, 0x200#32), (9, 0x204#32)] 0#4 =
      some (.load 0x204#32 .half .sign 7#5) ∧
    leaves 0xa3a24d01#32 [(7, 0x01020304#32), (8, 0x200#32), (9, 0x204#32)] 0#4 =
      some (.load 0x204#32 .half .zero 7#5) ∧
    leaves 0xa3a24d04#32 [(7, 0x01020304#32), (8, 0x200#32), (9, 0x204#32)] 0#4 =
      some (.load 0x204#32 .byte .sign 7#5) ∧
    leaves 0xa3a24d05#32 [(7, 0x01020304#32), (8, 0x200#32), (9, 0x204#32)] 0#4 =
      some (.load 0x204#32 .byte .zero 7#5) ∧
    leaves 0xb3a24d02#32 [(7, 0x01020304#32), (8, 0x200#32), (9, 0x204#32)] 0#4 =
      some (.store 0x204#32 .word 0x01020304#32) ∧
    leaves 0xb3a24d00#32 [(7, 0x01020304#32), (8, 0x200#32), (9, 0x204#32)] 0#4 =
      some (.store 0x204#32 .half 0x01020304#32) ∧
    leaves 0xb3a24d04#32 [(7, 0x01020304#32), (8, 0x200#32), (9, 0x204#32)] 0#4 =
      some (.store 0x204#32 .byte 0x01020304#32) := by
  decide +kernel

/-- RRM with `xor`: R261, R267 to R275, by hand. -/
theorem test_RRM_xor :
    leaves 0xa3a24e02#32 [(7, 0x01020304#32), (8, 0x20c#32), (9, 0x4#32)] 0#4 =
      some (.load 0x208#32 .word .sign 7#5) ∧
    leaves 0xa3a24e00#32 [(7, 0x01020304#32), (8, 0x20c#32), (9, 0x4#32)] 0#4 =
      some (.load 0x208#32 .half .sign 7#5) ∧
    leaves 0xa3a24e01#32 [(7, 0x01020304#32), (8, 0x20c#32), (9, 0x4#32)] 0#4 =
      some (.load 0x208#32 .half .zero 7#5) ∧
    leaves 0xa3a24e04#32 [(7, 0x01020304#32), (8, 0x20c#32), (9, 0x4#32)] 0#4 =
      some (.load 0x208#32 .byte .sign 7#5) ∧
    leaves 0xa3a24e05#32 [(7, 0x01020304#32), (8, 0x20c#32), (9, 0x4#32)] 0#4 =
      some (.load 0x208#32 .byte .zero 7#5) ∧
    leaves 0xb3a24e02#32 [(7, 0x01020304#32), (8, 0x20c#32), (9, 0x4#32)] 0#4 =
      some (.store 0x208#32 .word 0x01020304#32) ∧
    leaves 0xb3a24e00#32 [(7, 0x01020304#32), (8, 0x20c#32), (9, 0x4#32)] 0#4 =
      some (.store 0x208#32 .half 0x01020304#32) ∧
    leaves 0xb3a24e04#32 [(7, 0x01020304#32), (8, 0x20c#32), (9, 0x4#32)] 0#4 =
      some (.store 0x208#32 .byte 0x01020304#32) := by
  decide +kernel

/-- RRM with `sh` and `sha` by -4: R263, R275, by hand. -/
theorem test_RRM_shifts :
    leaves 0xa3a24f82#32 [(7, 0x01020304#32), (8, 0x80000200#32), (9, 0xFFFFFFFC#32)] 0#4 =
      some (.load 0x08000020#32 .word .sign 7#5) ∧
    leaves 0xb3a24f82#32 [(7, 0x01020304#32), (8, 0x80000200#32), (9, 0xFFFFFFFC#32)] 0#4 =
      some (.store 0x08000020#32 .word 0x01020304#32) ∧
    leaves 0xa3a24fc2#32 [(7, 0x01020304#32), (8, 0x80000200#32), (9, 0xFFFFFFFC#32)] 0#4 =
      some (.load 0xF8000020#32 .word .sign 7#5) ∧
    leaves 0xb3a24fc2#32 [(7, 0x01020304#32), (8, 0x80000200#32), (9, 0xFFFFFFFC#32)] 0#4 =
      some (.store 0xF8000020#32 .word 0x01020304#32) := by
  decide +kernel

/-! ## Branches -/

/-- Vectors BR-1, BR-2, BR-3, BR-4, BR-5, BR-6, BR-7, BR-8, BR-9, BR-10, BR-11, BR-12, BR-13, BR-14. -/
theorem test_BR_conditions_1 :
    target 0xE0000130#32 [] 0b0000#4 = some 0x130#32 ∧
    target 0xE0000131#32 [] 0b1111#4 = some 0x108#32 ∧
    target 0xE2000130#32 [] 0b1000#4 = some 0x130#32 ∧
    target 0xE2000130#32 [] 0b1001#4 = some 0x108#32 ∧
    target 0xE2000131#32 [] 0b0000#4 = some 0x130#32 ∧
    target 0xE2000131#32 [] 0b1000#4 = some 0x108#32 ∧
    target 0xE4000130#32 [] 0b0111#4 = some 0x130#32 ∧
    target 0xE4000130#32 [] 0b1000#4 = some 0x108#32 ∧
    target 0xE4000131#32 [] 0b1000#4 = some 0x130#32 ∧
    target 0xE4000131#32 [] 0b0111#4 = some 0x108#32 ∧
    target 0xE6000130#32 [] 0b1110#4 = some 0x130#32 ∧
    target 0xE6000130#32 [] 0b0001#4 = some 0x108#32 ∧
    target 0xE6000131#32 [] 0b0001#4 = some 0x130#32 ∧
    target 0xE6000131#32 [] 0b1110#4 = some 0x108#32 := by
  decide +kernel

/-- Vectors BR-15, BR-16, BR-17, BR-18, BR-19, BR-20, BR-21, BR-22, BR-23, BR-24, BR-25, BR-26, BR-27, BR-28, BR-29, BR-30. -/
theorem test_BR_conditions_2 :
    target 0xE8000130#32 [] 0b1011#4 = some 0x130#32 ∧
    target 0xE8000130#32 [] 0b0100#4 = some 0x108#32 ∧
    target 0xE8000131#32 [] 0b0100#4 = some 0x130#32 ∧
    target 0xE8000131#32 [] 0b1011#4 = some 0x108#32 ∧
    target 0xEA000130#32 [] 0b1101#4 = some 0x130#32 ∧
    target 0xEA000130#32 [] 0b0010#4 = some 0x108#32 ∧
    target 0xEA000131#32 [] 0b0010#4 = some 0x130#32 ∧
    target 0xEA000131#32 [] 0b1101#4 = some 0x108#32 ∧
    target 0xEC000130#32 [] 0b0110#4 = some 0x130#32 ∧
    target 0xEC000130#32 [] 0b0100#4 = some 0x108#32 ∧
    target 0xEC000131#32 [] 0b0010#4 = some 0x130#32 ∧
    target 0xEC000131#32 [] 0b0110#4 = some 0x108#32 ∧
    target 0xEE000130#32 [] 0b0000#4 = some 0x130#32 ∧
    target 0xEE000130#32 [] 0b0111#4 = some 0x108#32 ∧
    target 0xEE000131#32 [] 0b0111#4 = some 0x130#32 ∧
    target 0xEE000131#32 [] 0b0110#4 = some 0x108#32 := by
  decide +kernel

/-- The sixteen conditions under SBR (R351, R352), on the flags of vectors BR-1 to BR-30. -/
theorem test_SBR_conditions :
    target 0xf01fc048#32 [(7, 0x110#32), (9, 0x20#32)] 0b0000#4 = some 0x130#32 ∧
    target 0xf01fc049#32 [(7, 0x110#32), (9, 0x20#32)] 0b1111#4 = some 0x108#32 ∧
    target 0xf21fc048#32 [(7, 0x110#32), (9, 0x20#32)] 0b1000#4 = some 0x130#32 ∧
    target 0xf21fc048#32 [(7, 0x110#32), (9, 0x20#32)] 0b1001#4 = some 0x108#32 ∧
    target 0xf21fc049#32 [(7, 0x110#32), (9, 0x20#32)] 0b0000#4 = some 0x130#32 ∧
    target 0xf21fc049#32 [(7, 0x110#32), (9, 0x20#32)] 0b1000#4 = some 0x108#32 ∧
    target 0xf41fc048#32 [(7, 0x110#32), (9, 0x20#32)] 0b0111#4 = some 0x130#32 ∧
    target 0xf41fc048#32 [(7, 0x110#32), (9, 0x20#32)] 0b1000#4 = some 0x108#32 ∧
    target 0xf41fc049#32 [(7, 0x110#32), (9, 0x20#32)] 0b1000#4 = some 0x130#32 ∧
    target 0xf41fc049#32 [(7, 0x110#32), (9, 0x20#32)] 0b0111#4 = some 0x108#32 ∧
    target 0xf61fc048#32 [(7, 0x110#32), (9, 0x20#32)] 0b1110#4 = some 0x130#32 ∧
    target 0xf61fc048#32 [(7, 0x110#32), (9, 0x20#32)] 0b0001#4 = some 0x108#32 ∧
    target 0xf61fc049#32 [(7, 0x110#32), (9, 0x20#32)] 0b0001#4 = some 0x130#32 ∧
    target 0xf61fc049#32 [(7, 0x110#32), (9, 0x20#32)] 0b1110#4 = some 0x108#32 ∧
    target 0xf81fc048#32 [(7, 0x110#32), (9, 0x20#32)] 0b1011#4 = some 0x130#32 ∧
    target 0xf81fc048#32 [(7, 0x110#32), (9, 0x20#32)] 0b0100#4 = some 0x108#32 ∧
    target 0xf81fc049#32 [(7, 0x110#32), (9, 0x20#32)] 0b0100#4 = some 0x130#32 ∧
    target 0xf81fc049#32 [(7, 0x110#32), (9, 0x20#32)] 0b1011#4 = some 0x108#32 ∧
    target 0xfa1fc048#32 [(7, 0x110#32), (9, 0x20#32)] 0b1101#4 = some 0x130#32 ∧
    target 0xfa1fc048#32 [(7, 0x110#32), (9, 0x20#32)] 0b0010#4 = some 0x108#32 ∧
    target 0xfa1fc049#32 [(7, 0x110#32), (9, 0x20#32)] 0b0010#4 = some 0x130#32 ∧
    target 0xfa1fc049#32 [(7, 0x110#32), (9, 0x20#32)] 0b1101#4 = some 0x108#32 ∧
    target 0xfc1fc048#32 [(7, 0x110#32), (9, 0x20#32)] 0b0110#4 = some 0x130#32 ∧
    target 0xfc1fc048#32 [(7, 0x110#32), (9, 0x20#32)] 0b0100#4 = some 0x108#32 ∧
    target 0xfc1fc049#32 [(7, 0x110#32), (9, 0x20#32)] 0b0010#4 = some 0x130#32 ∧
    target 0xfc1fc049#32 [(7, 0x110#32), (9, 0x20#32)] 0b0110#4 = some 0x108#32 ∧
    target 0xfe1fc048#32 [(7, 0x110#32), (9, 0x20#32)] 0b0000#4 = some 0x130#32 ∧
    target 0xfe1fc048#32 [(7, 0x110#32), (9, 0x20#32)] 0b0111#4 = some 0x108#32 ∧
    target 0xfe1fc049#32 [(7, 0x110#32), (9, 0x20#32)] 0b0111#4 = some 0x130#32 ∧
    target 0xfe1fc049#32 [(7, 0x110#32), (9, 0x20#32)] 0b0110#4 = some 0x108#32 := by
  decide +kernel

/-- Vectors SBR-1 to SBR-4, BR-31, BR-32. -/
theorem test_branch_targets :
    target 0xF61FC049#32 [(7, 0x1000#32), (9, 0x24#32)] 0b0001#4 = some 0x1024#32 ∧
    target 0xF61FC049#32 [(7, 0x1000#32), (9, 0x24#32)] 0b0000#4 = some 0x108#32 ∧
    target 0xF003C048#32 [(9, 0x133#32)] 0b0000#4 = some 0x130#32 ∧
    target 0xF00BC048#32 [(9, 0x20#32)] 0b0000#4 = some 0x124#32 ∧
    target 0xE1FFFFFA#32 [] 0b0000#4 = some 0xFC#32 ∧
    target 0xE0000022#32 [] 0b0000#4 = some 0x124#32 := by
  decide +kernel

/-! ## PUNT and the interrupt -/

/-- PUNT-1 (R311, R312): the context toggles, the fetched word waits in the latch, `pc` is incremented. -/
theorem test_PUNT :
    (next? (step (at' 0xF003FF47#32 [] 0b0000#4))).map (fun t => (t.cur, t.sys.pc, t.sys.ms, t.usr.ir)) =
      some (.user, 0x108#32, .idle, .bubble) := by
  decide +kernel

/-- A user step at whose end an enabled bit of `isr` stands goes to the system context (R363); `dbg_bit` is one (R375). -/
theorem test_interrupt :
    (next? (step { base with cur := .user, imr := 0x20#32 })).map (fun t => (t.cur, t.usr.pc, t.sys.pc)) =
      some (.system, 0x304#32, 0x104#32) ∧
    (next? (step { base with cur := .user, imr := 0x1#32 })).map (·.cur) = some .user ∧
    (next? (step { base with cur := .user, imr := 0x1#32, isrInputs := [1#32] })).map (·.cur) = some .system := by
  decide +kernel

/-! ## Witnesses -/

/-- Whether an outcome is a next state. -/
def isNext (r : StepResult) : Bool := (next? r).isSome

/-- The next state of an outcome, or `base`. -/
def after (r : StepResult) : State := (next? r).getD base

theorem eq_next_after {r : StepResult} (h : isNext r = true) : r = .next (after r) := by
  cases r <;> simp_all [isNext, after, next?]

/-- A state in which everything is allowed: `r5` is a destination, `r6` to `r9` hold 31, -31, 32 and -32, `r10` holds an
address, and a load of `r11` is pending. -/
def fine : State :=
  { at' 0x02920010#32 [(6, 31#32), (7, 0xFFFFFFE1#32), (8, 32#32), (9, 0xFFFFFFE0#32), (10, 0x203#32)] 0b1000#4 with
    sys := { (at' 0x02920010#32 [] 0b1000#4).sys with ms := .load 0x205#32 .half .sign 11#5 } }

/-- The same in the user context, with a store pending. -/
def fineUser : State :=
  { fine with cur := .user, usr := { fine.usr with ir := .word 0x02920010#32, ms := .store 0x20A#32 .half 0x1234#32 } }

/-- `fine` with memory at its `pc` holding `add.f %r4,0x10,%r5`, and a store pending elsewhere. -/
def fetching : State :=
  { fine with mem := memWrite data 0x104#32 .word 0x02920010#32, sys := { fine.sys with ms := .store 0x200#32 .word 7#32 } }

/-- `fine` with `punt` latched and `dbg_bit` enabled. -/
def punting : State := { fine with sys := { fine.sys with ir := .word 0xF003FF47#32 }, imr := 0x20#32 }

theorem fine_ready : Ready fine ∧ Ready fineUser ∧ MayWrite fine 5#5 ∧ MayWrite fine 10#5 ∧ MayUseRd fine 5#5 ∧
    MayUseRd fine 3#5 := by
  decide +kernel

theorem fine_steps : isNext (step fine) = true ∧ isNext (step fineUser) = true ∧ isNext (step fetching) = true ∧
    isNext (step punting) = true := by
  decide +kernel

theorem fine_step : step fine = .next (after (step fine)) := eq_next_after fine_steps.1

theorem witness_EncodeOfDecode : decode 0x02920010#32 = .ok (.addRI 5#5 4#5 true false 0x10#16) := by decide

theorem witness_StepExecutesLatchedInstruction :
    (fine.ctx fine.cur).ir = .word 0x02920010#32 ∧ decode 0x02920010#32 = .ok (.addRI 5#5 4#5 true false 0x10#16) := by
  decide

theorem witness_FetchedBytesRunInTheNextStep :
    fetching.Inv ∧ step fetching = .next (after (step fetching)) ∧ (after (step fetching)).cur = fetching.cur ∧
    storeMeetsFetch fetching = false ∧
    (let pc := (fetching.ctx fetching.cur).pc
     decodeBytes [byteAt fetching.mem pc, byteAt fetching.mem (pc + 1#32), byteAt fetching.mem (pc + 2#32),
       byteAt fetching.mem (pc + 3#32)] = .ok (.addRI 5#5 4#5 true false 0x10#16, [])) :=
  ⟨by decide +kernel, eq_next_after fine_steps.2.2.1, by decide +kernel, by decide, by decide +kernel⟩

theorem witness_BubbleComputesNothing : (base.ctx base.cur).ir = .bubble ∧ Ready base := by decide +kernel

theorem witness_UndefinedWordIsRefused :
    ¬ Spec.DefinedWord 0xC2903700#32 ∧ ¬ Spec.DefinedWord 0xC2913000#32 ∧ ¬ Spec.DefinedWord 0xA3A24806#32 ∧
    ¬ Spec.DefinedWord 0xF0038000#32 := by
  unfold Spec.DefinedWord; decide

theorem witness_AllZeroWordIsANoOp : Ready fine ∧ Ready fineUser := ⟨fine_ready.1, fine_ready.2.1⟩

theorem witness_NextStateOnlyWhenReady :
    (fine.ctx fine.cur).ir = .word 0x02920010#32 ∧ decode 0x02920010#32 = .ok (.addRI 5#5 4#5 true false 0x10#16) ∧
    step fine = .next (after (step fine)) ∧ fine.params.isrWrite = .refuse :=
  ⟨rfl, by decide, fine_step, rfl⟩

/-- Registers 4 and 27 are not named, nor are `imr`, the flags' registers, `pc` and `apc`; 5 and 11 are. -/
theorem witness_EveryInstructionChangesOnlyWhatItNames :
    (fine.ctx fine.cur).ir = .word 0x02920010#32 ∧ decode 0x02920010#32 = .ok (.addRI 5#5 4#5 true false 0x10#16) ∧
    step fine = .next (after (step fine)) ∧
    (∀ r ∈ [4#5, 27#5, 30#5, 3#5, 28#5, 2#5, 29#5],
      (Instr.addRI 5#5 4#5 true false 0x10#16).computeDest ≠ some r ∧ (loadPort fine).map Prod.fst ≠ some r) ∧
    (Instr.addRI 5#5 4#5 false false 0x10#16).updatesFlags = false ∧
    (Instr.addRI 5#5 4#5 true false 0x10#16).usesMemoryStage = false :=
  ⟨rfl, by decide, fine_step, by decide +kernel, rfl, rfl⟩

theorem witness_InvariantKeptByStep : fine.Inv ∧ step fine = .next (after (step fine)) :=
  ⟨by decide +kernel, fine_step⟩

/-- The system context, the user context without and with a request, and `punt`. -/
theorem witness_ContextChangesOnlyByPuntOrInterrupt :
    step fine = .next (after (step fine)) ∧ step fineUser = .next (after (step fineUser)) ∧
    step punting = .next (after (step punting)) ∧ fine.cur = .system ∧ fineUser.cur = .user ∧
    (after (step fineUser)).cur = .user ∧
    (next? (step { fineUser with imr := 0x20#32 })).map (·.cur) = some .system ∧
    (punting.ctx punting.cur).ir = .word 0xF003FF47#32 ∧ (fine.ctx fine.cur).ir ≠ .word 0xF003FF47#32 :=
  ⟨fine_step, eq_next_after fine_steps.2.1, eq_next_after fine_steps.2.2.2, rfl, rfl, by decide +kernel,
    by decide +kernel, rfl, by decide⟩

theorem witness_TakingTheInterruptChangesOnlyCur :
    (let u : State := { fineUser with imr := 0x20#32 }
     u.cur = .user ∧ isrValue u &&& u.imr ≠ 0#32) ∧ isrValue fineUser &&& fineUser.imr = 0#32 ∧ fine.cur = .system := by
  decide

/-- A step names no register that neither its instruction's result nor its load port goes to. -/
theorem not_names {s : State} {w : Word} {i : Instr} {r : RegNum} (hw : (s.ctx s.cur).ir = .word w)
    (hd : decode w = .ok i) (hc : i.computeDest ≠ some r) (hl : (loadPort s).map Prod.fst ≠ some r) : ¬ s.names r := by
  rintro (⟨j, ⟨w', hw', hj⟩, hc'⟩ | ⟨v, hv⟩)
  · obtain rfl := Latch.word.inj (hw.symm.trans hw')
    obtain rfl := Except.ok.inj (hd.symm.trans hj)
    exact hc hc'
  · simp [hv] at hl

/-- A bubble's step, and a step that names neither `aps` nor `apc` (5 and 11 are its registers). -/
theorem witness_AlternateContextIsFrozen :
    step base = .next (after (step base)) ∧ step fine = .next (after (step fine)) ∧ ¬ fine.names 28#5 ∧
    ¬ fine.names 29#5 := by
  have hd : decode 0x02920010#32 = .ok (.addRI 5#5 4#5 true false 0x10#16) := by decide
  exact ⟨eq_next_after (by decide +kernel), fine_step, not_names rfl hd (by decide) (by decide +kernel),
    not_names rfl hd (by decide) (by decide +kernel)⟩

theorem witness_SingleStepDebugging :
    (let t := after (step punting)
     let u := after (step t)
     punting.cur = .system ∧ (punting.ctx punting.cur).ir = .word 0xF003FF47#32 ∧ step punting = .next t ∧
     step t = .next u ∧ u.imr.getLsbD u.params.dbgBit.val = true ∧ t.usr.ir ≠ .word 0xF003FF47#32) :=
  ⟨rfl, rfl, eq_next_after fine_steps.2.2.2, eq_next_after (by decide +kernel), by decide +kernel, by decide +kernel⟩

theorem witness_RegisterReads :
    fine.cur = .system ∧ fineUser.cur = .user ∧ fine.x 6#5 = 31#32 ∧ fineUser.x 25#5 = 31#32 := by decide +kernel

theorem witness_GeneralRegistersAreReversed :
    (4 ≤ (4#5).toNat ∧ (4#5).toNat ≤ 27) ∧ 4 ≤ (27#5).toNat ∧ (27#5).toNat ≤ 27 := by decide

theorem witness_MixedWidthView : (0#32).toNat % 4 = 0 ∧ (0xFFFFFFFC#32).toNat % 4 = 0 := by decide

/-- Each kind of memory-stage operation, a byte load that is sign-extended among them. -/
theorem witness_MemoryStageWritesTheLoadPort :
    (base.ctx base.cur).ms = .idle ∧ (fineUser.ctx fineUser.cur).ms = .store 0x20A#32 .half 0x1234#32 ∧
    (fine.ctx fine.cur).ms = .load 0x205#32 .half .sign 11#5 ∧ loadPort fine = some (11#5, 0xFFFF8899#32) ∧
    loadPort { base with sys := { base.sys with ms := .imm 9#32 7#5 } } = some (7#5, 9#32) := by
  decide +kernel

theorem witness_MemoryChangesOnlyByThePendingStore :
    step fineUser = .next (after (step fineUser)) ∧
    (fineUser.ctx fineUser.cur).ms = .store 0x20A#32 .half 0x1234#32 ∧ step fine = .next (after (step fine)) ∧
    (∀ ea n d, (fine.ctx fine.cur).ms ≠ .store ea n d) :=
  ⟨eq_next_after fine_steps.2.1, rfl, fine_step, fun _ _ _ h => nomatch (show MemOp.load _ _ _ _ = _ from h)⟩

theorem witness_FetchedWordIsOldOrNew : storeMeetsFetch fine = false ∧ storeMeetsFetch fetching = false ∧
    storeMeetsFetch { fine with sys := { fine.sys with ms := .store 0x107#32 .byte 0#32 } } = true := by decide

/-- `fine` with the instruction `i` latched and `ms` pending, and the word of `j` at `pc`. -/
def latched (i j : Instr) (ms : MemOp) : State :=
  { fine with mem := memWrite data 0x104#32 .word (encode j), sys := { fine.sys with ir := .word (encode i), ms := ms } }

/-- A signed half-word, an unsigned byte and a word, each with the top bit of the stored width in sight. -/
theorem witness_LoadRightAfterStoreReadsTheStoredWord :
    ∀ p ∈ [(Instr.ldhSPLS 7#5 10#5 .base 0#10, 0x202#32, Width.half, Extension.sign),
        (.uldbSPLS 7#5 10#5 .base 0#10, 0x203#32, .byte, .zero), (.ldRM 7#5 10#5 .base 0#16, 0x200#32, .word, .sign)],
      (let s := latched p.1 .nop (.store p.2.1 p.2.2.1 0xFFFF8081#32)
       let t := after (step s)
       isNext (step s) = true ∧ t.cur = s.cur ∧ (t.ctx t.cur).ms = .load 0x203#32 p.2.2.1 p.2.2.2 7#5 ∧
       0x203 / p.2.2.1.bytes = p.2.1.toNat / p.2.2.1.bytes) := by
  decide +kernel

theorem witness_RIArithmetic : Ready fine ∧ MayWrite fine 5#5 := by decide +kernel
theorem witness_RILogic : Ready fine ∧ MayWrite fine 5#5 := witness_RIArithmetic
theorem witness_RRArithmetic : Ready fine ∧ MayWrite fine 5#5 := witness_RIArithmetic
theorem witness_RRLogicKeepsCarry : Ready fine ∧ MayWrite fine 5#5 := witness_RIArithmetic

/-- A write of `isr` is allowed under the other setting of `ISR_WRITE`. -/
theorem witness_RIArithmetic_isr :
    (let s : State := { fine with params := { params with isrWrite := .environment } }
     Ready s ∧ MayWrite s 31#5) := by decide +kernel

/-- Constants 31, 0 and -31. -/
theorem witness_RIShiftInRange : (Ready fine ∧ MayWrite fine 5#5) ∧
    ∀ k ∈ [31#16, 0#16, 0xFFE1#16], -31 ≤ k.toInt ∧ k.toInt ≤ 31 := ⟨witness_RIArithmetic, by simp⟩

/-- Constants 32 and -32. -/
theorem witness_RIShiftOutOfRange : Ready fine ∧ MayWrite fine 5#5 ∧
    31 < (32#16).toInt ∧ (0xFFE0#16).toInt < -31 := by decide +kernel

/-- Amounts 31 and -31. -/
theorem witness_RRShiftInRange : (Ready fine ∧ MayWrite fine 5#5) ∧ Spec.InShiftRange (fine.x 6#5) ∧
    Spec.InShiftRange (fine.x 7#5) := by
  unfold Spec.InShiftRange; decide +kernel

/-- Amounts 32 and -32. -/
theorem witness_RRShiftOutOfRange : (Ready fine ∧ MayWrite fine 5#5) ∧ ¬ Spec.InShiftRange (fine.x 8#5) ∧
    ¬ Spec.InShiftRange (fine.x 9#5) := by
  unfold Spec.InShiftRange; decide +kernel

theorem witness_BranchAfterSubtractionCompares :
    (let t := after (exec (.subRR 0#5 6#5 true 7#5 0#5) fine)
     let u := after (exec (.bhiBR 16#23 false) t)
     exec (.subRR 0#5 6#5 true 7#5 0#5) fine = .next t ∧ t.cur = fine.cur ∧ exec (.bhiBR 16#23 false) t = .next u) :=
  ⟨eq_next_after (by decide +kernel), by decide +kernel, eq_next_after (by decide +kernel)⟩

/-- A first operation `sha` within its range, and one that is not a shift. -/
theorem witness_RRRArithmetic : (Ready fine ∧ MayUseRd fine 5#5 ∧ MayWrite fine 5#5) ∧
    (Op1.sha = .sha → Spec.InShiftRange (fine.x 7#5)) ∧ (Op1.or = .sha → Spec.InShiftRange (fine.x 8#5)) :=
  ⟨by decide +kernel, fun _ => witness_RRShiftInRange.2.2, fun h => by cases h⟩

theorem witness_RRRLogic : (Ready fine ∧ MayUseRd fine 5#5 ∧ MayWrite fine 5#5) ∧
    (Op1.sha = .sha → Spec.InShiftRange (fine.x 7#5)) := ⟨by decide +kernel, fun _ => witness_RRShiftInRange.2.2⟩

/-- Amounts 31 and -31 computed by `r6 or r0` and by `r7 or r0`. -/
theorem witness_RRRShiftInRange : (Ready fine ∧ MayUseRd fine 5#5 ∧ MayWrite fine 5#5) ∧
    (Op1.or = .sha → Spec.InShiftRange (fine.x 0#5)) ∧
    Spec.InShiftRange (Spec.firstOp .or (fine.x 6#5) (fine.x 0#5) fine.flags.c) ∧
    Spec.InShiftRange (Spec.firstOp .or (fine.x 7#5) (fine.x 0#5) fine.flags.c) := by
  unfold Spec.InShiftRange; decide +kernel

/-- `sha` by 32 and by -32 as the first operation; amounts 32 and -32 as its result. -/
theorem witness_RRRShiftOutOfRange : (Ready fine ∧ MayUseRd fine 5#5 ∧ MayWrite fine 5#5) ∧
    ¬ Spec.InShiftRange (fine.x 8#5) ∧ ¬ Spec.InShiftRange (fine.x 9#5) ∧
    (Op1.or = .sha → Spec.InShiftRange (fine.x 0#5)) ∧
    ¬ Spec.InShiftRange (Spec.firstOp .or (fine.x 8#5) (fine.x 0#5) fine.flags.c) ∧
    ¬ Spec.InShiftRange (Spec.firstOp .or (fine.x 9#5) (fine.x 0#5) fine.flags.c) := by
  unfold Spec.InShiftRange; decide +kernel

/-- The base may be updated, and a base that is `isr` may not. -/
theorem witness_RMLoadsAndStores : Ready fine ∧ MayUseRd fine 5#5 ∧ MayWrite fine 10#5 ∧ ¬ MayWrite fine 31#5 := by
  decide +kernel
theorem witness_RRMWordLoads : Ready fine ∧ MayUseRd fine 5#5 ∧ MayWrite fine 10#5 := by decide +kernel
theorem witness_RRMPartWordLoads : Ready fine ∧ MayUseRd fine 5#5 ∧ MayWrite fine 10#5 := witness_RRMWordLoads
theorem witness_RRMStores : Ready fine ∧ MayUseRd fine 5#5 ∧ MayWrite fine 10#5 := witness_RRMWordLoads
theorem witness_SPLSLoadsAndStores : Ready fine ∧ MayUseRd fine 5#5 ∧ MayWrite fine 10#5 := witness_RRMWordLoads

theorem witness_RRMShiftInRange : (Ready fine ∧ MayUseRd fine 5#5 ∧ MayWrite fine 10#5) ∧
    Spec.InShiftRange (fine.x 6#5) ∧ Spec.InShiftRange (fine.x 7#5) :=
  ⟨witness_RRMWordLoads, witness_RRShiftInRange.2⟩

theorem witness_RRMShiftOutOfRange : (MayUseRd fine 5#5 ∧ Ready fine) ∧ ¬ Spec.InShiftRange (fine.x 8#5) ∧
    ¬ Spec.InShiftRange (fine.x 9#5) ∧ ∀ m ∈ [AddrMode.postModify, .sum, .preModify], m ≠ .base :=
  ⟨by decide +kernel, witness_RRShiftOutOfRange.2.1, witness_RRShiftOutOfRange.2.2, by decide⟩

theorem witness_SLSLoadAndStore : Ready fine ∧ MayUseRd fine 5#5 := by decide +kernel
theorem witness_SLIDelayedWrite : Ready fine := fine_ready.1

/-- Registers 4 and 27, with a no-op and with a write of the same register behind the load. -/
theorem witness_LoadHasOneShadow :
    ∀ rd ∈ [4#5, 27#5], ∀ i ∈ [Instr.nop, .addRI rd 0#5 false false 5#16],
      (let s := latched (.ldRM rd 10#5 .sum 4#16) i (.load 0x205#32 .half .sign 11#5)
       let t := after (step s)
       (4 ≤ rd.toNat ∧ rd.toNat ≤ 27) ∧ isNext (step s) = true ∧ t.cur = s.cur ∧
       (t.ctx t.cur).ms = .load 0x207#32 .word .sign rd ∧
       (decode (encode (.ldRM rd 10#5 .sum 4#16)) = .ok (.ldRM rd 10#5 .sum 4#16) ∧
         (Instr.ldRM rd 10#5 .sum 4#16).computeDest ≠ some rd ∧ (loadPort s).map Prod.fst ≠ some rd) ∧
       ((t.ctx t.cur).ir = .word (encode i) ∧ decode (encode i) = .ok i ∧
         (i.computeDest = some rd ↔ i ≠ .nop)) ∧
       isNext (step t) = true ∧ isNext (step t.withoutPending) = true) := by
  decide +kernel

theorem witness_RestrictedDestinationIsRefused :
    (Instr.ldRM 2#5 10#5 .sum 0#16).restrictedRd = some 2#5 ∧
    (Instr.putAdd 31#5 4#5 false 6#5 7#5 .add).restrictedRd = some 31#5 ∧ fine.params.rdRestriction = .refuse := by
  decide

theorem witness_BRBranches : Ready fine ∧ Ready fineUser := ⟨fine_ready.1, fine_ready.2.1⟩
theorem witness_SBRBranches : Ready fine ∧ Ready fineUser := ⟨fine_ready.1, fine_ready.2.1⟩

/-- An absolute and a backward relative BR on a condition that holds, and an SBR. -/
theorem witness_BranchHasOneShadow :
    ∀ i ∈ [Instr.bcsBR 0x81#23 false, .bcsBR 0x7FFFFE#23 true, .bneSBR 10#5 0#5],
      (let t := after (exec i fetching)
       Spec.condition (condCode (encode i)) fetching.flags = true ∧ isNext (exec i fetching) = true ∧
       t.cur = fetching.cur ∧ isNext (step t) = true) := by
  decide +kernel

/-- The other setting of `RESET_LATCHES_USER` leaves the user context's latches unspecified and nothing else (D11). -/
theorem test_reset_latches_user :
    (let p := { Params.atReset with resetLatchesUser := .unspecified }
     (State.resetWith p).usr.ir = Config.powerOnLatch ∧ (State.resetWith p).usr.ms = Config.powerOnMemOp ∧
     (State.resetWith p).sys = State.reset.sys ∧ State.reset.usr.ir = .bubble) := ⟨rfl, rfl, rfl, rfl⟩

theorem witness_PuntTogglesTheContext : Ready punting ∧ Ready { fineUser with imr := 0x20#32 } := by decide +kernel

end Sys2Proof.Tests
end

/-! ## Branches: the conditions of R103, and the steps of BR and SBR -/

namespace Sys2Proof.Machine

/-- The code `DDDI` of a condition (R103). -/
def Cond.code : Cond → BitVec 4
  | .t => 0#4 | .f => 1#4 | .hi => 2#4 | .ls => 3#4 | .cc => 4#4 | .cs => 5#4 | .ne => 6#4 | .eq => 7#4
  | .vc => 8#4 | .vs => 9#4 | .pl => 10#4 | .mi => 11#4 | .ge => 12#4 | .lt => 13#4 | .gt => 14#4 | .le => 15#4

/-- The conditions in the order of their codes. -/
def Cond.inCodeOrder : List Cond :=
  [.t, .f, .hi, .ls, .cc, .cs, .ne, .eq, .vc, .vs, .pl, .mi, .ge, .lt, .gt, .le]

/-- A condition as a comparison of flags: the signed ones compare `N` with `V`, where R103 prints sums of products. -/
def Cond.formula : Cond → Flags → Bool
  | .t => fun _ => true
  | .f => fun _ => false
  | .hi => fun x => x.c && !x.z
  | .ls => fun x => !x.c || x.z
  | .cc => fun x => !x.c
  | .cs => fun x => x.c
  | .ne => fun x => !x.z
  | .eq => fun x => x.z
  | .vc => fun x => !x.v
  | .vs => fun x => x.v
  | .pl => fun x => !x.n
  | .mi => fun x => x.n
  | .ge => fun x => x.n == x.v
  | .lt => fun x => x.n != x.v
  | .gt => fun x => x.n == x.v && !x.z
  | .le => fun x => x.z || x.n != x.v

/-- The BR instruction of a condition (R294 to R309). -/
def Cond.br : Cond → BitVec 23 → Bool → Instr
  | .t => .btBR | .f => .bfBR | .hi => .bhiBR | .ls => .blsBR | .cc => .bccBR | .cs => .bcsBR | .ne => .bneBR
  | .eq => .beqBR | .vc => .bvcBR | .vs => .bvsBR | .pl => .bplBR | .mi => .bmiBR | .ge => .bgeBR | .lt => .bltBR
  | .gt => .bgtBR | .le => .bleBR

/-- The SBR instruction of a condition (R352). -/
def Cond.sbr : Cond → RegNum → RegNum → Instr
  | .t => .btSBR | .f => .bfSBR | .hi => .bhiSBR | .ls => .blsSBR | .cc => .bccSBR | .cs => .bcsSBR | .ne => .bneSBR
  | .eq => .beqSBR | .vc => .bvcSBR | .vs => .bvsSBR | .pl => .bplSBR | .mi => .bmiSBR | .ge => .bgeSBR
  | .lt => .bltSBR | .gt => .bgtSBR | .le => .bleSBR

/-- The sums of products of the four signed conditions are comparisons of `N` with `V`. -/
theorem Cond.holds_eq_formula (d : Cond) (x : Flags) : d.holds x = d.formula x := by
  obtain ⟨c, v, n, z⟩ := x
  cases d
  case ge | lt | gt | le => cases n <;> cases v <;> cases z <;> rfl
  all_goals rfl

theorem encode_br (d : Cond) (k : BitVec 23) (r : Bool) : encode (d.br k r) = encodeBR d.code k r := by
  cases d <;> rfl

theorem encode_sbr (d : Cond) (rs1 rs3 : RegNum) : encode (d.sbr rs1 rs3) = encodeSBR d.code rs1 rs3 := by
  cases d <;> rfl

theorem exec_br (d : Cond) (k : BitVec 23) (r : Bool) (s : State) : exec (d.br k r) s = brStep d k r s := by
  cases d <;> rfl

theorem exec_sbr (d : Cond) (rs1 rs3 : RegNum) (s : State) : exec (d.sbr rs1 rs3) s = sbrStep d rs1 rs3 s := by
  cases d <;> rfl

/-- The two parts `DDD` and `I` of the code, read back from the figure of BR (R102, R103). -/
theorem condCode_encodeBR (c : BitVec 4) (k : BitVec 23) (r : Bool) : condCode (encodeBR c k r) = c.toNat := by
  obtain ⟨-, hDDD, -, -, hI⟩ := fields_encodeBR c k r
  unfold condCode
  omega

/-- The two parts `DDD` and `I` of the code, read back from the figure of SBR (R108, R103). -/
theorem condCode_encodeSBR (c : BitVec 4) (rs1 rs3 : RegNum) : condCode (encodeSBR c rs1 rs3) = c.toNat := by
  obtain ⟨-, -, -, -, -, -, hDDD, hI, -, -⟩ := fields_encodeSBR c rs1 rs3
  unfold condCode
  omega

/-- The step of any BR writes the target of R290 to `pc` exactly where its condition holds. -/
theorem exec_br_completes {s : State} (hr : Ready s) (d : Cond) (k : BitVec 23) (r : Bool) :
    Completes s (exec (d.br k r) s) (if d.formula s.flags then some (2#5, Spec.branchTarget s k r) else none) none
      .idle false := by
  rw [exec_br, brStep, ← brTarget_eq, ← d.holds_eq_formula]
  exact branchStep_completes hr

/-- The step of any SBR writes `Rs1 + Rs3` to `pc` exactly where its condition holds (R351). -/
theorem exec_sbr_completes {s : State} (hr : Ready s) (d : Cond) (rs1 rs3 : RegNum) :
    Completes s (exec (d.sbr rs1 rs3) s)
      (if d.formula s.flags then some (2#5, Spec.sum (s.x rs1) (s.x rs3) false) else none) none .idle false := by
  rw [exec_sbr, sbrStep, ← add_eq_sum, ← d.holds_eq_formula]
  exact branchStep_completes hr

/-- Settles O57: the statement's table is that of the conditions in code order, so one argument does for every row. -/
theorem brBranches : Obligations.BRBranches := by
  unfold Obligations.BRBranches
  change ∀ p ∈ Cond.inCodeOrder.map (fun d => (d.br, d.code.toNat, d.formula)), _
  intro p hp s k r
  obtain ⟨d, -, rfl⟩ := List.mem_map.1 hp
  exact ⟨by rw [encode_br, condCode_encodeBR], fun hr => exec_br_completes hr d k r⟩

/-- Settles O58, row by row of the same table as BR. -/
theorem sbrBranches : Obligations.SBRBranches := by
  unfold Obligations.SBRBranches
  change ∀ p ∈ Cond.inCodeOrder.map (fun d => (d.sbr, d.code.toNat, d.formula)), _
  intro p hp s rs1 rs3
  obtain ⟨d, -, rfl⟩ := List.mem_map.1 hp
  exact ⟨by rw [encode_sbr, condCode_encodeSBR], fun hr => exec_sbr_completes hr d rs1 rs3⟩

end Sys2Proof.Machine

/-! ## The end of a time step: which of two writes of one location stays (R135, R136) -/

namespace Sys2Proof.Machine

/-- The register numbers (R33): eight special ones, and the general ones. -/
theorem special_or_general (i : RegNum) : i = 0#5 ∨ i = 1#5 ∨ i = 2#5 ∨ i = 3#5 ∨ i = 28#5 ∨ i = 29#5 ∨ i = 30#5 ∨
    i = 31#5 ∨ (4 ≤ i.toNat ∧ i.toNat ≤ 27) := by
  by_contra h
  simp only [not_or] at h
  obtain ⟨h0, h1, h2, h3, h4, h5, h6, h7, hgeneral⟩ := h
  exact hgeneral (general_of_ne ⟨h0, h1, h2, h3, h4, h5, h6, h7⟩)

@[simp] theorem setCtx_setCtx (s : State) (c : Context) (x y : CtxState) :
    (s.setCtx c x).setCtx c y = s.setCtx c y := by cases c <;> rfl

theorem writeReg_general (s : State) (c : Context) (i : RegNum) (v : Word) (hi : 4 ≤ i.toNat ∧ i.toNat ≤ 27) :
    writeReg s c i v = { s with gpr := s.gpr.set (phys c i).val v (phys c i).isLt } := by
  obtain ⟨h0, h1, h2, h3, h4, h5, h6, h7⟩ := general_ne hi
  simp [writeReg, h0, h1, h2, h3, h4, h5, h6, h7]

/-- Of two writes of the same register only the later one counts, in the whole state. -/
theorem writeReg_writeReg_same (s : State) (c : Context) (i : RegNum) (u v : Word) :
    writeReg (writeReg s c i u) c i v = writeReg s c i v := by
  obtain rfl | rfl | rfl | rfl | rfl | rfl | rfl | rfl | hi := special_or_general i
  case inr.inr.inr.inr.inr.inr.inr.inr => simp [writeReg_general _ _ _ _ hi]
  all_goals simp [writeReg]

/-- What a register reads right after it was written does not depend on the state before, but for `isr`, which no write
changes (R34). -/
theorem readReg_writeReg_same_congr {s t : State} (h : isrValue s = isrValue t) (c : Context) (i : RegNum) (v : Word) :
    readReg (writeReg s c i v) c i = readReg (writeReg t c i v) c i := by
  obtain rfl | rfl | rfl | rfl | rfl | rfl | rfl | rfl | hi := special_or_general i
  case inr.inr.inr.inr.inr.inr.inr.inr => simp only [readReg_general _ _ _ hi, writeReg_gpr _ _ _ _ _ hi, if_true]
  all_goals simp [readReg, writeReg, h]

theorem isrValue_incrementPc (s : State) : isrValue (incrementPc s) = isrValue s := by
  simp [isrValue, incrementPc]

/-- The flag update shows in no register but the executing context's `ps`. -/
theorem readReg_updateFlags (t : State) {fl : Option Flags} {i : RegNum} (h : fl = none ∨ i ≠ 3#5) :
    readReg (updateFlags t fl) t.cur i = readReg t t.cur i := by
  cases fl with
  | none => rfl
  | some f =>
    have hi : i ≠ 3#5 := h.resolve_left (by simp)
    simp only [readReg, updateFlags, isrValue, hi, if_false, ctx_setCtx_same, ctx_setCtx_other, setCtx_imr, setCtx_isr,
      setCtx_params, setCtx_gpr]

/-- The load port's value is discarded where the compute port names the same register (R135). -/
theorem commit_same_dest (s : State) (r : RegNum) (loaded computed : Word) (fl : Option Flags) :
    commit s (some (r, loaded)) (some (r, computed)) fl = commit s none (some (r, computed)) fl := by
  simp only [commit, writePort, writeReg_writeReg_same]

/-- The compute port's register after the writes of a time step reads what a write of the computed value leaves in it. -/
theorem readReg_commit_computeDest (s : State) (r : RegNum) (computed : Word) {fl : Option Flags}
    (h : fl = none ∨ r ≠ 3#5) :
    readReg (commit s none (some (r, computed)) fl) s.cur r = readReg (writeReg s s.cur r computed) s.cur r := by
  have hcur : (writeReg (incrementPc s) s.cur r computed).cur = s.cur := by rw [writeReg_cur, incrementPc_cur]
  calc readReg (commit s none (some (r, computed)) fl) s.cur r
      = readReg (writeReg (incrementPc s) s.cur r computed) s.cur r := by
        have hflags := readReg_updateFlags (writeReg (incrementPc s) s.cur r computed) h
        rw [hcur] at hflags
        exact hflags
    _ = readReg (writeReg s s.cur r computed) s.cur r :=
        readReg_writeReg_same_congr (isrValue_incrementPc s) s.cur r computed

/-- Settles O24: a second write of a register hides the first, and neither the increment of `pc` nor the flag update
reaches what it left. -/
theorem computedValueDiscardsLoadedValue : Obligations.ComputedValueDiscardsLoadedValue := by
  unfold Obligations.ComputedValueDiscardsLoadedValue
  intro s r loaded computed fl
  rw [commit_same_dest]
  exact ⟨rfl, readReg_commit_computeDest s r computed⟩

theorem lands_none_some (j r : RegNum) (u : Word) : lands none (some (j, u)) r = if j = r then some u else none := by
  by_cases h : j = r <;> simp [lands, Option.filter, h]

theorem lands_some (i r : RegNum) (v : Word) (lw : Option (RegNum × Word)) :
    lands (some (i, v)) lw r = if i = r then some v else lands none lw r := rfl

theorem lands_none_none (r : RegNum) : lands none none r = none := rfl

theorem readReg_commit_general (s : State) (lw cw : Option (RegNum × Word)) (fl : Option Flags) (r : RegNum)
    (hr : 4 ≤ r.toNat ∧ r.toNat ≤ 27) :
    readReg (commit s lw cw fl) s.cur r = (lands cw lw r).getD (readReg s s.cur r) := by
  rw [readReg_general _ _ _ hr, readReg_general _ _ _ hr, commit_gpr _ _ _ _ _ hr]

/-- Settles O25: the statement's last write of a register is `lands`, and the laws of `commit` say what each location holds
in terms of it. -/
theorem endOfStepOrder : Obligations.EndOfStepOrder := by
  unfold Obligations.EndOfStepOrder
  intro s lw cw fl t last
  have hlast : last = lands cw lw := by
    funext r
    rcases cw with _ | ⟨i, v⟩ <;> rcases lw with _ | ⟨j, u⟩
    · exact (lands_none_none r).symm
    · exact (lands_none_some j r u).symm
    · exact (lands_some i r v none).symm
    · rw [lands_some, lands_none_some]
  have hsame := commit_ctx_same s lw cw fl
  have hother := commit_ctx_other s lw cw fl
  rw [hlast]
  exact ⟨fun r h4 h27 => readReg_commit_general s lw cw fl r ⟨h4, h27⟩, congrArg CtxState.pc hsame,
    congrArg CtxState.flags hsame, congrArg CtxState.flags hother, congrArg CtxState.pc hother, commit_imr s lw cw fl⟩

end Sys2Proof.Machine

/-! ## Register-Immediate: the bitwise operations, and the no-op (R160, R166 to R168, R177) -/

namespace Sys2Proof.Machine

/-- The four bits above `Rd` in the figure of RI: a 0 and `AAA` (R93). -/
theorem encodeRI_opcode (aaa : BitVec 3) (rd rs1 : RegNum) (f h : Bool) (k : BitVec 16) :
    (encodeRI aaa rd rs1 f h k).extractLsb' 28 4 = aaa.setWidth 4 := by
  obtain ⟨hop, -⟩ := fields_encodeRI aaa rd rs1 f h k
  apply BitVec.eq_of_toNat_eq
  rw [BitVec.toNat_setWidth_of_le (by decide)]
  exact hop

/-! The step of each bitwise instruction, its constant in the numbers of `Spec` (R94). -/

theorem exec_andRI (rd rs1 : RegNum) (f h : Bool) (k : BitVec 16) (s : State) :
    exec (.andRI rd rs1 f h k) s = riStep .and rd rs1 f (Spec.halfAndConst h k) s := by
  rw [← riAndConst_eq]; rfl

theorem exec_orRI (rd rs1 : RegNum) (f h : Bool) (k : BitVec 16) (s : State) :
    exec (.orRI rd rs1 f h k) s = riStep .or rd rs1 f (Spec.halfConst h k) s := by
  rw [← riConst_eq]; rfl

theorem exec_xorRI (rd rs1 : RegNum) (f h : Bool) (k : BitVec 16) (s : State) :
    exec (.xorRI rd rs1 f h k) s = riStep .xor rd rs1 f (Spec.halfConst h k) s := by
  rw [← riConst_eq]; rfl

/-- The step of an RI instruction whose operation has a defined result (R160). -/
theorem riStep_completes {s : State} {op : AluOp} {rd rs1 : RegNum} {f : Bool} {k : Word} {o : AluResult}
    (hr : Ready s) (hw : MayWrite s rd) (ho : aluOp op (s.x rs1) k s.flags.c = some o) :
    Completes s (riStep op rd rs1 f k s) (some (rd, o.r)) (if f then some (flagsOf o false) else none) .idle false := by
  rw [riStep, ho]
  exact completes_alu hr hw

/-- An RI operation without a carry and an overflow of its own clears both flags (R173). -/
theorem riStep_logic_completes {s : State} {op : AluOp} {rd rs1 : RegNum} {f : Bool} {k r : Word}
    (hr : Ready s) (hw : MayWrite s rd) (ho : aluOp op (s.x rs1) k s.flags.c = some ⟨r, none, false⟩) :
    Completes s (riStep op rd rs1 f k s) (some (rd, r)) (if f then some (Spec.flags r false false) else none) .idle
      false := by
  rw [← flagsOf_logic]
  exact riStep_completes hr hw ho

/-- Settles O34: the three instructions differ in their opcode, their constant and the bitwise function only. -/
theorem riLogic : Obligations.RILogic := by
  unfold Obligations.RILogic
  intro s rd rs1 f h k hr hw
  refine ⟨⟨encodeRI_opcode 4#3 rd rs1 f h k, encodeRI_opcode 5#3 rd rs1 f h k, encodeRI_opcode 6#3 rd rs1 f h k⟩,
    ?and, ?or, ?xor⟩
  case and => rw [exec_andRI]; exact riStep_logic_completes hr hw rfl
  case or => rw [exec_orRI]; exact riStep_logic_completes hr hw rfl
  case xor => rw [exec_xorRI]; exact riStep_logic_completes hr hw rfl

/-- A write of `r0` changes nothing (R34). -/
@[simp] theorem writeReg_r0 (s : State) (c : Context) (v : Word) : writeReg s c 0#5 v = s := by simp [writeReg]

/-- A write of `r0` is never refused. -/
@[simp] theorem portRefusal_r0 (p : Params) (v : Word) : portRefusal p (some (0#5, v)) = none :=
  portRefusal_eq_none.2 (.inl (by decide))

@[simp] theorem portRefusal_absent (p : Params) : portRefusal p none = none := rfl

/-- A time step that computes a value for `r0` is the time step that computes no value. -/
theorem timeStep_r0 (s : State) (v : Word) (fl : Option Flags) (ms : MemOp) (punt : Bool) :
    timeStep s ⟨some (0#5, v), fl, ms, punt⟩ = timeStep s ⟨none, fl, ms, punt⟩ := by
  have hrefusal : stepRefusal s ⟨some (0#5, v), fl, ms, punt⟩ = stepRefusal s ⟨none, fl, ms, punt⟩ := by
    simp only [stepRefusal, portRefusal_r0, portRefusal_absent]
  have hadvance : advance s ⟨some (0#5, v), fl, ms, punt⟩ = advance s ⟨none, fl, ms, punt⟩ := by
    simp only [advance, commit, writePort, writeReg_r0]
  rw [timeStep, timeStep, hrefusal, hadvance]

/-- RI `add` to `r0` without a flag update computes nothing, as a bubble does (R133, R177). -/
theorem exec_addRI_r0 (rs1 : RegNum) (h : Bool) (k : BitVec 16) (s : State) :
    exec (.addRI 0#5 rs1 false h k) s = bubbleStep s :=
  timeStep_r0 s (adder (s.x rs1) (riConst h k) false).r none .idle false

/-- Settles O9: the step of `add r0, 0, r0` is the step of an empty instruction latch. -/
theorem allZeroWordIsANoOp : Obligations.AllZeroWordIsANoOp := by
  unfold Obligations.AllZeroWordIsANoOp
  refine ⟨by decide, fun s hr => ?_⟩
  have hnothing : ∀ r v, Compute.nothing.cw = some (r, v) → MayWrite s r := by simp [Compute.nothing]
  rw [exec_addRI_r0]
  exact completes_timeStep hr hnothing

end Sys2Proof.Machine

/-! ## PUNT: the step that toggles the context (R311, R312) -/

namespace Sys2Proof.Machine

/-- An effect that toggles leaves the other context executing, whatever the interrupt request is (R137, R311). -/
theorem Effect.cur_of_punt {s t : State} {cw : Option (RegNum × Word)} {fl : Option Flags} {ms : MemOp}
    (h : Effect s t cw fl ms true) : t.cur = s.cur.other := h.cur.trans (if_pos rfl)

/-- The step of PUNT completes with no register write, no flag update and nothing for the Memory stage. -/
theorem exec_punt_completes {s : State} (hr : Ready s) : Completes s (exec .punt s) none none .idle true := by
  have hexec : exec .punt s = timeStep s ⟨none, none, .idle, true⟩ := rfl
  rw [hexec]
  exact timeStep_completes hr (portRefusal_absent s.params)

/-- Settles O60: the step's effect gives each clause, the toggle among them. -/
theorem puntTogglesTheContext : Obligations.PuntTogglesTheContext := by
  unfold Obligations.PuntTogglesTheContext
  intro s hr
  obtain ⟨t, hnext, heffect⟩ := exec_punt_completes hr
  exact ⟨t, hnext, heffect, heffect.cur_of_punt, heffect.ir, heffect.ms⟩

end Sys2Proof.Machine

/-! ## The encoding: decoding and encoding undo each other, and which words decode (R90 to R110)

Each format gets a function from its operation code and its other fields to the instruction. The decoder applies it to the
fields of the word, and the encoder's figure of its value is the figure of those fields; so both directions of the round
trip come down to the figure of a format and its fields. -/

namespace Sys2Proof

open Sys2Proof.Machine (append_toNat)

/-! ### The instructions of each format, by their operation code -/

/-- The RI instruction of `AAA` (R93). -/
def riInstr (aaa : Nat) (rd rs1 : RegNum) (f h : Bool) (k : BitVec 16) : Instr :=
  match aaa with
  | 0 => .addRI rd rs1 f h k
  | 1 => .addcRI rd rs1 f h k
  | 2 => .subRI rd rs1 f h k
  | 3 => .subbRI rd rs1 f h k
  | 4 => .andRI rd rs1 f h k
  | 5 => .orRI rd rs1 f h k
  | 6 => .xorRI rd rs1 f h k
  | _ => if h then .shaRI rd rs1 f k else .shRI rd rs1 f k

/-- The RR instruction of `BBB` (R96), but for the shifts. -/
def rrInstr (bbb : Nat) (rd rs1 : RegNum) (f : Bool) (rs2 : RegNum) (j : BitVec 5) : Instr :=
  match bbb with
  | 0 => .addRR rd rs1 f rs2 j
  | 1 => .addcRR rd rs1 f rs2 j
  | 2 => .subRR rd rs1 f rs2 j
  | 3 => .subbRR rd rs1 f rs2 j
  | 4 => .andRR rd rs1 f rs2 j
  | 5 => .orRR rd rs1 f rs2 j
  | _ => .xorRR rd rs1 f rs2 j

/-- The RR shift of the kind that `JJJJJ` selects (R96). -/
def rrShiftInstr (arithmetic : Bool) (rd rs1 : RegNum) (f : Bool) (rs2 : RegNum) : Instr :=
  if arithmetic then .shaRR rd rs1 f rs2 else .shRR rd rs1 f rs2

/-- The RRR instruction of `AAA` (R97); `H` selects the shift. -/
def rrrInstr (aaa : Nat) (h : Bool) (rd rs1 : RegNum) (f : Bool) (rs2 rs3 : RegNum) (op1 : Op1) : Instr :=
  match aaa with
  | 0 => .putAdd rd rs1 f rs2 rs3 op1
  | 1 => .putAddc rd rs1 f rs2 rs3 op1
  | 2 => .putSub rd rs1 f rs2 rs3 op1
  | 3 => .putSubb rd rs1 f rs2 rs3 op1
  | 4 => .putAnd rd rs1 f rs2 rs3 op1
  | 5 => .putOr rd rs1 f rs2 rs3 op1
  | 6 => .putXor rd rs1 f rs2 rs3 op1
  | _ => if h then .putSha rd rs1 f rs2 rs3 op1 else .putSh rd rs1 f rs2 rs3 op1

/-- The RM instruction of the bit `S` (R98). -/
def rmInstr (st : Bool) (rd rs1 : RegNum) (m : AddrMode) (k : BitVec 16) : Instr :=
  if st then .stRM rd rs1 m k else .ldRM rd rs1 m k

/-- The RRM instruction of `S`, `YLE` and `BBB` (R96, R100, R101), but for the shifts; `YL = 11` has none. -/
def rrmInstr (st y l e : Bool) (bbb : Nat) (rd rs1 : RegNum) (m : AddrMode) (rs2 : RegNum) (j : BitVec 5) : Instr :=
  match st, y, l with
  | false, _, true => rrmLd bbb rd rs1 m rs2 j e
  | true, _, true => rrmSt bbb rd rs1 m rs2 j e
  | false, false, false => if e then rrmUldh bbb rd rs1 m rs2 j else rrmLdh bbb rd rs1 m rs2 j
  | true, false, false => rrmSth bbb rd rs1 m rs2 j e
  | false, true, false => if e then rrmUldb bbb rd rs1 m rs2 j else rrmLdb bbb rd rs1 m rs2 j
  | true, true, false => rrmStb bbb rd rs1 m rs2 j e

/-- The RRM shift of `S` and of the kind that `JJJJJ` selects (R96, R100). -/
def rrmShiftInstr (st arithmetic : Bool) (rd rs1 : RegNum) (m : AddrMode) (rs2 : RegNum) (y : BitVec 3) : Instr :=
  match st, arithmetic with
  | false, false => .ldShRRM rd rs1 m rs2 y
  | false, true => .ldShaRRM rd rs1 m rs2 y
  | true, false => .stShRRM rd rs1 m rs2 y
  | true, true => .stShaRRM rd rs1 m rs2 y

/-- The SLS instruction of its bit 16 (R105). -/
def slsInstr (st : Bool) (rd : RegNum) (a : BitVec 21) : Instr := if st then .stSLS rd a else .ldSLS rd a

/-- The SPLS instruction of `Y`, `S` and `E` (R107). -/
def splsInstr (y st e : Bool) (rd rs1 : RegNum) (m : AddrMode) (k : BitVec 10) : Instr :=
  match y, st with
  | false, false => if e then .uldhSPLS rd rs1 m k else .ldhSPLS rd rs1 m k
  | true, false => if e then .uldbSPLS rd rs1 m k else .ldbSPLS rd rs1 m k
  | false, true => .sthSPLS rd rs1 m k e
  | true, true => .stbSPLS rd rs1 m k e

/-- The `JJJJJ` of a shift (R96). -/
def shiftBits (arithmetic : Bool) : BitVec 5 := if arithmetic then 24#5 else 16#5

/-! ### The figure of each format's instruction -/

theorem bitVec3_cases (x : BitVec 3) :
    x = 0#3 ∨ x = 1#3 ∨ x = 2#3 ∨ x = 3#3 ∨ x = 4#3 ∨ x = 5#3 ∨ x = 6#3 ∨ x = 7#3 := by
  revert x; decide

theorem bitVec4_cases (x : BitVec 4) :
    x = 0#4 ∨ x = 1#4 ∨ x = 2#4 ∨ x = 3#4 ∨ x = 4#4 ∨ x = 5#4 ∨ x = 6#4 ∨ x = 7#4 ∨ x = 8#4 ∨ x = 9#4 ∨ x = 10#4 ∨
      x = 11#4 ∨ x = 12#4 ∨ x = 13#4 ∨ x = 14#4 ∨ x = 15#4 := by
  revert x; decide

theorem encode_riInstr (aaa : BitVec 3) (rd rs1 : RegNum) (f h : Bool) (k : BitVec 16) :
    encode (riInstr aaa.toNat rd rs1 f h k) = encodeRI aaa rd rs1 f h k := by
  obtain rfl | rfl | rfl | rfl | rfl | rfl | rfl | rfl := bitVec3_cases aaa
  case inr.inr.inr.inr.inr.inr.inr => cases h <;> rfl
  all_goals rfl

theorem encode_rrInstr {bbb : BitVec 3} (hb : bbb ≠ 7#3) (rd rs1 : RegNum) (f : Bool) (rs2 : RegNum) (j : BitVec 5) :
    encode (rrInstr bbb.toNat rd rs1 f rs2 j) = encodeRR rd rs1 f rs2 bbb j := by
  obtain rfl | rfl | rfl | rfl | rfl | rfl | rfl | rfl := bitVec3_cases bbb
  case inr.inr.inr.inr.inr.inr.inr => exact absurd rfl hb
  all_goals rfl

theorem encode_rrShiftInstr (a : Bool) (rd rs1 : RegNum) (f : Bool) (rs2 : RegNum) :
    encode (rrShiftInstr a rd rs1 f rs2) = encodeRR rd rs1 f rs2 7#3 (shiftBits a) := by
  cases a <;> rfl

theorem encode_rrrInstr {aaa : BitVec 3} {h : Bool} (hh : aaa ≠ 7#3 → h = false) (rd rs1 : RegNum) (f : Bool)
    (rs2 rs3 : RegNum) (op1 : Op1) :
    encode (rrrInstr aaa.toNat h rd rs1 f rs2 rs3 op1) = encodeRRR rd rs1 f h rs2 aaa rs3 op1 := by
  obtain rfl | rfl | rfl | rfl | rfl | rfl | rfl | rfl := bitVec3_cases aaa
  case inr.inr.inr.inr.inr.inr.inr => cases h <;> rfl
  all_goals rw [hh (by decide)]; rfl

theorem encode_rmInstr (st : Bool) (rd rs1 : RegNum) (m : AddrMode) (k : BitVec 16) :
    encode (rmInstr st rd rs1 m k) = encodeRM st rd rs1 m k := by
  cases st <;> rfl

/-- The access width of `Y` and `L`, and the extension of `E`, stand in the figure as they were read. -/
theorem encode_rrmInstr {bbb : BitVec 3} (hb : bbb ≠ 7#3) {y l : Bool} (hyl : (y && l) = false) (st e : Bool)
    (rd rs1 : RegNum) (m : AddrMode) (rs2 : RegNum) (j : BitVec 5) :
    encode (rrmInstr st y l e bbb.toNat rd rs1 m rs2 j) = encodeRRM st rd rs1 m rs2 bbb j (yle y l e) := by
  obtain rfl | rfl | rfl | rfl | rfl | rfl | rfl | rfl := bitVec3_cases bbb
  case inr.inr.inr.inr.inr.inr.inr => exact absurd rfl hb
  all_goals
    cases st <;> cases y <;> cases l
    case false.true.true | true.true.true => cases hyl
    case false.false.false | false.true.false => cases e <;> rfl
    all_goals rfl

theorem encode_rrmShiftInstr (st a : Bool) (rd rs1 : RegNum) (m : AddrMode) (rs2 : RegNum) (y : BitVec 3) :
    encode (rrmShiftInstr st a rd rs1 m rs2 y) = encodeRRM st rd rs1 m rs2 7#3 (shiftBits a) y := by
  cases st <;> cases a <;> rfl

theorem encode_brInstr (d : BitVec 4) (k : BitVec 23) (r : Bool) : encode (brInstr d.toNat k r) = encodeBR d k r := by
  obtain rfl | rfl | rfl | rfl | rfl | rfl | rfl | rfl | rfl | rfl | rfl | rfl | rfl | rfl | rfl | rfl :=
    bitVec4_cases d
  all_goals rfl

theorem encode_sbrInstr (d : BitVec 4) (rs1 rs3 : RegNum) :
    encode (sbrInstr d.toNat rs1 rs3) = encodeSBR d rs1 rs3 := by
  obtain rfl | rfl | rfl | rfl | rfl | rfl | rfl | rfl | rfl | rfl | rfl | rfl | rfl | rfl | rfl | rfl :=
    bitVec4_cases d
  all_goals rfl

theorem encode_slsInstr (st : Bool) (rd : RegNum) (a : BitVec 21) :
    encode (slsInstr st rd a) = encodeSLS st rd a := by
  cases st <;> rfl

theorem encode_splsInstr (y st e : Bool) (rd rs1 : RegNum) (m : AddrMode) (k : BitVec 10) :
    encode (splsInstr y st e rd rs1 m k) = encodeSPLS rd rs1 y st e m k := by
  cases y <;> cases st <;> cases e <;> rfl

/-! ### The decoder, format by format, with its conditions in front -/

theorem decodeRI_eq (w : Word) : decodeRI w =
    riInstr (field w 28 3).toNat (field w 23 5) (field w 18 5) (bit w 17) (bit w 16) (field w 0 16) := by
  unfold decodeRI riInstr; rfl

/-- `JJJJJ` is that of one of the two shifts (R96). -/
def IsShiftCode (w : Word) : Prop := bit w 7 = true ∧ field w 3 3 = 0#3

theorem decodeShift_of_isShiftCode {w : Word} (h : IsShiftCode w) : decodeShift w = .ok (bit w 6) := by
  obtain ⟨h7, h3⟩ := h
  simp [decodeShift, h7, h3]

theorem decodeShift_of_not_isShiftCode {w : Word} (h : ¬ IsShiftCode w) : ∃ e, decodeShift w = .error e := by
  unfold decodeShift
  split
  · exact ⟨_, if_neg fun h3 => h ⟨‹_›, h3⟩⟩
  · exact ⟨_, rfl⟩

/-- RR: the reserved bits are 0 and `BBB = 111` only with a shift code (R95, R96). -/
theorem decodeRR_eq_ok_iff (w : Word) (i : Instr) : decodeRR w = .ok i ↔
    (bit w 16 = false ∧ field w 0 3 = 0#3) ∧
      ((field w 8 3 ≠ 7#3 ∧
          rrInstr (field w 8 3).toNat (field w 23 5) (field w 18 5) (bit w 17) (field w 11 5) (field w 3 5) = i) ∨
        (field w 8 3 = 7#3 ∧ IsShiftCode w ∧
          rrShiftInstr (bit w 6) (field w 23 5) (field w 18 5) (bit w 17) (field w 11 5) = i)) := by
  unfold decodeRR
  by_cases hres : bit w 16 = false ∧ field w 0 3 = 0#3
  case neg =>
    have hif : (bit w 16 || field w 0 3 != 0#3) = true := by
      cases h16 : bit w 16
      · simpa [h16] using hres
      · rfl
    simp [hif, hres]
  case pos =>
    simp only [hres.1, hres.2, and_self, true_and, Bool.false_or, bne_self_eq_false, Bool.false_eq_true, if_false]
    obtain hb | hb | hb | hb | hb | hb | hb | hb := bitVec3_cases (field w 8 3)
    case inr.inr.inr.inr.inr.inr.inr =>
      by_cases hs : IsShiftCode w
      · cases h6 : bit w 6 <;> simp [hb, hs, decodeShift_of_isShiftCode hs, h6, rrShiftInstr]
      · obtain ⟨e, he⟩ := decodeShift_of_not_isShiftCode hs
        simp [hb, hs, he]
    all_goals simp [hb, rrInstr]

/-- RRR: `H` is 0 but for the shifts (R97, R212). -/
theorem decodeRRR_eq_ok_iff (w : Word) (i : Instr) : decodeRRR w = .ok i ↔
    (field w 8 3 ≠ 7#3 → bit w 16 = false) ∧
      rrrInstr (field w 8 3).toNat (bit w 16) (field w 23 5) (field w 18 5) (bit w 17) (field w 11 5) (field w 3 5)
        (op1Of (field w 0 3)) = i := by
  unfold decodeRRR
  obtain hb | hb | hb | hb | hb | hb | hb | hb := bitVec3_cases (field w 8 3)
  all_goals cases hh : bit w 16 <;> simp [hb, rrrInstr]

/-- RRM: `YL = 11` has no width, and `BBB = 111` only with a shift code (R96, R101, R266). -/
theorem decodeRRM_eq_ok_iff (w : Word) (i : Instr) : decodeRRM w = .ok i ↔
    (field w 8 3 ≠ 7#3 ∧ (bit w 2 && bit w 1) = false ∧
        rrmInstr (bit w 28) (bit w 2) (bit w 1) (bit w 0) (field w 8 3).toNat (field w 23 5) (field w 18 5)
          (addrModeOf (bit w 17) (bit w 16)) (field w 11 5) (field w 3 5) = i) ∨
      (field w 8 3 = 7#3 ∧ IsShiftCode w ∧
        rrmShiftInstr (bit w 28) (bit w 6) (field w 23 5) (field w 18 5) (addrModeOf (bit w 17) (bit w 16))
          (field w 11 5) (field w 0 3) = i) := by
  unfold decodeRRM
  by_cases hb : field w 8 3 = 7#3
  case pos =>
    by_cases hs : IsShiftCode w
    · cases h6 : bit w 6 <;> cases h28 : bit w 28 <;>
        simp [hb, hs, decodeShift_of_isShiftCode hs, h6, rrmShiftInstr]
    · obtain ⟨e, he⟩ := decodeShift_of_not_isShiftCode hs
      simp [hb, hs, he]
  case neg =>
    have hb' : (field w 8 3).toNat ≠ 7 := fun h => hb (BitVec.eq_of_toNat_eq h)
    cases h2 : bit w 2 <;> cases h1 : bit w 1 <;> cases h28 : bit w 28 <;> simp [hb, hb', rrmInstr]

/-- The fixed and reserved bits of SBR behind the major opcode and bits 17:15 (R108). -/
def IsSBR (w : Word) : Prop := field w 8 7 = 0x40#7 ∧ field w 1 2 = 0#2 ∧ field w 23 2 = 0#2

/-- SBR or PUNT, each with its reserved bits 0, and nothing else (R104, R108, R109). -/
theorem decodeBranchPunt_eq_ok_iff (w : Word) (i : Instr) : decodeBranchPunt w = .ok i ↔
    (IsSBR w ∧ sbrInstr (condCode w) (field w 18 5) (field w 3 5) = i) ∨ (w = 0xF003FF47#32 ∧ .punt = i) := by
  by_cases hw : w = 0xF003FF47#32
  · subst hw
    have hsbr : ¬ IsSBR 0xF003FF47#32 := by unfold IsSBR; decide
    have hpunt : decodeBranchPunt 0xF003FF47#32 = .ok .punt := by decide
    simp [hsbr, hpunt]
  · unfold decodeBranchPunt IsSBR
    split
    · split <;> simp_all
    · split <;> simp_all

/-! ### The major opcode -/

section Major
variable {w : Word}

theorem decode_RI (h : (field w 28 4).toNat < 8) : decode w = .ok (decodeRI w) := by
  unfold decode
  generalize (field w 28 4).toNat = n at h
  interval_cases n <;> rfl

theorem decode_RM {st : Bool} (h : (field w 28 4).toNat = 8 + st.toNat) : decode w =
    .ok (rmInstr st (field w 23 5) (field w 18 5) (addrModeOf (bit w 17) (bit w 16)) (field w 0 16)) := by
  unfold decode
  rw [h]
  cases st <;> rfl

theorem decode_RRM {st : Bool} (h : (field w 28 4).toNat = 10 + st.toNat) : decode w = decodeRRM w := by
  unfold decode
  rw [h]
  cases st <;> rfl

theorem decode_RR (h : (field w 28 4).toNat = 12) : decode w = decodeRR w := by
  unfold decode; rw [h]; rfl

theorem decode_RRR (h : (field w 28 4).toNat = 13) : decode w = decodeRRR w := by
  unfold decode; rw [h]; rfl

theorem decode_BR (h : (field w 28 4).toNat = 14) :
    decode w = .ok (brInstr (condCode w) (field w 2 23) (bit w 1)) := by
  unfold decode; rw [h]; rfl

theorem decode_special (h : (field w 28 4).toNat = 15) : decode w = decodeSpecial w := by
  unfold decode; rw [h]; rfl

theorem decodeSpecial_SLS {st : Bool} (h : (field w 16 2).toNat = st.toNat) :
    decodeSpecial w = .ok (slsInstr st (field w 23 5) (field w 18 5 ++ field w 0 16)) := by
  unfold decodeSpecial
  rw [h]
  cases st <;> rfl

theorem decodeSpecial_SLI (h : (field w 16 2).toNat = 2) :
    decodeSpecial w = .ok (.movSLI (field w 23 5) (field w 18 5 ++ field w 0 16)) := by
  unfold decodeSpecial; rw [h]; rfl

theorem decodeSpecial_SPLS (h : (field w 16 2).toNat = 3) (h15 : bit w 15 = false) : decodeSpecial w =
    .ok (splsInstr (bit w 14) (bit w 13) (bit w 12) (field w 23 5) (field w 18 5)
      (addrModeOf (bit w 11) (bit w 10)) (field w 0 10)) := by
  unfold decodeSpecial
  rw [h, h15]
  rfl

theorem decodeSpecial_branchPunt (h : (field w 16 2).toNat = 3) (h15 : bit w 15 = true) :
    decodeSpecial w = decodeBranchPunt w := by
  unfold decodeSpecial
  rw [h, h15]
  rfl

/-- The formats by the major opcode, bits 31:28 (R92); bit 28 of RM and RRM is `S`. -/
theorem major_cases (w : Word) : (field w 28 4).toNat < 8 ∨ (field w 28 4).toNat = 8 + (bit w 28).toNat ∨
    (field w 28 4).toNat = 10 + (bit w 28).toNat ∨ (field w 28 4).toNat = 12 ∨ (field w 28 4).toNat = 13 ∨
    (field w 28 4).toNat = 14 ∨ (field w 28 4).toNat = 15 := by
  rw [field_toNat, bit_toNat]
  omega

/-- The formats under the major opcode `1111`, by bits 17:15 (R109). -/
theorem special_cases (w : Word) : (field w 16 2).toNat = (bit w 16).toNat ∨ (field w 16 2).toNat = 2 ∨
    ((field w 16 2).toNat = 3 ∧ bit w 15 = false) ∨ ((field w 16 2).toNat = 3 ∧ bit w 15 = true) := by
  have h : (field w 16 2).toNat = (bit w 16).toNat ∨ (field w 16 2).toNat = 2 ∨ (field w 16 2).toNat = 3 := by
    rw [field_toNat, bit_toNat]
    omega
  cases bit w 15 <;> simpa using h

end Major

/-! ### Encoding, then decoding -/

/-- The decoder reads an encoded instruction back, for every word with the fields of the format's figure. -/
theorem decode_encodeRI (aaa : BitVec 3) (rd rs1 : RegNum) (f h : Bool) (k : BitVec 16) :
    decode (encodeRI aaa rd rs1 f h k) = .ok (riInstr aaa.toNat rd rs1 f h k) := by
  obtain ⟨hop, haaa, hrd, hrs1, hf, hh, hk⟩ := fields_encodeRI aaa rd rs1 f h k
  rw [decode_RI (hop ▸ aaa.isLt), decodeRI_eq, haaa, hrd, hrs1, hf, hh, hk]

theorem decode_encodeRR {bbb : BitVec 3} (hb : bbb ≠ 7#3) (rd rs1 : RegNum) (f : Bool) (rs2 : RegNum) (j : BitVec 5) :
    decode (encodeRR rd rs1 f rs2 bbb j) = .ok (rrInstr bbb.toNat rd rs1 f rs2 j) := by
  obtain ⟨hop, hrd, hrs1, hf, h16, hrs2, hbbb, hj, h0⟩ := fields_encodeRR rd rs1 f rs2 bbb j
  rw [decode_RR hop, decodeRR_eq_ok_iff, hrd, hrs1, hf, hrs2, hbbb, hj]
  exact ⟨⟨h16, h0⟩, .inl ⟨hb, rfl⟩⟩

/-- A word whose bits 7:3 are the `JJJJJ` of a shift selects that shift. -/
theorem isShiftCode_of_shiftBits {w : Word} {a : Bool} (h : field w 3 5 = shiftBits a) :
    IsShiftCode w ∧ bit w 6 = a := by
  have hj := congrArg BitVec.toNat h
  rw [field_toNat] at hj
  refine ⟨⟨bit_eq_of ?_, field_eq ?_⟩, bit_eq_of ?_⟩ <;> cases a <;>
    simp only [shiftBits, if_true, if_false, Bool.false_eq_true, BitVec.toNat_ofNat, Bool.toNat_true,
      Bool.toNat_false] at hj ⊢ <;> omega

theorem decode_encodeRR_shift (a : Bool) (rd rs1 : RegNum) (f : Bool) (rs2 : RegNum) :
    decode (encodeRR rd rs1 f rs2 7#3 (shiftBits a)) = .ok (rrShiftInstr a rd rs1 f rs2) := by
  obtain ⟨hop, hrd, hrs1, hf, h16, hrs2, hbbb, hj, h0⟩ := fields_encodeRR rd rs1 f rs2 7#3 (shiftBits a)
  obtain ⟨hcode, ha⟩ := isShiftCode_of_shiftBits hj
  rw [decode_RR hop, decodeRR_eq_ok_iff, hrd, hrs1, hf, hrs2, hbbb, ha]
  exact ⟨⟨h16, h0⟩, .inr ⟨rfl, hcode, rfl⟩⟩

theorem decode_encodeRRR {aaa : BitVec 3} {h : Bool} (hh : aaa ≠ 7#3 → h = false) (rd rs1 : RegNum) (f : Bool)
    (rs2 rs3 : RegNum) (op1 : Op1) :
    decode (encodeRRR rd rs1 f h rs2 aaa rs3 op1) = .ok (rrrInstr aaa.toNat h rd rs1 f rs2 rs3 op1) := by
  obtain ⟨hop, hrd, hrs1, hf, h16, hrs2, haaa, hrs3, hop1⟩ := fields_encodeRRR rd rs1 f h rs2 aaa rs3 op1
  rw [decode_RRR hop, decodeRRR_eq_ok_iff, hrd, hrs1, hf, h16, hrs2, haaa, hrs3, hop1, op1Of_bits]
  exact ⟨hh, rfl⟩

theorem decode_encodeRM (st : Bool) (rd rs1 : RegNum) (m : AddrMode) (k : BitVec 16) :
    decode (encodeRM st rd rs1 m k) = .ok (rmInstr st rd rs1 m k) := by
  obtain ⟨hop, hrd, hrs1, hm, hk⟩ := fields_encodeRM st rd rs1 m k
  rw [decode_RM hop, hrd, hrs1, addrModeOf_bits m _ 16 hm, hk]

/-- The three bits of `YLE`, read one by one (R101). -/
theorem bits_of_yle {w : Word} {y l e : Bool} (h : field w 0 3 = yle y l e) :
    bit w 2 = y ∧ bit w 1 = l ∧ bit w 0 = e := by
  have hy := congrArg BitVec.toNat h
  rw [field_toNat] at hy
  refine ⟨bit_eq_of ?_, bit_eq_of ?_, bit_eq_of ?_⟩ <;> cases y <;> cases l <;> cases e <;>
    simp [yle] at hy ⊢ <;> omega

theorem decode_encodeRRM {bbb : BitVec 3} (hb : bbb ≠ 7#3) {y l : Bool} (hyl : (y && l) = false) (st e : Bool)
    (rd rs1 : RegNum) (m : AddrMode) (rs2 : RegNum) (j : BitVec 5) :
    decode (encodeRRM st rd rs1 m rs2 bbb j (yle y l e)) = .ok (rrmInstr st y l e bbb.toNat rd rs1 m rs2 j) := by
  obtain ⟨hop, hst, hrd, hrs1, hm, hrs2, hbbb, hj, hyle⟩ := fields_encodeRRM st rd rs1 m rs2 bbb j (yle y l e)
  obtain ⟨hy, hl, he⟩ := bits_of_yle hyle
  rw [decode_RRM hop, decodeRRM_eq_ok_iff, hst, hrd, hrs1, addrModeOf_bits m _ 16 hm, hrs2, hbbb, hj, hy, hl, he]
  exact .inl ⟨hb, hyl, rfl⟩

theorem decode_encodeRRM_shift (st a : Bool) (rd rs1 : RegNum) (m : AddrMode) (rs2 : RegNum) (y : BitVec 3) :
    decode (encodeRRM st rd rs1 m rs2 7#3 (shiftBits a) y) = .ok (rrmShiftInstr st a rd rs1 m rs2 y) := by
  obtain ⟨hop, hst, hrd, hrs1, hm, hrs2, hbbb, hj, hy⟩ := fields_encodeRRM st rd rs1 m rs2 7#3 (shiftBits a) y
  obtain ⟨hcode, ha⟩ := isShiftCode_of_shiftBits hj
  rw [decode_RRM hop, decodeRRM_eq_ok_iff, hst, hrd, hrs1, addrModeOf_bits m _ 16 hm, hrs2, hbbb, hy, ha]
  exact .inr ⟨rfl, hcode, rfl⟩

theorem decode_encodeBR (d : BitVec 4) (k : BitVec 23) (r : Bool) :
    decode (encodeBR d k r) = .ok (brInstr d.toNat k r) := by
  obtain ⟨hop, -, hk, hr, -⟩ := fields_encodeBR d k r
  rw [decode_BR hop, Machine.condCode_encodeBR, hk, hr]

/-- The two parts of a 21-bit constant, put together again (R105, R106). -/
theorem long_constant {w : Word} {a : BitVec 21} (hhigh : (field w 18 5).toNat = a.toNat / 65536)
    (hlow : (field w 0 16).toNat = a.toNat % 65536) : field w 18 5 ++ field w 0 16 = a := by
  have happend := append_toNat (field w 18 5) (field w 0 16)
  apply BitVec.eq_of_toNat_eq
  rw [hhigh, hlow] at happend
  omega

theorem decode_encodeSLS (st : Bool) (rd : RegNum) (a : BitVec 21) :
    decode (encodeSLS st rd a) = .ok (slsInstr st rd a) := by
  obtain ⟨hop, hrd, hhigh, hst, hlow⟩ := fields_encodeSLS st rd a
  rw [decode_special hop, decodeSpecial_SLS hst, hrd, long_constant hhigh hlow]

theorem decode_encodeSLI (rd : RegNum) (k : BitVec 21) : decode (encodeSLI rd k) = .ok (.movSLI rd k) := by
  obtain ⟨hop, hrd, hhigh, h16, hlow⟩ := fields_encodeSLI rd k
  rw [decode_special hop, decodeSpecial_SLI h16, hrd, long_constant hhigh hlow]

theorem decode_encodeSPLS (y st e : Bool) (rd rs1 : RegNum) (m : AddrMode) (k : BitVec 10) :
    decode (encodeSPLS rd rs1 y st e m k) = .ok (splsInstr y st e rd rs1 m k) := by
  obtain ⟨hop, h16, h15, hrd, hrs1, hy, hst, he, hm, hk⟩ := fields_encodeSPLS rd rs1 y st e m k
  rw [decode_special hop, decodeSpecial_SPLS h16 h15, hrd, hrs1, hy, hst, he, addrModeOf_bits m _ 10 hm, hk]

theorem decode_encodeSBR (d : BitVec 4) (rs1 rs3 : RegNum) :
    decode (encodeSBR d rs1 rs3) = .ok (sbrInstr d.toNat rs1 rs3) := by
  obtain ⟨hop, h16, h15, h8, h1, h23, -, -, hrs1, hrs3⟩ := fields_encodeSBR d rs1 rs3
  rw [decode_special hop, decodeSpecial_branchPunt h16 h15, decodeBranchPunt_eq_ok_iff, Machine.condCode_encodeSBR, hrs1,
    hrs3]
  exact .inl ⟨⟨h8, h1, h23⟩, rfl⟩

/-- Format by format, the word of an instruction decodes to the instruction. -/
theorem decode_encode (i : Instr) : decode (encode i) = .ok i := by
  cases i
  case addRI rd rs1 f h k | addcRI rd rs1 f h k | subRI rd rs1 f h k | subbRI rd rs1 f h k | andRI rd rs1 f h k
      | orRI rd rs1 f h k | xorRI rd rs1 f h k =>
    exact decode_encodeRI _ rd rs1 f h k
  case shRI rd rs1 f k => exact decode_encodeRI 7#3 rd rs1 f false k
  case shaRI rd rs1 f k => exact decode_encodeRI 7#3 rd rs1 f true k
  case addRR rd rs1 f rs2 j | addcRR rd rs1 f rs2 j | subRR rd rs1 f rs2 j | subbRR rd rs1 f rs2 j
      | andRR rd rs1 f rs2 j | orRR rd rs1 f rs2 j | xorRR rd rs1 f rs2 j =>
    exact decode_encodeRR (by decide) rd rs1 f rs2 j
  case shRR rd rs1 f rs2 => exact decode_encodeRR_shift false rd rs1 f rs2
  case shaRR rd rs1 f rs2 => exact decode_encodeRR_shift true rd rs1 f rs2
  case putAdd rd rs1 f rs2 rs3 op1 | putAddc rd rs1 f rs2 rs3 op1 | putSub rd rs1 f rs2 rs3 op1
      | putSubb rd rs1 f rs2 rs3 op1 | putAnd rd rs1 f rs2 rs3 op1 | putOr rd rs1 f rs2 rs3 op1
      | putXor rd rs1 f rs2 rs3 op1 | putSh rd rs1 f rs2 rs3 op1 =>
    exact decode_encodeRRR (fun _ => rfl) rd rs1 f rs2 rs3 op1
  case putSha rd rs1 f rs2 rs3 op1 =>
    exact decode_encodeRRR (fun h => absurd rfl h) rd rs1 f rs2 rs3 op1
  case ldRM rd rs1 m k => exact decode_encodeRM false rd rs1 m k
  case stRM rd rs1 m k => exact decode_encodeRM true rd rs1 m k
  case ldAddRRM rd rs1 m rs2 j e | ldAddcRRM rd rs1 m rs2 j e | ldSubRRM rd rs1 m rs2 j e | ldSubbRRM rd rs1 m rs2 j e
      | ldAndRRM rd rs1 m rs2 j e | ldOrRRM rd rs1 m rs2 j e | ldXorRRM rd rs1 m rs2 j e =>
    exact decode_encodeRRM (by decide) (y := false) (l := true) rfl false e rd rs1 m rs2 j
  case ldhAddRRM rd rs1 m rs2 j | ldhAddcRRM rd rs1 m rs2 j | ldhSubRRM rd rs1 m rs2 j | ldhSubbRRM rd rs1 m rs2 j
      | ldhAndRRM rd rs1 m rs2 j | ldhOrRRM rd rs1 m rs2 j | ldhXorRRM rd rs1 m rs2 j =>
    exact decode_encodeRRM (by decide) (y := false) (l := false) rfl false false rd rs1 m rs2 j
  case uldhAddRRM rd rs1 m rs2 j | uldhAddcRRM rd rs1 m rs2 j | uldhSubRRM rd rs1 m rs2 j | uldhSubbRRM rd rs1 m rs2 j
      | uldhAndRRM rd rs1 m rs2 j | uldhOrRRM rd rs1 m rs2 j | uldhXorRRM rd rs1 m rs2 j =>
    exact decode_encodeRRM (by decide) (y := false) (l := false) rfl false true rd rs1 m rs2 j
  case ldbAddRRM rd rs1 m rs2 j | ldbAddcRRM rd rs1 m rs2 j | ldbSubRRM rd rs1 m rs2 j | ldbSubbRRM rd rs1 m rs2 j
      | ldbAndRRM rd rs1 m rs2 j | ldbOrRRM rd rs1 m rs2 j | ldbXorRRM rd rs1 m rs2 j =>
    exact decode_encodeRRM (by decide) (y := true) (l := false) rfl false false rd rs1 m rs2 j
  case uldbAddRRM rd rs1 m rs2 j | uldbAddcRRM rd rs1 m rs2 j | uldbSubRRM rd rs1 m rs2 j | uldbSubbRRM rd rs1 m rs2 j
      | uldbAndRRM rd rs1 m rs2 j | uldbOrRRM rd rs1 m rs2 j | uldbXorRRM rd rs1 m rs2 j =>
    exact decode_encodeRRM (by decide) (y := true) (l := false) rfl false true rd rs1 m rs2 j
  case stAddRRM rd rs1 m rs2 j e | stAddcRRM rd rs1 m rs2 j e | stSubRRM rd rs1 m rs2 j e | stSubbRRM rd rs1 m rs2 j e
      | stAndRRM rd rs1 m rs2 j e | stOrRRM rd rs1 m rs2 j e | stXorRRM rd rs1 m rs2 j e =>
    exact decode_encodeRRM (by decide) (y := false) (l := true) rfl true e rd rs1 m rs2 j
  case sthAddRRM rd rs1 m rs2 j e | sthAddcRRM rd rs1 m rs2 j e | sthSubRRM rd rs1 m rs2 j e
      | sthSubbRRM rd rs1 m rs2 j e | sthAndRRM rd rs1 m rs2 j e | sthOrRRM rd rs1 m rs2 j e
      | sthXorRRM rd rs1 m rs2 j e =>
    exact decode_encodeRRM (by decide) (y := false) (l := false) rfl true e rd rs1 m rs2 j
  case stbAddRRM rd rs1 m rs2 j e | stbAddcRRM rd rs1 m rs2 j e | stbSubRRM rd rs1 m rs2 j e
      | stbSubbRRM rd rs1 m rs2 j e | stbAndRRM rd rs1 m rs2 j e | stbOrRRM rd rs1 m rs2 j e
      | stbXorRRM rd rs1 m rs2 j e =>
    exact decode_encodeRRM (by decide) (y := true) (l := false) rfl true e rd rs1 m rs2 j
  case ldShRRM rd rs1 m rs2 y => exact decode_encodeRRM_shift false false rd rs1 m rs2 y
  case ldShaRRM rd rs1 m rs2 y => exact decode_encodeRRM_shift false true rd rs1 m rs2 y
  case stShRRM rd rs1 m rs2 y => exact decode_encodeRRM_shift true false rd rs1 m rs2 y
  case stShaRRM rd rs1 m rs2 y => exact decode_encodeRRM_shift true true rd rs1 m rs2 y
  case btBR k r | bfBR k r | bhiBR k r | blsBR k r | bccBR k r | bcsBR k r | bneBR k r | beqBR k r | bvcBR k r
      | bvsBR k r | bplBR k r | bmiBR k r | bgeBR k r | bltBR k r | bgtBR k r | bleBR k r =>
    exact decode_encodeBR _ k r
  case punt => decide
  case ldSLS rd a => exact decode_encodeSLS false rd a
  case stSLS rd a => exact decode_encodeSLS true rd a
  case movSLI rd k => exact decode_encodeSLI rd k
  case ldhSPLS rd rs1 m k => exact decode_encodeSPLS false false false rd rs1 m k
  case uldhSPLS rd rs1 m k => exact decode_encodeSPLS false false true rd rs1 m k
  case ldbSPLS rd rs1 m k => exact decode_encodeSPLS true false false rd rs1 m k
  case uldbSPLS rd rs1 m k => exact decode_encodeSPLS true false true rd rs1 m k
  case sthSPLS rd rs1 m k e => exact decode_encodeSPLS false true e rd rs1 m k
  case stbSPLS rd rs1 m k e => exact decode_encodeSPLS true true e rd rs1 m k
  case btSBR rs1 rs3 | bfSBR rs1 rs3 | bhiSBR rs1 rs3 | blsSBR rs1 rs3 | bccSBR rs1 rs3 | bcsSBR rs1 rs3
      | bneSBR rs1 rs3 | beqSBR rs1 rs3 | bvcSBR rs1 rs3 | bvsSBR rs1 rs3 | bplSBR rs1 rs3 | bmiSBR rs1 rs3
      | bgeSBR rs1 rs3 | bltSBR rs1 rs3 | bgtSBR rs1 rs3 | bleSBR rs1 rs3 =>
    exact decode_encodeSBR _ rs1 rs3

theorem decodeBytes_bytesOfWord {w : Word} {i : Instr} (h : decode w = .ok i) (rest : List Byte) :
    decodeBytes (bytesOfWord w ++ rest) = .ok (i, rest) := by
  simp [bytesOfWord, decodeBytes, wordOfBytes_bytesOfWord, h]

/-- Settles O1: the four bytes make up the word again, and the word of an instruction decodes to it. -/
theorem decodeOfEncode : Obligations.DecodeOfEncode := by
  unfold Obligations.DecodeOfEncode
  exact fun i rest => decodeBytes_bytesOfWord (decode_encode i) rest

/-! ### Decoding, then encoding -/

theorem bits_addrModeOf (p q : Bool) : (addrModeOf p q).bits.toNat = 2 * p.toNat + q.toNat := by
  cases p <;> cases q <;> rfl

theorem bits_op1Of (x : BitVec 3) : (op1Of x).bits = x := by revert x; decide

theorem toNat_yle (y l e : Bool) : (yle y l e).toNat = 4 * y.toNat + 2 * l.toNat + e.toNat := by
  cases y <;> cases l <;> cases e <;> rfl

/-- A shift code is the `JJJJJ` of the shift that bit 6 selects (R96). -/
theorem shiftBits_of_isShiftCode {w : Word} (h : IsShiftCode w) : shiftBits (bit w 6) = field w 3 5 := by
  obtain ⟨h7, h3⟩ := h
  have h7' := bit_toNat w 7
  have h3' := congrArg BitVec.toNat h3
  rw [h7, Bool.toNat_true] at h7'
  rw [field_toNat, BitVec.toNat_ofNat] at h3'
  have h6 := bit_toNat w 6
  apply BitVec.eq_of_toNat_eq
  rw [field_toNat]
  cases hb : bit w 6 <;> rw [hb] at h6 <;>
    simp only [shiftBits, if_true, if_false, Bool.false_eq_true, BitVec.toNat_ofNat, Bool.toNat_false, Bool.toNat_true]
      at h6 ⊢ <;> omega

section Fields
variable {w : Word}

/-! The figure of each format, filled with the fields of a word of that format, is the word. -/

theorem encodeRI_fields (hop : (field w 28 4).toNat < 8) :
    encodeRI (field w 28 3) (field w 23 5) (field w 18 5) (bit w 17) (bit w 16) (field w 0 16) = w := by
  have hw := w.isLt
  apply BitVec.eq_of_toNat_eq
  simp only [encodeRI_toNat, field_toNat, bit_toNat] at hop ⊢
  omega

theorem encodeRR_fields (hop : (field w 28 4).toNat = 12) (h16 : bit w 16 = false) (h0 : field w 0 3 = 0#3) :
    encodeRR (field w 23 5) (field w 18 5) (bit w 17) (field w 11 5) (field w 8 3) (field w 3 5) = w := by
  have hw := w.isLt
  have h16' := bit_toNat w 16
  have h0' := congrArg BitVec.toNat h0
  rw [h16, Bool.toNat_false] at h16'
  rw [field_toNat, BitVec.toNat_ofNat] at h0'
  apply BitVec.eq_of_toNat_eq
  simp only [encodeRR_toNat, field_toNat, bit_toNat] at hop ⊢
  omega

theorem encodeRRR_fields (hop : (field w 28 4).toNat = 13) :
    encodeRRR (field w 23 5) (field w 18 5) (bit w 17) (bit w 16) (field w 11 5) (field w 8 3) (field w 3 5)
      (op1Of (field w 0 3)) = w := by
  have hw := w.isLt
  apply BitVec.eq_of_toNat_eq
  simp only [encodeRRR_toNat, bits_op1Of, field_toNat, bit_toNat] at hop ⊢
  omega

theorem encodeRM_fields (hop : (field w 28 4).toNat = 8 + (bit w 28).toNat) :
    encodeRM (bit w 28) (field w 23 5) (field w 18 5) (addrModeOf (bit w 17) (bit w 16)) (field w 0 16) = w := by
  have hw := w.isLt
  apply BitVec.eq_of_toNat_eq
  simp only [encodeRM_toNat, bits_addrModeOf, field_toNat, bit_toNat] at hop ⊢
  omega

theorem encodeRRM_fields (hop : (field w 28 4).toNat = 10 + (bit w 28).toNat) :
    encodeRRM (bit w 28) (field w 23 5) (field w 18 5) (addrModeOf (bit w 17) (bit w 16)) (field w 11 5) (field w 8 3)
      (field w 3 5) (field w 0 3) = w := by
  have hw := w.isLt
  apply BitVec.eq_of_toNat_eq
  simp only [encodeRRM_toNat, bits_addrModeOf, field_toNat, bit_toNat] at hop ⊢
  omega

theorem yle_bits (w : Word) : yle (bit w 2) (bit w 1) (bit w 0) = field w 0 3 := by
  apply BitVec.eq_of_toNat_eq
  simp only [toNat_yle, field_toNat, bit_toNat]
  omega

/-- The condition code as the four bits of the figures (R103). -/
theorem condCode_toNat (w : Word) : (BitVec.ofNat 4 (condCode w)).toNat = condCode w := by
  have hddd := (field w 25 3).isLt
  have hi := (bit w 0).toNat_lt
  rw [BitVec.toNat_ofNat]
  unfold condCode
  omega

theorem encodeBR_fields (hop : (field w 28 4).toNat = 14) :
    encodeBR (BitVec.ofNat 4 (condCode w)) (field w 2 23) (bit w 1) = w := by
  have hw := w.isLt
  apply BitVec.eq_of_toNat_eq
  rw [encodeBR_toNat, condCode_toNat, condCode]
  simp only [field_toNat, bit_toNat] at hop ⊢
  omega

/-- The 21-bit constant of SLS and SLI as a number (R105, R106). -/
theorem long_constant_toNat (w : Word) :
    (field w 18 5 ++ field w 0 16).toNat = w.toNat / 2 ^ 18 % 2 ^ 5 * 2 ^ 16 + w.toNat / 2 ^ 0 % 2 ^ 16 := by
  rw [← field_toNat, ← field_toNat]
  exact append_toNat _ _

theorem encodeSLS_fields (hop : (field w 28 4).toNat = 15) (h16 : (field w 16 2).toNat = (bit w 16).toNat) :
    encodeSLS (bit w 16) (field w 23 5) (field w 18 5 ++ field w 0 16) = w := by
  have hw := w.isLt
  apply BitVec.eq_of_toNat_eq
  rw [encodeSLS_toNat, long_constant_toNat]
  simp only [field_toNat, bit_toNat] at hop h16 ⊢
  omega

theorem encodeSLI_fields (hop : (field w 28 4).toNat = 15) (h16 : (field w 16 2).toNat = 2) :
    encodeSLI (field w 23 5) (field w 18 5 ++ field w 0 16) = w := by
  have hw := w.isLt
  apply BitVec.eq_of_toNat_eq
  rw [encodeSLI_toNat, long_constant_toNat]
  simp only [field_toNat] at hop h16 ⊢
  omega

theorem encodeSPLS_fields (hop : (field w 28 4).toNat = 15) (h16 : (field w 16 2).toNat = 3) (h15 : bit w 15 = false) :
    encodeSPLS (field w 23 5) (field w 18 5) (bit w 14) (bit w 13) (bit w 12) (addrModeOf (bit w 11) (bit w 10))
      (field w 0 10) = w := by
  have hw := w.isLt
  have h15' := bit_toNat w 15
  rw [h15, Bool.toNat_false] at h15'
  apply BitVec.eq_of_toNat_eq
  simp only [encodeSPLS_toNat, bits_addrModeOf, field_toNat, bit_toNat] at hop h16 ⊢
  omega

theorem encodeSBR_fields (hop : (field w 28 4).toNat = 15) (h16 : (field w 16 2).toNat = 3) (h15 : bit w 15 = true)
    (hsbr : IsSBR w) : encodeSBR (BitVec.ofNat 4 (condCode w)) (field w 18 5) (field w 3 5) = w := by
  have hw := w.isLt
  have h15' := bit_toNat w 15
  rw [h15, Bool.toNat_true] at h15'
  obtain ⟨h8, h1, h23⟩ := hsbr
  have h8' := congrArg BitVec.toNat h8
  have h1' := congrArg BitVec.toNat h1
  have h23' := congrArg BitVec.toNat h23
  rw [field_toNat, BitVec.toNat_ofNat] at h8' h1' h23'
  apply BitVec.eq_of_toNat_eq
  rw [encodeSBR_toNat, condCode_toNat, condCode]
  simp only [field_toNat, bit_toNat] at hop h16 ⊢
  omega

end Fields

/-- A word of major opcode `1111` that decodes is the word of its instruction. -/
theorem encode_of_decodeSpecial {w : Word} {i : Instr} (hop : (field w 28 4).toNat = 15)
    (h : decodeSpecial w = .ok i) : encode i = w := by
  obtain h16 | h16 | ⟨h16, h15⟩ | ⟨h16, h15⟩ := special_cases w
  · rw [decodeSpecial_SLS h16] at h
    obtain rfl := Except.ok.inj h
    rw [encode_slsInstr, encodeSLS_fields hop h16]
  · rw [decodeSpecial_SLI h16] at h
    obtain rfl := Except.ok.inj h
    exact encodeSLI_fields hop h16
  · rw [decodeSpecial_SPLS h16 h15] at h
    obtain rfl := Except.ok.inj h
    rw [encode_splsInstr, encodeSPLS_fields hop h16 h15]
  · rw [decodeSpecial_branchPunt h16 h15, decodeBranchPunt_eq_ok_iff] at h
    obtain ⟨hsbr, rfl⟩ | ⟨rfl, rfl⟩ := h
    · rw [← condCode_toNat, encode_sbrInstr, encodeSBR_fields hop h16 h15 hsbr]
    · rfl

/-- Format by format, a word that decodes is the word of the instruction it decodes to. -/
theorem encode_of_decode {w : Word} {i : Instr} (h : decode w = .ok i) : encode i = w := by
  obtain hop | hop | hop | hop | hop | hop | hop := major_cases w
  · rw [decode_RI hop, decodeRI_eq] at h
    obtain rfl := Except.ok.inj h
    rw [encode_riInstr, encodeRI_fields hop]
  · rw [decode_RM hop] at h
    obtain rfl := Except.ok.inj h
    rw [encode_rmInstr, encodeRM_fields hop]
  · rw [decode_RRM hop, decodeRRM_eq_ok_iff] at h
    obtain ⟨hb, hyl, rfl⟩ | ⟨hb, hcode, rfl⟩ := h
    · rw [encode_rrmInstr hb hyl, yle_bits, encodeRRM_fields hop]
    · rw [encode_rrmShiftInstr, shiftBits_of_isShiftCode hcode, ← hb, encodeRRM_fields hop]
  · rw [decode_RR hop, decodeRR_eq_ok_iff] at h
    obtain ⟨⟨h16, h0⟩, ⟨hb, rfl⟩ | ⟨hb, hcode, rfl⟩⟩ := h
    · rw [encode_rrInstr hb, encodeRR_fields hop h16 h0]
    · rw [encode_rrShiftInstr, shiftBits_of_isShiftCode hcode, ← hb, encodeRR_fields hop h16 h0]
  · rw [decode_RRR hop, decodeRRR_eq_ok_iff] at h
    obtain ⟨hh, rfl⟩ := h
    rw [encode_rrrInstr hh, encodeRRR_fields hop]
  · rw [decode_BR hop] at h
    obtain rfl := Except.ok.inj h
    rw [← condCode_toNat, encode_brInstr, encodeBR_fields hop]
  · rw [decode_special hop] at h
    exact encode_of_decodeSpecial hop h

/-- Settles O2: the figure of a format, filled with the fields that the decoder read, is the word. -/
theorem encodeOfDecode : Obligations.EncodeOfDecode := by
  unfold Obligations.EncodeOfDecode
  exact fun w i h => encode_of_decode h

/-- Settles O4: the decoder runs on each printed word. -/
theorem printedWordsDecode : Obligations.PrintedWordsDecode := by
  unfold Obligations.PrintedWordsDecode
  decide

/-! ### The words that decode -/

/-- A field in its bits. -/
theorem field_eq_iff_bits (w : Word) (lo n : Nat) (x : BitVec n) :
    field w lo n = x ↔ ∀ i < n, w.getLsbD (lo + i) = x.getLsbD i := by
  rw [field, BitVec.eq_of_getLsbD_eq_iff]
  refine forall_congr' fun i => forall_congr' fun hi => ?_
  simp [hi]

/-- The mask of SBR covers its opcode, its fixed bits and its reserved bits (R108). -/
theorem sbrMask_iff (w : Word) : w &&& 0xF183FF06#32 = 0xF003C000#32 ↔
    field w 28 4 = 15#4 ∧ field w 15 3 = 7#3 ∧ IsSBR w := by
  have hmask : w &&& 0xF183FF06#32 = 0xF003C000#32 ↔
      ∀ i < 32, (w.getLsbD i && (0xF183FF06#32).getLsbD i) = (0xF003C000#32).getLsbD i := by
    rw [BitVec.eq_of_getLsbD_eq_iff]
    simp only [BitVec.getLsbD_and]
  rw [hmask]
  simp only [IsSBR, field_eq_iff_bits, Nat.forall_lt_succ_right, Nat.not_lt_zero, false_imp_iff, implies_true, true_and,
    Nat.reduceAdd, BitVec.reduceGetLsb, Bool.and_true, Bool.and_false]
  tauto

/-- The spec's defined words in the decoder's fields, by the major opcode. -/
theorem definedWord_iff (w : Word) : Spec.DefinedWord w ↔
    if (field w 28 4).toNat = 10 ∨ (field w 28 4).toNat = 11 then
      (if field w 8 3 = 7#3 then IsShiftCode w else field w 1 2 ≠ 3#2)
    else if (field w 28 4).toNat = 12 then
      bit w 16 = false ∧ field w 0 3 = 0#3 ∧ (field w 8 3 = 7#3 → IsShiftCode w)
    else if (field w 28 4).toNat = 13 then field w 8 3 ≠ 7#3 → bit w 16 = false
    else if (field w 28 4).toNat = 15 then
      field w 15 3 ≠ 7#3 ∨ w &&& 0xF183FF06#32 = 0xF003C000#32 ∨ w = 0xF003FF47#32
    else True := Iff.rfl

theorem yl_iff (w : Word) : (bit w 2 && bit w 1) = false ↔ field w 1 2 ≠ 3#2 := by
  have h := field_eq_iff_bits w 1 2 3#2
  simp only [Nat.forall_lt_succ_right, Nat.not_lt_zero, false_imp_iff, implies_true, true_and, Nat.reduceAdd] at h
  rw [ne_eq, h, bit, bit]
  cases w.getLsbD 1 <;> cases w.getLsbD 2 <;> decide

/-- Bits 17:15 are set exactly where neither SLS, SLI nor SPLS takes the word (R109). -/
theorem bits17to15_iff (w : Word) : field w 15 3 = 7#3 ↔ (field w 16 2).toNat = 3 ∧ bit w 15 = true := by
  rw [← BitVec.toNat_inj, bit_eq, decide_eq_true_eq, field_toNat, field_toNat, BitVec.toNat_ofNat]
  omega

/-- Under the major opcode `1111`: anything but bits 17:15 set, or SBR, or PUNT. -/
theorem decodeSpecial_ok_iff {w : Word} (hop : (field w 28 4).toNat = 15) : (∃ i, decodeSpecial w = .ok i) ↔
    field w 15 3 ≠ 7#3 ∨ w &&& 0xF183FF06#32 = 0xF003C000#32 ∨ w = 0xF003FF47#32 := by
  have hmajor : field w 28 4 = 15#4 := BitVec.eq_of_toNat_eq hop
  rw [sbrMask_iff, ne_eq, bits17to15_iff]
  obtain h16 | h16 | ⟨h16, h15⟩ | ⟨h16, h15⟩ := special_cases w
  · have hbit := (bit w 16).toNat_lt
    rw [decodeSpecial_SLS h16]
    exact iff_of_true ⟨_, rfl⟩ (.inl fun h => by omega)
  · rw [decodeSpecial_SLI h16]
    exact iff_of_true ⟨_, rfl⟩ (.inl fun h => by omega)
  · rw [decodeSpecial_SPLS h16 h15]
    exact iff_of_true ⟨_, rfl⟩ (.inl fun h => by simp [h15] at h)
  · rw [decodeSpecial_branchPunt h16 h15]
    simp only [decodeBranchPunt_eq_ok_iff, exists_or, exists_and_left, exists_eq', and_true, hmajor, h16, h15,
      not_true_eq_false, false_or, true_and]

/-- Settles O3: for each format, the decoder's conditions are those of the table. -/
theorem decodableWordsAreTheDefinedOnes : Obligations.DecodableWordsAreTheDefinedOnes := by
  unfold Obligations.DecodableWordsAreTheDefinedOnes
  intro w
  rw [definedWord_iff]
  obtain hop | hop | hop | hop | hop | hop | hop := major_cases w
  · rw [decode_RI hop, if_neg (by omega), if_neg (by omega), if_neg (by omega), if_neg (by omega)]
    exact iff_of_true ⟨_, rfl⟩ trivial
  · have hbit := (bit w 28).toNat_lt
    rw [decode_RM hop, if_neg (by omega), if_neg (by omega), if_neg (by omega), if_neg (by omega)]
    exact iff_of_true ⟨_, rfl⟩ trivial
  · have hbit := (bit w 28).toNat_lt
    rw [decode_RRM hop, if_pos (by omega), ← yl_iff]
    simp only [decodeRRM_eq_ok_iff]
    by_cases hb : field w 8 3 = 7#3 <;> simp [hb]
  · rw [decode_RR hop, if_neg (by omega), if_pos hop]
    simp only [decodeRR_eq_ok_iff]
    by_cases hb : field w 8 3 = 7#3 <;> simp [hb, and_assoc]
  · rw [decode_RRR hop, if_neg (by omega), if_neg (by omega), if_pos hop]
    simp only [decodeRRR_eq_ok_iff, exists_and_left, exists_eq', and_true]
  · rw [decode_BR hop, if_neg (by omega), if_neg (by omega), if_neg (by omega), if_neg (by omega)]
    exact iff_of_true ⟨_, rfl⟩ trivial
  · rw [decode_special hop, if_neg (by omega), if_neg (by omega), if_neg (by omega), if_pos hop]
    exact decodeSpecial_ok_iff hop

end Sys2Proof

/-! ## Every step: the invariant, the frame, the contexts (R25, R38, R131 to R139) -/

namespace Sys2Proof.Machine

/-- The invariant, context by context. -/
theorem inv_iff (s : State) : s.Inv ↔ (∀ c, (s.ctx c).pc.extractLsb' 0 2 = 0#2) ∧ s.mem.wf := by
  constructor
  · rintro ⟨hsys, husr, hmem⟩
    refine ⟨fun c => ?_, hmem⟩
    cases c
    · exact hsys
    · exact husr
  · rintro ⟨hpc, hmem⟩
    exact ⟨hpc .system, hpc .user, hmem⟩

/-- A program counter that a port may have written is a word address if it was one without the write (R25). -/
theorem written_pc_low {o : Option Word} {v : Word} (h : v.extractLsb' 0 2 = 0#2) :
    ((o.map pcValue).getD v).extractLsb' 0 2 = 0#2 := by
  cases o with
  | none => exact h
  | some u => exact pcValue_low u

/-- Whatever the Compute stage produced, the end of a time step keeps the invariant. -/
theorem inv_advance {s : State} (h : s.Inv) (k : Compute) : (advance s k).Inv := by
  obtain ⟨hpc, hmem⟩ := (inv_iff s).1 h
  refine (inv_iff _).2 ⟨fun c => ?_, ?_⟩
  · obtain rfl | rfl := Context.eq_or_other s.cur c
    · rw [advance_ctx_same]
      exact written_pc_low (add_four_low (hpc _))
    · rw [advance_ctx_other]
      exact written_pc_low (hpc _)
  · rw [advance_mem]
    exact wf_memAfter hmem

/-- Settles O16: a step that has a next state is a time step, whose end keeps the invariant. -/
theorem invariantKeptByStep : Obligations.InvariantKeptByStep := by
  unfold Obligations.InvariantKeptByStep
  intro s t hinv hstep
  obtain ⟨k, hk, -⟩ := step_runs hstep
  obtain ⟨-, rfl⟩ := (timeStep_eq_next s k).1 hk
  exact inv_advance hinv k

/-- Settles O15: both program counters are 0 and memory is empty. -/
theorem invariantAtReset : Obligations.InvariantAtReset := by
  unfold Obligations.InvariantAtReset
  exact ⟨rfl, rfl, List.Pairwise.nil, fun _ h => absurd h List.not_mem_nil⟩

/-! ### What the latch makes the step compute -/

theorem step_of_latch {s : State} {w : Word} {i : Instr} (hl : (s.ctx s.cur).ir = .word w) (hd : decode w = .ok i) :
    step s = exec i s := by
  simp [step, hl, hd]

theorem step_of_bubble {s : State} (hl : (s.ctx s.cur).ir = .bubble) : step s = bubbleStep s := by
  simp [step, hl]

theorem step_of_decode_error {s : State} {w : Word} {e : DecodeError} (hl : (s.ctx s.cur).ir = .word w)
    (hd : decode w = .error e) : step s = .refused (refusalOfDecode e) := by
  simp [step, hl, hd]

/-- The latch determines the instruction that the coming step computes. -/
theorem State.computes_iff {s : State} {w : Word} {i j : Instr} (hl : (s.ctx s.cur).ir = .word w)
    (hd : decode w = .ok i) : s.computes j ↔ j = i := by
  constructor
  · rintro ⟨w', hl', hd'⟩
    obtain rfl : w = w' := by rw [hl] at hl'; exact Latch.word.inj hl'
    rw [hd] at hd'
    exact (Except.ok.inj hd').symm
  · rintro rfl
    exact ⟨w, hl, hd⟩

theorem State.names_iff {s : State} {w : Word} {i : Instr} (hl : (s.ctx s.cur).ir = .word w) (hd : decode w = .ok i)
    (r : RegNum) : s.names r ↔ i.computeDest = some r ∨ ∃ v, loadPort s = some (r, v) := by
  simp [State.names, State.computes_iff hl hd]

/-- A step of a latched instruction produces only what that instruction may. -/
theorem step_produces {s t : State} {w : Word} {i : Instr} (hl : (s.ctx s.cur).ir = .word w) (hd : decode w = .ok i)
    (h : step s = .next t) : ∃ k, timeStep s k = .next t ∧ Produces i k := by
  obtain ⟨k, hk, ⟨hbubble, -⟩ | ⟨j, hj, hp⟩⟩ := step_runs h
  · rw [hl] at hbubble
    cases hbubble
  · obtain rfl := (State.computes_iff hl hd).1 hj
    exact ⟨k, hk, hp⟩

/-- Settles O5: the latched word is decoded, and the step is its instruction's. -/
theorem stepExecutesLatchedInstruction : Obligations.StepExecutesLatchedInstruction := by
  unfold Obligations.StepExecutesLatchedInstruction
  exact fun s w i hl hd => step_of_latch hl hd

/-- The time step that computes nothing completes. -/
theorem bubbleStep_completes {s : State} (hr : Ready s) : Completes s (bubbleStep s) none none .idle false :=
  timeStep_completes hr (portRefusal_absent s.params)

/-- Settles O7: an empty latch makes the step the one that computes nothing. -/
theorem bubbleComputesNothing : Obligations.BubbleComputesNothing := by
  unfold Obligations.BubbleComputesNothing
  intro s hl hr
  rw [step_of_bubble hl]
  exact bubbleStep_completes hr

/-! ### When a step has a next state -/

theorem stepRefusal_eq_none_iff (s : State) (k : Compute) :
    stepRefusal s k = none ↔ Ready s ∧ portRefusal s.params k.cw = none := by
  simp only [stepRefusal, Option.or_eq_none_iff, and_assoc]

/-- Under `ISR_WRITE = refuse` an allowed port does not name `isr`. -/
theorem ne_isr_of_portRefusal {p : Params} {i : RegNum} {v : Word} (h : portRefusal p (some (i, v)) = none)
    (hp : p.isrWrite = .refuse) : i ≠ 31#5 :=
  (portRefusal_eq_none.1 h).resolve_right (by simp [hp])

/-- Settles O10: nothing refused the step, so the fetch, the Memory stage and both ports are allowed; a compute port that
names `isr` would have written it. -/
theorem nextStateOnlyWhenReady : Obligations.NextStateOnlyWhenReady := by
  unfold Obligations.NextStateOnlyWhenReady
  intro s t i w hl hd hstep
  obtain ⟨k, hk, hp⟩ := step_produces hl hd hstep
  obtain ⟨hready, hcw⟩ := (stepRefusal_eq_none_iff s k).1 ((timeStep_eq_next s k).1 hk).1
  refine ⟨hready, fun hisr => ⟨fun hdest => ?_, fun v hload => ?_⟩⟩
  · obtain h2 | ⟨v, hv⟩ := hp.always _ hdest
    · exact absurd h2 (by decide)
    · rw [hv] at hcw
      exact ne_isr_of_portRefusal hcw hisr rfl
  · obtain ⟨-, -, hport⟩ := hready
    rw [hload] at hport
    exact ne_isr_of_portRefusal hport hisr rfl

/-- Settles O12: no port lands in a location that the step does not name, and `Effect` leaves such a location. -/
theorem everyInstructionChangesOnlyWhatItNames : Obligations.EveryInstructionChangesOnlyWhatItNames := by
  unfold Obligations.EveryInstructionChangesOnlyWhatItNames
  intro s t i w hl hd hstep written
  obtain ⟨k, hk, hp⟩ := step_produces hl hd hstep
  have heff := timeStep_effect hk
  have hlands : ∀ r, ¬ written r → lands k.cw (loadPort s) r = none := fun r hr =>
    lands_eq_none (.inr ⟨i, ⟨w, hl, hd⟩, hp⟩) (fun h => hr ((State.names_iff hl hd r).1 h))
  refine ⟨fun r h4 h27 hr => ?general, fun hr => ?imr, fun hr hf => ?flags, fun hr => ?altFlags, fun hr => ?pc,
    fun hr => ?altPc, fun hm => ?ms⟩
  case general => rw [heff.general r h4 h27, hlands r hr]; rfl
  case imr => rw [heff.imr, hlands _ hr]; rfl
  case flags => rw [heff.flags, hlands _ hr, hp.fl hf]; rfl
  case altFlags => rw [heff.altFlags, hlands _ hr]; rfl
  case pc => rw [heff.pc, hlands _ hr]; rfl
  case altPc => rw [heff.altPc, hlands _ hr]; rfl
  case ms => rw [heff.ms, hp.ms hm]

/-- Settles O19: the alternate context's latches are no location of the step, its `pc` and flags are those of `apc` and
`aps`. -/
theorem alternateContextIsFrozen : Obligations.AlternateContextIsFrozen := by
  unfold Obligations.AlternateContextIsFrozen
  intro s t hstep
  obtain ⟨k, hk, hp⟩ := step_runs hstep
  have heff := timeStep_effect hk
  refine ⟨heff.altIr, heff.altMs, fun hn => ?apc, fun hn => ?aps⟩
  case apc => rw [heff.altPc, lands_eq_none hp hn]; rfl
  case aps => rw [heff.altFlags, lands_eq_none hp hn]; rfl

/-- Settles O8: the word does not decode, so the step is refused by the decoder's reason. -/
theorem undefinedWordIsRefused : Obligations.UndefinedWordIsRefused := by
  unfold Obligations.UndefinedWordIsRefused
  intro s w hl hundefined
  cases hd : decode w with
  | ok i => exact absurd ((decodableWordsAreTheDefinedOnes w).1 ⟨i, hd⟩) hundefined
  | error e =>
    rw [step_of_decode_error hl hd]
    cases e <;> simp [refusalOfDecode]

/-! ### The context switch -/

/-- The word of PUNT is the only one that decodes to it. -/
theorem decode_eq_punt_iff (w : Word) : decode w = .ok .punt ↔ w = 0xF003FF47#32 := by
  constructor
  · intro h
    exact (encode_of_decode h).symm
  · rintro rfl
    exact decode_encode .punt

/-- A step's Compute stage is PUNT's exactly where the latch holds the word of PUNT. -/
theorem LatchProduces.punt_iff {s : State} {k : Compute} (h : LatchProduces s k) :
    k.punt = true ↔ (s.ctx s.cur).ir = .word 0xF003FF47#32 := by
  obtain ⟨hl, rfl⟩ | ⟨i, ⟨w, hl, hd⟩, hp⟩ := h
  · simp [hl, Compute.nothing]
  · rw [hp.punt, hl, Latch.word.injEq, ← decode_eq_punt_iff, hd, Except.ok.injEq]

theorem cur_of_punt_step {s t : State} (h : step s = .next t) (hl : (s.ctx s.cur).ir = .word 0xF003FF47#32) :
    t.cur = s.cur.other := by
  obtain ⟨k, hk, hp⟩ := step_runs h
  rw [(timeStep_effect hk).cur, if_pos (hp.punt_iff.2 hl)]

theorem cur_of_step {s t : State} (h : step s = .next t) (hl : (s.ctx s.cur).ir ≠ .word 0xF003FF47#32) :
    t.cur = if s.cur = .user ∧ isrValue t &&& t.imr ≠ 0#32 then .system else s.cur := by
  obtain ⟨k, hk, hp⟩ := step_runs h
  rw [(timeStep_effect hk).cur, if_neg (fun hpunt => hl (hp.punt_iff.1 hpunt))]

/-- Settles O17: the switch at the end of a step, by whether the latch holds the word of PUNT and by the context. -/
theorem contextChangesOnlyByPuntOrInterrupt : Obligations.ContextChangesOnlyByPuntOrInterrupt := by
  unfold Obligations.ContextChangesOnlyByPuntOrInterrupt
  intro s t hstep
  refine ⟨fun hl => cur_of_punt_step hstep hl, fun hl hsys => ?system, fun hl huser => ?user⟩
  case system => simp [cur_of_step hstep hl, hsys]
  case user => by_cases hreq : isrValue t &&& t.imr = 0#32 <;> simp [cur_of_step hstep hl, huser, hreq]

/-- Settles O18: the three cases of the switch. -/
theorem takingTheInterruptChangesOnlyCur : Obligations.TakingTheInterruptChangesOnlyCur := by
  unfold Obligations.TakingTheInterruptChangesOnlyCur
  intro u
  simp only [← interruptRequest_iff]
  refine ⟨fun huser hreq => ?_, fun h => ?_, rfl⟩
  · simp [switchContext, huser, hreq, takeInterrupt]
  · have hnot : ¬ (u.cur = .user ∧ interruptRequest u = true) := by
      rintro ⟨huser, hreq⟩
      obtain hsys | hzero := h
      · rw [huser] at hsys
        cases hsys
      · exact (interruptRequest_iff u).1 hreq hzero
    simp [switchContext, hnot]

/-- An enabled `dbg_bit`, which is always set, is a request (R31, R375). -/
theorem request_of_dbgBit {u : State} (h : u.imr.getLsbD u.params.dbgBit.val = true) : isrValue u &&& u.imr ≠ 0#32 := by
  intro hzero
  have hbit := congrArg (fun x => x.getLsbD u.params.dbgBit.val) hzero
  simp only [BitVec.getLsbD_and, getLsbD_isrValue, h, Bool.and_self, BitVec.getLsbD_zero] at hbit
  cases hbit

theorem ms_of_punt_step {s t : State} (h : step s = .next t) (hl : (s.ctx s.cur).ir = .word 0xF003FF47#32) :
    (t.ctx s.cur).ms = .idle := by
  obtain ⟨k, hk, hp⟩ := step_produces hl ((decode_eq_punt_iff _).2 rfl) h
  rw [(timeStep_effect hk).ms, hp.ms rfl]

/-- Settles O20: `punt` enters the user context and leaves nothing pending; the user's step is frozen out of the system
context's pipeline, and the enabled `dbg_bit` ends it. -/
theorem singleStepDebugging : Obligations.SingleStepDebugging := by
  unfold Obligations.SingleStepDebugging
  intro s t u hsys hl hst htu hdbg hnot
  have htcur : t.cur = .user := by rw [cur_of_punt_step hst hl, hsys]; rfl
  have hother : t.cur.other = .system := by rw [htcur]; rfl
  have hl' : (t.ctx t.cur).ir ≠ .word 0xF003FF47#32 := by rw [htcur]; exact hnot
  have hucur : u.cur = .system := by
    rw [cur_of_step htu hl', if_pos ⟨htcur, request_of_dbgBit hdbg⟩]
  obtain ⟨k, hk, -⟩ := step_runs htu
  have heff := timeStep_effect hk
  have hidle := ms_of_punt_step hst hl
  have hir := heff.ir
  have haltIr := heff.altIr
  have haltMs := heff.altMs
  rw [hsys] at hidle
  rw [hother] at haltIr haltMs
  rw [htcur] at hir
  exact ⟨htcur, hucur, haltIr, haltMs.trans hidle, hir⟩

/-! ### The fetch of one step is the latch of the next (R131, R137) -/

/-- A program counter of the invariant is a word address. -/
theorem alignTo_word_of_low {a : Word} (h : a.extractLsb' 0 2 = 0#2) : alignTo .word a = a := by
  have hlow := congrArg BitVec.toNat h
  apply BitVec.eq_of_toNat_eq
  rw [alignTo_toNat]
  simp only [BitVec.extractLsb'_toNat, Nat.shiftRight_zero, BitVec.toNat_ofNat, Width.bytes] at hlow ⊢
  omega

/-- A word read at a word address is the word of the four bytes there (R62, R65). -/
theorem memRead_word_of_low (m : Memory) {a : Word} (h : a.extractLsb' 0 2 = 0#2) : memRead m a .word =
    wordOfBytes (byteAt m a) (byteAt m (a + 1#32)) (byteAt m (a + 2#32)) (byteAt m (a + 3#32)) := by
  simp only [memRead, alignTo_word_of_low h]
  exact BitVec.setWidth_eq _

theorem fetchedWord_of_not_meets {s : State} (h : storeMeetsFetch s = false) :
    fetchedWord s = memRead s.mem (s.ctx s.cur).pc .word := by
  simp [fetchedWord, h]

/-- Four bytes decode to an instruction exactly as their word does. -/
theorem decode_of_decodeBytes {b0 b1 b2 b3 : Byte} {i : Instr} (h : decodeBytes [b0, b1, b2, b3] = .ok (i, [])) :
    decode (wordOfBytes b0 b1 b2 b3) = .ok i := by
  cases hd : decode (wordOfBytes b0 b1 b2 b3) <;> simp only [decodeBytes, hd] at h
  case error e => cases h
  case ok j =>
    obtain ⟨rfl, -⟩ := Prod.mk.inj (Except.ok.inj h)
    rfl

/-- Settles O6: the step latches the word of the four bytes, which the next step decodes. -/
theorem fetchedBytesRunInTheNextStep : Obligations.FetchedBytesRunInTheNextStep := by
  unfold Obligations.FetchedBytesRunInTheNextStep
  intro s t i hinv hstep hcur hmeets pc hbytes
  have hlow : pc.extractLsb' 0 2 = 0#2 := ((inv_iff s).1 hinv).1 s.cur
  obtain ⟨k, hk, -⟩ := step_runs hstep
  have hl := (timeStep_effect hk).ir
  rw [fetchedWord_of_not_meets hmeets, memRead_word_of_low _ hlow, ← hcur] at hl
  exact step_of_latch hl (decode_of_decodeBytes hbytes)

end Sys2Proof.Machine

/-! ## Registers: what each reads, and what it reads after a write (R28, R33, R34) -/

namespace Sys2Proof.Machine

/-- `ps` as a number (R26). -/
theorem psValue_eq (c : Context) (f : Flags) : psValue c f =
    BitVec.ofNat 32 (16 * c.u.toNat + 8 * f.c.toNat + 4 * f.v.toNat + 2 * f.n.toNat + f.z.toNat) := by
  obtain ⟨fc, fv, fn, fz⟩ := f
  apply BitVec.eq_of_toNat_eq
  simp only [psValue, BitVec.toNat_setWidth, append_toNat, ofBool_toNat, BitVec.toNat_ofNat]
  congr 1
  omega

theorem readReg_of_phys (s : State) {c : Context} {i : RegNum} {n : Fin 24} (hi : 4 ≤ i.toNat ∧ i.toNat ≤ 27)
    (hn : phys c i = n) : readReg s c i = s.gpr[n] := by
  subst hn
  exact readReg_general s c i hi

theorem Context.u_eq (c : Context) : c.u = decide (c = .user) := by cases c <;> rfl

theorem Context.u_other (c : Context) : c.other.u = !decide (c = .user) := by cases c <;> rfl

/-- The general registers in the order of `G` (R28). -/
theorem readReg_sys_gpr (s : State) (i : Fin 24) : readReg s .system (BitVec.ofNat 5 (i.val + 4)) = s.gpr[i] := by
  have hi := i.isLt
  have e : (BitVec.ofNat 5 (i.val + 4)).toNat = i.val + 4 := by rw [BitVec.toNat_ofNat]; omega
  refine readReg_of_phys s (by omega) (Fin.ext ?_)
  simp only [phys, e]
  omega

theorem readReg_usr_gpr (s : State) (i : Fin 24) : readReg s .user (BitVec.ofNat 5 (27 - i.val)) = s.gpr[i] := by
  have hi := i.isLt
  have e : (BitVec.ofNat 5 (27 - i.val)).toNat = 27 - i.val := by rw [BitVec.toNat_ofNat]; omega
  refine readReg_of_phys s (by omega) (Fin.ext ?_)
  simp only [phys, e]
  omega

theorem getLsbD_isrValue_of_ne (s : State) {j : Nat} (h : j ≠ s.params.dbgBit.val) :
    (isrValue s).getLsbD j = s.isr.getLsbD j := by
  have hone : ((1#32) <<< s.params.dbgBit.val).getLsbD j = false := by
    rw [BitVec.getLsbD_shiftLeft, BitVec.getLsbD_one]
    by_cases hlt : j < s.params.dbgBit.val
    · simp [hlt]
    · simp
      omega
  rw [isrValue, BitVec.getLsbD_or, hone, Bool.or_false]

/-- Settles O21: the eight special registers by their definitions, the general ones by the two numberings. -/
theorem registerReads : Obligations.RegisterReads := by
  unfold Obligations.RegisterReads
  intro s ps one
  refine ⟨rfl, rfl, rfl, ?ps, fun i => ⟨fun hsys => ?sys, fun husr => ?usr⟩, ?aps, rfl, rfl, getLsbD_isrValue s,
    fun j _ h => getLsbD_isrValue_of_ne s h⟩
  case ps => exact (psValue_eq _ _).trans (by rw [Context.u_eq])
  case sys => rw [State.x, hsys, readReg_sys_gpr]
  case usr => rw [State.x, husr, readReg_usr_gpr]
  case aps => exact (psValue_eq _ _).trans (by rw [Context.u_other])

/-- A write of one register leaves every other one as it reads (R34). -/
theorem readReg_writeReg_ne (s : State) (c : Context) {i j : RegNum} (h : i ≠ j) (v : Word) :
    readReg (writeReg s c i v) c j = readReg s c j := by
  obtain rfl | rfl | rfl | rfl | rfl | rfl | rfl | rfl | hj := special_or_general j
  case inr.inr.inr.inr.inr.inr.inr.inr =>
    rw [readReg_general _ _ _ hj, readReg_general _ _ _ hj, writeReg_gpr _ _ _ _ _ hj, if_neg h]
  all_goals
    simp [readReg, isrValue, writeReg_pc, writeReg_altPc, writeReg_flags, writeReg_altFlags, writeReg_imr, h]

/-- A program counter takes the multiple of 4 (R25). -/
theorem pcValue_eq (v : Word) : pcValue v = BitVec.ofNat 32 (v.toNat / 4 * 4) := by
  have hv := v.isLt
  apply BitVec.eq_of_toNat_eq
  rw [pcValue, toNat_and_clear v _ 2 (by decide), BitVec.toNat_ofNat]
  omega

/-- `ps` with the flags of a written value: its bits 3:0 under `U` (R26, R29). -/
theorem psValue_flagsOfPs (c : Context) (v : Word) :
    psValue c (flagsOfPs v) = BitVec.ofNat 32 (v.toNat % 16 + 16 * c.u.toNat) := by
  have hbit : ∀ i, (v.getLsbD i).toNat = v.toNat / 2 ^ i % 2 := bit_toNat v
  rw [psValue_eq]
  simp only [flagsOfPs, hbit]
  congr 1
  omega

theorem sixteen_u (c : Context) : 16 * c.u.toNat = if c = .user then 16 else 0 := by cases c <;> rfl

theorem sixteen_u_other (c : Context) : 16 * c.other.u.toNat = if c = .user then 0 else 16 := by cases c <;> rfl

/-- Settles O22: another register reads as before; the written one by its number. -/
theorem registerReadAfterWrite : Obligations.RegisterReadAfterWrite := by
  unfold Obligations.RegisterReadAfterWrite
  intro s c i j v flags
  by_cases hij : i = j
  case neg => rw [if_pos (.inl hij), readReg_writeReg_ne s c hij]
  case pos =>
    subst hij
    obtain rfl | rfl | rfl | rfl | rfl | rfl | rfl | rfl | hi := special_or_general i
    case inr.inr.inr.inr.inr.inr.inr.inr =>
      obtain ⟨h0, h1, h2, h3, h28, h29, -, h31⟩ := general_ne hi
      rw [if_neg (by simp [h0, h1, h31]), if_neg (by simp [h2, h29]), if_neg h3, if_neg h28, readReg_general _ _ _ hi,
        writeReg_gpr _ _ _ _ _ hi, if_pos rfl]
    case inr.inr.inl => simp [readReg, writeReg_pc, pcValue_eq]
    case inr.inr.inr.inl => simp [readReg, writeReg_flags, psValue_flagsOfPs, sixteen_u, flags]
    case inr.inr.inr.inr.inl => simp [readReg, writeReg_altFlags, psValue_flagsOfPs, sixteen_u_other, flags]
    case inr.inr.inr.inr.inr.inl => simp [readReg, writeReg_altPc, pcValue_eq]
    case inr.inr.inr.inr.inr.inr.inl => simp [readReg, writeReg_imr]
    all_goals simp [readReg, isrValue]

/-- `31 - i` stays among the general register numbers. -/
theorem reversed_general {i : RegNum} (hi : 4 ≤ i.toNat ∧ i.toNat ≤ 27) :
    4 ≤ (31#5 - i).toNat ∧ (31#5 - i).toNat ≤ 27 := by
  rw [BitVec.toNat_sub, BitVec.toNat_ofNat]
  omega

/-- Both contexts find the same general register under their two numbers (R28). -/
theorem readReg_reversed (s : State) (c : Context) {i : RegNum} (hi : 4 ≤ i.toNat ∧ i.toNat ≤ 27) :
    readReg s c.other (31#5 - i) = readReg s c i := by
  have hphys := phys_other c.other i hi
  rw [Context.other_other] at hphys
  rw [readReg_of_phys s (reversed_general hi) hphys.symm, readReg_general _ _ _ hi]

/-- Settles O23: the read, and by it the read of what was written. -/
theorem generalRegistersAreReversed : Obligations.GeneralRegistersAreReversed := by
  unfold Obligations.GeneralRegistersAreReversed
  intro s c i v h4 h27
  refine ⟨readReg_reversed s c ⟨h4, h27⟩, ?_⟩
  rw [readReg_reversed _ c ⟨h4, h27⟩, readReg_general _ _ _ ⟨h4, h27⟩, writeReg_gpr _ _ _ _ _ ⟨h4, h27⟩, if_pos rfl]

end Sys2Proof.Machine

/-! ## Reset (R44, R45) -/

namespace Sys2Proof.Machine

/-- Settles O13: at reset the step computes a bubble, all of memory is allowed, and the step runs. -/
theorem resetBeginsAtAddressZero : Obligations.ResetBeginsAtAddressZero := by
  unfold Obligations.ResetBeginsAtAddressZero
  have hready : Ready State.reset := by decide
  obtain ⟨t, hnext, heff⟩ := bubbleStep_completes hready
  exact ⟨rfl, rfl, t, hnext, heff.cur, heff.pc, heff.ir⟩

/-- After reset every general register reads 0 (log 2). -/
theorem readReg_reset (c : Context) {i : RegNum} (hi : 4 ≤ i.toNat ∧ i.toNat ≤ 27) :
    readReg State.reset c i = 0#32 := by
  rw [readReg_general _ _ _ hi]
  simp [State.reset, State.resetWith]

/-- Settles O14: the fields of the reset state; of the parameters only the user latches depend. -/
theorem resetHoldsTheChosenValues : Obligations.ResetHoldsTheChosenValues := by
  unfold Obligations.ResetHoldsTheChosenValues
  refine ⟨rfl, rfl, rfl, rfl, rfl, rfl, rfl, rfl, rfl, rfl, rfl, rfl, rfl, rfl, rfl,
    fun c i h4 h27 => readReg_reset c ⟨h4, h27⟩, rfl, fun p => ⟨rfl, rfl, ?_, ?_, fun hbubble => ?_⟩⟩
  · cases h : p.resetLatchesUser <;> simp [State.resetWith, CtxState.resetUser, CtxState.reset, h]
  · cases h : p.resetLatchesUser <;> simp [State.resetWith, CtxState.resetUser, CtxState.reset, h]
  · simp [State.resetWith, CtxState.resetUser, CtxState.reset, hbubble]

end Sys2Proof.Machine

/-! ## Memory: big-endian reads and writes, and the load port (R60 to R71, R134) -/

namespace Sys2Proof.Machine

/-! ### Which accesses are allowed -/

theorem Region.contains_iff (r : Region) (a : Nat) : Region.contains r a = true ↔ r.base ≤ a ∧ a < r.base + r.size := by
  simp [Region.contains]

/-- An access is allowed when none of its bytes is a state register and each is memory (R41, R61). -/
theorem accessRefusal_eq_none_iff (p : Params) (ea : Word) (n : Width) : accessRefusal p ea n = none ↔
    ∀ b < n.bytes, (∃ r ∈ p.memImplemented, Region.contains r ((alignTo n ea).toNat + b) = true) ∧
      ∀ r ∈ p.stateRegAddrs, ¬ Region.contains r ((alignTo n ea).toNat + b) = true := by
  have hregister : ((List.range n.bytes).map ((alignTo n ea).toNat + ·)).any
      (fun b => p.stateRegAddrs.any (Region.contains · b)) = true ↔
        ∃ b < n.bytes, ∃ r ∈ p.stateRegAddrs, Region.contains r ((alignTo n ea).toNat + b) = true := by
    simp [List.any_eq_true]
  have hmemory : ((List.range n.bytes).map ((alignTo n ea).toNat + ·)).all
      (fun b => p.memImplemented.any (Region.contains · b)) = true ↔
        ∀ b < n.bytes, ∃ r ∈ p.memImplemented, Region.contains r ((alignTo n ea).toNat + b) = true := by
    simp [List.any_eq_true]
  simp only [accessRefusal]
  split
  case isTrue h =>
    obtain ⟨b, hb, r, hr, hcontains⟩ := hregister.1 h
    refine iff_of_false (by simp) fun hall => ?_
    exact (hall b hb).2 r hr hcontains
  case isFalse h =>
    have hnone : ∀ b < n.bytes, ∀ r ∈ p.stateRegAddrs, ¬ Region.contains r ((alignTo n ea).toNat + b) = true :=
      fun b hb r hr hcontains => h (hregister.2 ⟨b, hb, r, hr, hcontains⟩)
    split
    case isTrue hall => exact iff_of_true rfl fun b hb => ⟨hmemory.1 hall b hb, hnone b hb⟩
    case isFalse hall => exact iff_of_false (by simp) fun hboth => hall (hmemory.2 fun b hb => (hboth b hb).1)

/-- Settles O11, with the aligned address as a number. -/
theorem accessAllowedIffImplemented : Obligations.AccessAllowedIffImplemented := by
  unfold Obligations.AccessAllowedIffImplemented
  intro p ea n
  rw [accessRefusal_eq_none_iff, alignTo_toNat]
  simp only [Region.contains_iff]

/-! ### Reading and writing bytes -/

/-- The aligned address as the statements write it. -/
theorem alignTo_toNat_eq_mul (n : Width) (a : Word) : (alignTo n a).toNat = a.toNat / n.bytes * n.bytes := by
  rw [alignTo_toNat]
  cases n <;> simp only [Width.bytes] <;> omega

theorem alignTo_eq_of_div_eq {n : Width} {a b : Word} (h : a.toNat / n.bytes = b.toNat / n.bytes) :
    alignTo n a = alignTo n b := by
  apply BitVec.eq_of_toNat_eq
  rw [alignTo_toNat_eq_mul, alignTo_toNat_eq_mul, h]

theorem alignTo_eq (n : Width) (a : Word) : alignTo n a = BitVec.ofNat 32 (a.toNat / n.bytes * n.bytes) := by
  rw [← alignTo_toNat_eq_mul, BitVec.ofNat_toNat, BitVec.setWidth_eq]

/-- Byte `k` behind an aligned address, by its number. -/
theorem alignTo_add_eq (n : Width) (a : Word) {k : Nat} (hk : k < n.bytes) :
    alignTo n a + BitVec.ofNat 32 k = BitVec.ofNat 32 (a.toNat / n.bytes * n.bytes + k) := by
  have hadd := alignTo_add_toNat n a k hk
  apply BitVec.eq_of_toNat_eq
  rw [hadd, BitVec.toNat_ofNat, ← alignTo_toNat_eq_mul, Nat.mod_eq_of_lt (hadd ▸ BitVec.isLt _)]

/-- What a read gives depends on the bytes of its aligned unit only. -/
theorem memRead_congr {m m' : Memory} {a b : Word} {n : Width} (hab : alignTo n a = alignTo n b)
    (h : ∀ k < n.bytes, byteAt m (alignTo n b + BitVec.ofNat 32 k) = byteAt m' (alignTo n b + BitVec.ofNat 32 k)) :
    memRead m a n = memRead m' b n := by
  have h0 := h 0
  have h1 := h 1
  have h2 := h 2
  have h3 := h 3
  cases n <;> simp_all [memRead, Width.bytes]

/-- The byte at an address, both as numbers. -/
def byteNum (m : Memory) (a : Nat) : Nat := (byteAt m (BitVec.ofNat 32 a)).toNat

theorem byteNum_lt (m : Memory) (a : Nat) : byteNum m a < 256 := (byteAt m _).isLt

/-! A read as a number: its bytes, the one at the lowest address the most significant (R62). -/

theorem memRead_byte_toNat (m : Memory) (ea : Word) : (memRead m ea .byte).toNat = byteNum m ea.toNat := by
  have h0 := byteNum_lt m ea.toNat
  simp only [byteNum, BitVec.ofNat_toNat, BitVec.setWidth_eq] at h0 ⊢
  simp only [memRead, alignTo, BitVec.toNat_setWidth]
  omega

theorem memRead_half_toNat (m : Memory) (ea : Word) : (memRead m ea .half).toNat =
    256 * byteNum m (ea.toNat / 2 * 2) + byteNum m (ea.toNat / 2 * 2 + 1) := by
  have e0 : alignTo .half ea = BitVec.ofNat 32 (ea.toNat / 2 * 2) := alignTo_eq .half ea
  have e1 : alignTo .half ea + 1#32 = BitVec.ofNat 32 (ea.toNat / 2 * 2 + 1) := alignTo_add_eq .half ea (by decide)
  have h0 := byteNum_lt m (ea.toNat / 2 * 2)
  have h1 := byteNum_lt m (ea.toNat / 2 * 2 + 1)
  simp only [memRead, e1, BitVec.toNat_setWidth, append_toNat]
  simp only [e0, byteNum] at h0 h1 ⊢
  omega

theorem memRead_word_toNat (m : Memory) (ea : Word) : (memRead m ea .word).toNat =
    256 * (256 * (256 * byteNum m (ea.toNat / 4 * 4) + byteNum m (ea.toNat / 4 * 4 + 1)) +
      byteNum m (ea.toNat / 4 * 4 + 2)) + byteNum m (ea.toNat / 4 * 4 + 3) := by
  have e0 : alignTo .word ea = BitVec.ofNat 32 (ea.toNat / 4 * 4) := alignTo_eq .word ea
  have e1 : alignTo .word ea + 1#32 = BitVec.ofNat 32 (ea.toNat / 4 * 4 + 1) := alignTo_add_eq .word ea (by decide)
  have e2 : alignTo .word ea + 2#32 = BitVec.ofNat 32 (ea.toNat / 4 * 4 + 2) := alignTo_add_eq .word ea (by decide)
  have e3 : alignTo .word ea + 3#32 = BitVec.ofNat 32 (ea.toNat / 4 * 4 + 3) := alignTo_add_eq .word ea (by decide)
  have h0 := byteNum_lt m (ea.toNat / 4 * 4)
  have h1 := byteNum_lt m (ea.toNat / 4 * 4 + 1)
  have h2 := byteNum_lt m (ea.toNat / 4 * 4 + 2)
  have h3 := byteNum_lt m (ea.toNat / 4 * 4 + 3)
  simp only [memRead, e1, e2, e3, BitVec.toNat_setWidth, append_toNat]
  simp only [e0, byteNum] at h0 h1 h2 h3 ⊢
  omega

/-- Settles O26, width by width. -/
theorem memoryReadsBigEndian : Obligations.MemoryReadsBigEndian := by
  unfold Obligations.MemoryReadsBigEndian
  exact fun m ea => ⟨memRead_byte_toNat m ea, memRead_half_toNat m ea, memRead_word_toNat m ea⟩

/-- A state whose Memory stage is about to store `v` into `m`. -/
def State.storing (m : Memory) (ea : Word) (n : Width) (v : Word) : State :=
  { State.reset with mem := m, sys := { CtxState.reset with ms := .store ea n v } }

/-- A write changes the bytes of its aligned unit, the most significant first (R63): what the Memory stage does with a
pending store. -/
theorem byteAt_memWrite (m : Memory) (ea : Word) (n : Width) (v a : Word) : byteAt (memWrite m ea n v) a =
    if ea.toNat / n.bytes * n.bytes ≤ a.toNat ∧ a.toNat < ea.toNat / n.bytes * n.bytes + n.bytes
    then v.extractLsb' (8 * (n.bytes - 1 - (a.toNat - ea.toNat / n.bytes * n.bytes))) 8
    else byteAt m a := by
  have hstage : byteAt (memWrite m ea n v) a =
      (pendingStoreByte (State.storing m ea n v) a).getD (byteAt m a) := byteAt_memAfter (State.storing m ea n v) a
  have hms : ((State.storing m ea n v).ctx (State.storing m ea n v).cur).ms = .store ea n v := rfl
  rw [hstage, pendingStoreByte, hms]
  simp only [alignTo_toNat_eq_mul]
  split <;> rfl

theorem extractLsb'_byte_toNat (v : Word) (k : Nat) : (v.extractLsb' (8 * k) 8).toNat = v.toNat / 256 ^ k % 256 := by
  rw [BitVec.extractLsb'_toNat, Nat.shiftRight_eq_div_pow, Nat.pow_mul]

/-- Settles O27, with the byte of the value as a number. -/
theorem memoryWriteChangesOnlyItsBytes : Obligations.MemoryWriteChangesOnlyItsBytes := by
  unfold Obligations.MemoryWriteChangesOnlyItsBytes
  intro m ea n v a first
  rw [byteAt_memWrite, apply_ite BitVec.toNat, extractLsb'_byte_toNat]

/-- Byte `k` of a unit that was just written. -/
theorem byteNum_memWrite (m : Memory) (ea v : Word) {n : Width} {k : Nat} (hk : k < n.bytes) :
    byteNum (memWrite m ea n v) (ea.toNat / n.bytes * n.bytes + k) = v.toNat / 256 ^ (n.bytes - 1 - k) % 256 := by
  have haddr : (BitVec.ofNat 32 (ea.toNat / n.bytes * n.bytes + k)).toNat = ea.toNat / n.bytes * n.bytes + k := by
    rw [← alignTo_add_eq n ea hk, alignTo_add_toNat n ea k hk, alignTo_toNat_eq_mul]
  rw [byteNum, byteAt_memWrite, haddr, if_pos (by omega), Nat.add_sub_cancel_left, extractLsb'_byte_toNat]

/-- Byte `k` of a word that was just written at an aligned address. -/
theorem byteNum_memWrite_word (m : Memory) {a : Word} (ha : a.toNat % 4 = 0) (v : Word) {k : Nat} (hk : k < 4) :
    byteNum (memWrite m a .word v) (a.toNat + k) = v.toNat / 256 ^ (3 - k) % 256 := by
  have h := byteNum_memWrite m a v (n := .word) hk
  simp only [Width.bytes] at h
  rwa [Nat.div_mul_cancel (Nat.dvd_of_mod_eq_zero ha)] at h

/-- The two bytes of half-word `k` of a word that was just written (R66). -/
theorem memRead_half_of_word (m : Memory) {a : Word} (ha : a.toNat % 4 = 0) (v : Word) {x : Word} {k : Nat}
    (hk : k + 1 < 4) (hx : x.toNat / 2 * 2 = a.toNat + k) : (memRead (memWrite m a .word v) x .half).toNat =
      256 * (v.toNat / 256 ^ (3 - k) % 256) + v.toNat / 256 ^ (3 - (k + 1)) % 256 := by
  rw [memRead_half_toNat, hx, Nat.add_assoc, byteNum_memWrite_word m ha v (by omega), byteNum_memWrite_word m ha v hk]

theorem memRead_byte_of_word (m : Memory) {a : Word} (ha : a.toNat % 4 = 0) (v : Word) {x : Word} {k : Nat}
    (hk : k < 4) (hx : x.toNat = a.toNat + k) :
    (memRead (memWrite m a .word v) x .byte).toNat = v.toNat / 256 ^ (3 - k) % 256 := by
  rw [memRead_byte_toNat, hx, byteNum_memWrite_word m ha v hk]

/-- A read of the unit that was just written gives the low bytes of the value. -/
theorem memRead_memWrite_same (m : Memory) (ea v : Word) (n : Width) :
    (memRead (memWrite m ea n v) ea n).toNat = v.toNat % 2 ^ (8 * n.bytes) := by
  have hv := v.isLt
  have hbyte : ∀ k, k < n.bytes → _ := fun k hk => byteNum_memWrite m ea v hk
  cases n <;> simp only [Width.bytes] at hbyte ⊢
  case byte =>
    have h0 := hbyte 0 (by decide)
    rw [memRead_byte_toNat]
    simpa using h0
  case half =>
    have h0 := hbyte 0 (by decide)
    have h1 := hbyte 1 (by decide)
    rw [Nat.add_zero] at h0
    rw [memRead_half_toNat, h0, h1]
    omega
  case word =>
    have h0 := hbyte 0 (by decide)
    have h1 := hbyte 1 (by decide)
    have h2 := hbyte 2 (by decide)
    have h3 := hbyte 3 (by decide)
    rw [Nat.add_zero] at h0
    rw [memRead_word_toNat, h0, h1, h2, h3]
    omega

/-- Settles O28: each narrower read by the bytes of its aligned unit. -/
theorem mixedWidthView : Obligations.MixedWidthView := by
  unfold Obligations.MixedWidthView
  intro m a ha m'
  have hlt := a.isLt
  have hadd : ∀ k < 4, (a + BitVec.ofNat 32 k).toNat = a.toNat + k := by
    intro k hk
    rw [BitVec.toNat_add, BitVec.toNat_ofNat]
    omega
  have h1 : (a + 1#32).toNat = a.toNat + 1 := hadd 1 (by decide)
  have h2 : (a + 2#32).toNat = a.toNat + 2 := hadd 2 (by decide)
  have h3 : (a + 3#32).toNat = a.toNat + 3 := hadd 3 (by decide)
  have hunit : (a + 3#32).toNat / Width.word.bytes = a.toNat / Width.word.bytes := by
    simp only [Width.bytes]
    omega
  refine ⟨?_, ?_, ?_, ?_, ?_, ?_, ?_, ?_⟩ <;> apply BitVec.eq_of_toNat_eq
  · exact memRead_half_of_word m ha _ (k := 0) (by decide) (by omega)
  · exact memRead_half_of_word m ha _ (k := 2) (by decide) (by omega)
  · exact memRead_byte_of_word m ha _ (k := 0) (by decide) rfl
  · exact memRead_byte_of_word m ha _ (by decide) h1
  · exact memRead_byte_of_word m ha _ (by decide) h2
  · exact memRead_byte_of_word m ha _ (by decide) h3
  · exact memRead_half_of_word m ha _ (k := 0) (by decide) (by omega)
  · rw [memRead_congr (alignTo_eq_of_div_eq hunit) (fun _ _ => rfl)]
    exact memRead_memWrite_same m a _ .word

/-! ### The load port -/

/-- The register value of a loaded number `x` of `n` bytes (R67): signed where the load says so. -/
def loadedValue (n : Width) (ext : Extension) (x : Nat) : Word :=
  let top := 2 ^ (8 * n.bytes - 1)
  if ext = .sign then BitVec.ofInt 32 (if x < top then x else x - 2 * top) else BitVec.ofNat 32 x

/-- `signExtend` on numbers: the value less twice the sign bit. -/
theorem signExtend_eq_ofInt {w : Nat} (v : BitVec (w + 1)) :
    v.signExtend 32 = BitVec.ofInt 32 (if v.toNat < 2 ^ w then v.toNat else v.toNat - 2 * 2 ^ w) := by
  rw [BitVec.signExtend, BitVec.toInt_eq_toNat_cond]
  congr 1
  push_cast [Nat.pow_succ]
  split <;> split <;> omega

theorem setWidth_setWidth_eq (v : Word) (w : Nat) :
    (v.setWidth w).setWidth 32 = BitVec.ofNat 32 (v.toNat % 2 ^ w) := by
  apply BitVec.eq_of_toNat_eq
  simp only [BitVec.toNat_setWidth, BitVec.toNat_ofNat]

/-- The extension of the low bits of a word (R67, R134). -/
theorem extend_eq (n : Width) (ext : Extension) (v : Word) :
    extend n ext v = loadedValue n ext (v.toNat % 2 ^ (8 * n.bytes)) := by
  cases n
  case byte =>
    cases ext
    · exact signExtend_eq_ofInt (v.setWidth 8)
    · exact setWidth_setWidth_eq v 8
  case half =>
    cases ext
    · exact signExtend_eq_ofInt (v.setWidth 16)
    · exact setWidth_setWidth_eq v 16
  case word =>
    have hmod : v.toNat % 2 ^ (8 * Width.word.bytes) = v.toNat := Nat.mod_eq_of_lt v.isLt
    rw [hmod]
    cases ext
    · exact (BitVec.signExtend_eq v).symm.trans (signExtend_eq_ofInt v)
    · exact ((BitVec.ofNat_toNat 32 v).trans (BitVec.setWidth_eq v)).symm

/-- A read of `n` bytes fits them. -/
theorem memRead_lt (m : Memory) (ea : Word) (n : Width) : (memRead m ea n).toNat < 2 ^ (8 * n.bytes) := by
  cases n <;> simp only [memRead, BitVec.toNat_setWidth]
  · exact Nat.lt_of_le_of_lt (Nat.mod_le _ _) (BitVec.isLt _)
  · exact Nat.lt_of_le_of_lt (Nat.mod_le _ _) (BitVec.isLt _)
  · exact Nat.lt_of_le_of_lt (Nat.mod_le _ _) (BitVec.isLt _)

theorem loadPort_idle {s : State} (h : (s.ctx s.cur).ms = .idle) : loadPort s = none := by
  simp [loadPort, h]

theorem loadPort_store {s : State} {ea v : Word} {n : Width} (h : (s.ctx s.cur).ms = .store ea n v) :
    loadPort s = none := by
  simp [loadPort, h]

theorem loadPort_imm {s : State} {v : Word} {rd : RegNum} (h : (s.ctx s.cur).ms = .imm v rd) :
    loadPort s = some (rd, v) := by
  simp [loadPort, h]

theorem loadPort_load {s : State} {ea : Word} {n : Width} {ext : Extension} {rd : RegNum}
    (h : (s.ctx s.cur).ms = .load ea n ext rd) : loadPort s = some (rd, extend n ext (memRead s.mem ea n)) := by
  simp [loadPort, h]

theorem extend_memRead (m : Memory) (ea : Word) (n : Width) (ext : Extension) :
    extend n ext (memRead m ea n) = loadedValue n ext (memRead m ea n).toNat := by
  rw [extend_eq, Nat.mod_eq_of_lt (memRead_lt m ea n)]

/-- Settles O29, by what the latch holds. -/
theorem memoryStageWritesTheLoadPort : Obligations.MemoryStageWritesTheLoadPort := by
  unfold Obligations.MemoryStageWritesTheLoadPort
  intro s ea v n ext rd
  refine ⟨loadPort_idle, loadPort_store, loadPort_imm, fun hload => ?_⟩
  rw [loadPort_load hload, extend_memRead]
  rfl

/-! ### The store of a time step -/

theorem memAfter_store {s : State} {ea v : Word} {n : Width} (h : (s.ctx s.cur).ms = .store ea n v) :
    memAfter s = memWrite s.mem ea n v := by
  simp [memAfter, h]

theorem memAfter_of_not_store {s : State} (h : ∀ ea n v, (s.ctx s.cur).ms ≠ .store ea n v) : memAfter s = s.mem := by
  unfold memAfter
  split
  · exact absurd ‹_› (h _ _ _)
  all_goals rfl

/-- Memory after a step is memory after its Memory stage, whatever it computed. -/
theorem mem_of_step {s t : State} (h : step s = .next t) : t.mem = memAfter s := by
  obtain ⟨k, hk, -⟩ := step_runs h
  obtain ⟨-, rfl⟩ := (timeStep_eq_next s k).1 hk
  exact advance_mem s k

/-- Settles O30: memory after a step is memory after its Memory stage, which writes the pending store if there is one. -/
theorem memoryChangesOnlyByThePendingStore : Obligations.MemoryChangesOnlyByThePendingStore := by
  unfold Obligations.MemoryChangesOnlyByThePendingStore
  intro s t hstep a
  rw [mem_of_step hstep]
  refine ⟨fun ea n data hms => ?store, fun hnot => ?none⟩
  case store => rw [memAfter_store hms, byteAt_memWrite]
  case none => rw [memAfter_of_not_store hnot]

/-- A store outside the word at `pc` has none of that word's bytes. -/
theorem pendingStoreByte_of_not_meets {s : State} (h : storeMeetsFetch s = false) {k : Nat} (hk : k < 4) :
    pendingStoreByte s (alignTo .word (s.ctx s.cur).pc + BitVec.ofNat 32 k) = none := by
  unfold pendingStoreByte
  split
  case h_2 => rfl
  case h_1 ea n data hms =>
    refine if_neg ?_
    rintro ⟨hfirst, hlast⟩
    simp only [storeMeetsFetch, hms, beq_eq_false_iff_ne, ne_eq, ← BitVec.toNat_inj, alignTo_toNat_eq_mul] at h
    rw [alignTo_add_toNat .word _ k hk, alignTo_toNat_eq_mul, alignTo_toNat_eq_mul] at hfirst hlast
    cases n <;> simp only [Width.bytes] at h hfirst hlast <;> omega

/-- The word at `pc` is the same before and after a step that stores nothing into it. -/
theorem memRead_memAfter_of_not_meets {s : State} (h : storeMeetsFetch s = false) :
    memRead (memAfter s) (s.ctx s.cur).pc .word = memRead s.mem (s.ctx s.cur).pc .word := by
  refine memRead_congr rfl fun k hk => ?_
  rw [byteAt_memAfter, pendingStoreByte_of_not_meets h hk]
  rfl

/-- Settles O31: the two branches of the fetch; a store elsewhere leaves the word at `pc`. -/
theorem fetchedWordIsOldOrNew : Obligations.FetchedWordIsOldOrNew := by
  unfold Obligations.FetchedWordIsOldOrNew
  intro s old new
  refine ⟨?_, fun h => ⟨fetchedWord_of_not_meets h, memRead_memAfter_of_not_meets h⟩⟩
  unfold fetchedWord
  split
  · exact .inr rfl
  · exact .inl rfl

theorem two_mul_top (n : Width) : 2 * 2 ^ (8 * n.bytes - 1) = 2 ^ (8 * n.bytes) := by cases n <;> rfl

/-- Settles O32: the load reads the unit that the store of its own step wrote. -/
theorem loadRightAfterStoreReadsTheStoredWord : Obligations.LoadRightAfterStoreReadsTheStoredWord := by
  unfold Obligations.LoadRightAfterStoreReadsTheStoredWord
  intro s t ea ea' data n ext rd hstore hstep hcur hload hunit top x
  have hmem : t.mem = memWrite s.mem ea n data := by rw [mem_of_step hstep, memAfter_store hstore]
  have hread : (memRead t.mem ea' n).toNat = x := by
    rw [hmem, memRead_congr (alignTo_eq_of_div_eq hunit) (fun _ _ => rfl), memRead_memWrite_same, ← two_mul_top]
  rw [loadPort_load hload, extend_memRead, hread]
  rfl

end Sys2Proof.Machine

/-! ## RI, RR and RRR: results, flags and frame (R160 to R175, R190 to R202, R210 to R225)

All three families end in one time step with the result of one ALU operation; the lemmas of the first part say what that
step completes with for each kind of result. -/

namespace Sys2Proof.Machine

section Alu
variable {s : State} {rd : RegNum} {n : Nat} {f l : Bool}

theorem completes_adder (hr : Ready s) (hw : MayWrite s rd) (a b : Word) (carry : Bool) :
    Completes s (timeStep s (aluCompute n rd f l (some (adder a b carry)))) (some (rd, Spec.sum a b carry))
      (if f then some (Spec.sumFlags a b carry) else none) .idle false := by
  rw [← adder_r, ← flagsOf_adder a b carry l]
  exact completes_alu hr hw

theorem completes_logic (hr : Ready s) (hw : MayWrite s rd) (r : Word) :
    Completes s (timeStep s (aluCompute n rd f l (some ⟨r, none, false⟩))) (some (rd, r))
      (if f then some (Spec.flags r l false) else none) .idle false := by
  rw [← flagsOf_logic]
  exact completes_alu hr hw

theorem completes_shift (hr : Ready s) (hw : MayWrite s rd) {a b : Word} (k : Bool) (hb : Spec.InShiftRange b) :
    Completes s (timeStep s (aluCompute n rd f l (shift a b k))) (some (rd, Spec.shifted a b k))
      (if f then some (Spec.shiftFlags a b k) else none) .idle false := by
  rw [shift_inRange a b k hb, ← flagsOf_shift a b k l]
  exact completes_alu hr hw

theorem completes_undefined (hr : Ready s) (hw : MayWrite s rd) :
    ∃ v x, Completes s (timeStep s (aluCompute n rd f l none)) (some (rd, v)) (if f then some x else none) .idle false :=
  ⟨_, _, completes_alu_none hr hw⟩

/-- A shift by an amount outside its range. -/
theorem completes_shift_outOfRange (hr : Ready s) (hw : MayWrite s rd) {a b : Word} (k : Bool)
    (hb : ¬ Spec.InShiftRange b) : ∃ v x, Completes s (timeStep s (aluCompute n rd f l (shift a b k))) (some (rd, v))
      (if f then some x else none) .idle false := by
  rw [shift_outOfRange a b k hb]
  exact completes_undefined hr hw

end Alu

/-! ### RI -/

theorem exec_addRI (rd rs1 : RegNum) (f h : Bool) (k : BitVec 16) (s : State) : exec (.addRI rd rs1 f h k) s =
    timeStep s (aluCompute s.tick rd f false (some (adder (s.x rs1) (Spec.halfConst h k) false))) := by
  rw [← riConst_eq]; rfl

theorem exec_addcRI (rd rs1 : RegNum) (f h : Bool) (k : BitVec 16) (s : State) : exec (.addcRI rd rs1 f h k) s =
    timeStep s (aluCompute s.tick rd f false (some (adder (s.x rs1) (Spec.halfConst h k) s.flags.c))) := by
  rw [← riConst_eq]; rfl

theorem exec_subRI (rd rs1 : RegNum) (f h : Bool) (k : BitVec 16) (s : State) : exec (.subRI rd rs1 f h k) s =
    timeStep s (aluCompute s.tick rd f false (some (adder (s.x rs1) (~~~Spec.halfConst h k) true))) := by
  rw [← riConst_eq]; rfl

theorem exec_subbRI (rd rs1 : RegNum) (f h : Bool) (k : BitVec 16) (s : State) : exec (.subbRI rd rs1 f h k) s =
    timeStep s (aluCompute s.tick rd f false (some (adder (s.x rs1) (~~~Spec.halfConst h k) s.flags.c))) := by
  rw [← riConst_eq]; rfl

theorem exec_shRI (rd rs1 : RegNum) (f : Bool) (k : BitVec 16) (s : State) : exec (.shRI rd rs1 f k) s =
    timeStep s (aluCompute s.tick rd f false (shift (s.x rs1) (BitVec.ofInt 32 k.toInt) false)) := by
  rw [← riShiftConst_eq]; rfl

theorem exec_shaRI (rd rs1 : RegNum) (f : Bool) (k : BitVec 16) (s : State) : exec (.shaRI rd rs1 f k) s =
    timeStep s (aluCompute s.tick rd f false (shift (s.x rs1) (BitVec.ofInt 32 k.toInt) true)) := by
  rw [← riShiftConst_eq]; rfl

/-- Settles O33: each row is an addition with its own second addend and carry. -/
theorem riArithmetic : Obligations.RIArithmetic := by
  unfold Obligations.RIArithmetic
  intro p hp s rd rs1 f h k hr hw
  simp only [List.mem_cons, List.not_mem_nil, or_false] at hp
  obtain rfl | rfl | rfl | rfl := hp
  · exact exec_addRI rd rs1 f h k s ▸ completes_adder hr hw _ _ _
  · exact exec_addcRI rd rs1 f h k s ▸ completes_adder hr hw _ _ _
  · exact exec_subRI rd rs1 f h k s ▸ completes_adder hr hw _ _ _
  · exact exec_subbRI rd rs1 f h k s ▸ completes_adder hr hw _ _ _

/-- The immediate amount keeps its value when it is extended (R94). -/
theorem inShiftRange_ofInt (k : BitVec 16) :
    Spec.InShiftRange (BitVec.ofInt 32 k.toInt) ↔ -31 ≤ k.toInt ∧ k.toInt ≤ 31 := by
  have hlo := k.le_toInt
  have hhi := k.toInt_lt
  rw [Spec.InShiftRange, toInt_ofInt_small _ (by omega)]

/-- Settles O35: the amount is in range as a word too. -/
theorem riShiftInRange : Obligations.RIShiftInRange := by
  unfold Obligations.RIShiftInRange
  intro p hp s rd rs1 f k hr hw hlo hhi
  have hb := (inShiftRange_ofInt k).2 ⟨hlo, hhi⟩
  simp only [List.mem_cons, List.not_mem_nil, or_false] at hp
  obtain rfl | rfl := hp
  · exact exec_shRI rd rs1 f k s ▸ completes_shift hr hw false hb
  · exact exec_shaRI rd rs1 f k s ▸ completes_shift hr hw true hb

/-- Settles O36: the amount is out of range as a word too. -/
theorem riShiftOutOfRange : Obligations.RIShiftOutOfRange := by
  unfold Obligations.RIShiftOutOfRange
  intro ctor hctor s rd rs1 f k hr hw hk
  have hb : ¬ Spec.InShiftRange (BitVec.ofInt 32 k.toInt) := by
    rw [inShiftRange_ofInt]
    omega
  simp only [List.mem_cons, List.not_mem_nil, or_false] at hctor
  obtain rfl | rfl := hctor
  · exact exec_shRI rd rs1 f k s ▸ completes_shift_outOfRange hr hw false hb
  · exact exec_shaRI rd rs1 f k s ▸ completes_shift_outOfRange hr hw true hb

/-! ### RR -/

/-- Settles O37: each row is an addition with its own second addend and carry. -/
theorem rrArithmetic : Obligations.RRArithmetic := by
  unfold Obligations.RRArithmetic
  intro p hp s rd rs1 rs2 f j hr hw
  simp only [List.mem_cons, List.not_mem_nil, or_false] at hp
  obtain rfl | rfl | rfl | rfl := hp
  · exact completes_adder hr hw (s.x rs1) (s.x rs2) false
  · exact completes_adder hr hw (s.x rs1) (s.x rs2) s.flags.c
  · exact completes_adder hr hw (s.x rs1) (~~~s.x rs2) true
  · exact completes_adder hr hw (s.x rs1) (~~~s.x rs2) s.flags.c

/-- The field `BBB` of an encoded RR instruction (R95). -/
theorem encodeRR_bbb (rd rs1 : RegNum) (f : Bool) (rs2 : RegNum) (bbb : BitVec 3) (j : BitVec 5) :
    (encodeRR rd rs1 f rs2 bbb j).extractLsb' 8 3 = bbb := by
  obtain ⟨-, -, -, -, -, -, hbbb, -⟩ := fields_encodeRR rd rs1 f rs2 bbb j
  exact hbbb

/-- Settles O38: RR hands the carry of the beginning of the step to the flags of a bitwise result. -/
theorem rrLogicKeepsCarry : Obligations.RRLogicKeepsCarry := by
  unfold Obligations.RRLogicKeepsCarry
  intro p hp s rd rs1 rs2 f j hr hw
  simp only [List.mem_cons, List.not_mem_nil, or_false] at hp
  obtain rfl | rfl | rfl := hp
  · exact ⟨encodeRR_bbb rd rs1 f rs2 4#3 j, completes_logic hr hw (s.x rs1 &&& s.x rs2)⟩
  · exact ⟨encodeRR_bbb rd rs1 f rs2 5#3 j, completes_logic hr hw (s.x rs1 ||| s.x rs2)⟩
  · exact ⟨encodeRR_bbb rd rs1 f rs2 6#3 j, completes_logic hr hw (s.x rs1 ^^^ s.x rs2)⟩

/-- Settles O39: the shifter is in its range. -/
theorem rrShiftInRange : Obligations.RRShiftInRange := by
  unfold Obligations.RRShiftInRange
  intro p hp s rd rs1 rs2 f hr hw hb
  simp only [List.mem_cons, List.not_mem_nil, or_false] at hp
  obtain rfl | rfl := hp
  · exact completes_shift hr hw false hb
  · exact completes_shift hr hw true hb

/-- Settles O40: the shifter is out of its range. -/
theorem rrShiftOutOfRange : Obligations.RRShiftOutOfRange := by
  unfold Obligations.RRShiftOutOfRange
  intro ctor hctor s rd rs1 rs2 f hr hw hb
  simp only [List.mem_cons, List.not_mem_nil, or_false] at hctor
  obtain rfl | rfl := hctor
  · exact completes_shift_outOfRange hr hw false hb
  · exact completes_shift_outOfRange hr hw true hb

/-! ### RRR -/

/-- An RRR whose destination is allowed is the time step of its result. -/
theorem rrrStep_eq {s : State} {rd : RegNum} (hd : MayUseRd s rd) (op2 : AluOp) (op1 : Op1) (rs1 : RegNum) (f : Bool)
    (rs2 rs3 : RegNum) : rrrStep op2 op1 rd rs1 f rs2 rs3 s =
      timeStep s (aluCompute s.tick rd f (rrrLogicCarry s)
        (rrrResult op2 op1 (s.x rs1) (s.x rs2) (s.x rs3) s.flags.c)) := by
  rw [rrrStep, rdRefused_eq_false hd]
  rfl

/-- The result of RRR over a defined first operation is the second operation's (R210). -/
theorem rrrResult_defined (op2 : AluOp) {op1 : Op1} (a b : Word) {c : Word} (carry : Bool)
    (h : op1 = .sha → Spec.InShiftRange c) :
    rrrResult op2 op1 a b c carry = aluOp op2 a (Spec.firstOp op1 b c carry) carry := by
  obtain ⟨t, ht, hr⟩ := Option.map_eq_some_iff.1 (aluOp_opOfOp1 op1 b c carry h)
  rw [rrrResult, ht, ← hr]

/-- The result of RRR over an undefined first operation is undefined (R216). -/
theorem rrrResult_undefined (op2 : AluOp) (a b : Word) {c : Word} (carry : Bool) (h : ¬ Spec.InShiftRange c) :
    rrrResult op2 .sha a b c carry = none := by
  have hsha : aluOp (opOfOp1 .sha) b c carry = none := shift_outOfRange b c true h
  rw [rrrResult, hsha]

/-- RRR over a defined first operation completes as the time step of its second one does. -/
theorem rrrStep_completes {s : State} {rd rs1 rs2 rs3 : RegNum} {f : Bool} {op2 : AluOp} {op1 : Op1}
    {cw : Option (RegNum × Word)} {fl : Option Flags} (hd : MayUseRd s rd)
    (hdef : op1 = .sha → Spec.InShiftRange (s.x rs3))
    (h : Completes s (timeStep s (aluCompute s.tick rd f (rrrLogicCarry s)
      (aluOp op2 (s.x rs1) (Spec.firstOp op1 (s.x rs2) (s.x rs3) s.flags.c) s.flags.c))) cw fl .idle false) :
    Completes s (rrrStep op2 op1 rd rs1 f rs2 rs3 s) cw fl .idle false := by
  rw [rrrStep_eq hd, rrrResult_defined op2 _ _ _ hdef]
  exact h

/-- Settles O42: each row is an addition with its own second addend and carry. -/
theorem rrrArithmetic : Obligations.RRRArithmetic := by
  unfold Obligations.RRRArithmetic
  intro p hp s rd rs1 rs2 rs3 f op1 hr hd hw hdef
  simp only [List.mem_cons, List.not_mem_nil, or_false] at hp
  obtain rfl | rfl | rfl | rfl := hp
  · exact rrrStep_completes (op2 := .add) hd hdef (completes_adder hr hw _ _ _)
  · exact rrrStep_completes (op2 := .addc) hd hdef (completes_adder hr hw _ _ _)
  · exact rrrStep_completes (op2 := .sub) hd hdef (completes_adder hr hw _ _ _)
  · exact rrrStep_completes (op2 := .subb) hd hdef (completes_adder hr hw _ _ _)

/-- `C` after a bitwise RRR, by the parameter `RRR_LOGIC_C` (R214). -/
theorem rrrLogicCarry_eq (s : State) : rrrLogicCarry s = (s.params.rrrLogicC == .unchanged && s.flags.c) := by
  unfold rrrLogicCarry
  cases s.params.rrrLogicC <;> simp

/-- Settles O43: each row is a bitwise result, its carry that of the parameter. -/
theorem rrrLogic : Obligations.RRRLogic := by
  unfold Obligations.RRRLogic
  intro p hp s rd rs1 rs2 rs3 f op1 hr hd hw hdef
  rw [← rrrLogicCarry_eq]
  simp only [List.mem_cons, List.not_mem_nil, or_false] at hp
  obtain rfl | rfl | rfl := hp
  · exact rrrStep_completes (op2 := .and) hd hdef (completes_logic hr hw _)
  · exact rrrStep_completes (op2 := .or) hd hdef (completes_logic hr hw _)
  · exact rrrStep_completes (op2 := .xor) hd hdef (completes_logic hr hw _)

/-- Settles O44: the second operation is a shift in its range. -/
theorem rrrShiftInRange : Obligations.RRRShiftInRange := by
  unfold Obligations.RRRShiftInRange
  intro p hp s rd rs1 rs2 rs3 f op1 hr hd hw hdef amount hamount
  simp only [List.mem_cons, List.not_mem_nil, or_false] at hp
  obtain rfl | rfl := hp
  · exact rrrStep_completes (op2 := .sh) hd hdef (completes_shift hr hw false hamount)
  · exact rrrStep_completes (op2 := .sha) hd hdef (completes_shift hr hw true hamount)

/-- RRR with an undefined first operation has free results, whatever its second one is. -/
theorem rrrStep_undefined {s : State} {rd rs3 : RegNum} (hr : Ready s) (hd : MayUseRd s rd) (hw : MayWrite s rd)
    (h : ¬ Spec.InShiftRange (s.x rs3)) (op2 : AluOp) (rs1 : RegNum) (f : Bool) (rs2 : RegNum) :
    ∃ v x, Completes s (rrrStep op2 .sha rd rs1 f rs2 rs3 s) (some (rd, v)) (if f then some x else none) .idle
      false := by
  rw [rrrStep_eq hd, rrrResult_undefined op2 _ _ _ h]
  exact completes_undefined hr hw

/-- Settles O45: the first operation has no result, or the second is a shift out of its range. -/
theorem rrrShiftOutOfRange : Obligations.RRRShiftOutOfRange := by
  unfold Obligations.RRRShiftOutOfRange
  intro s rd rs1 rs2 rs3 f hr hd hw
  refine ⟨fun h3 ctor hctor => ?first, fun op1 hdef hamount ctor hctor => ?second⟩
  case first =>
    have hstep := fun op2 => rrrStep_undefined hr hd hw h3 op2 rs1 f rs2
    simp only [List.mem_cons, List.not_mem_nil, or_false] at hctor
    obtain rfl | rfl | rfl | rfl | rfl | rfl | rfl | rfl | rfl := hctor
    all_goals exact hstep _
  case second =>
    simp only [List.mem_cons, List.not_mem_nil, or_false] at hctor
    obtain rfl | rfl := hctor
    · obtain ⟨v, x, h⟩ := completes_shift_outOfRange hr hw false hamount
      exact ⟨v, x, rrrStep_completes (op2 := .sh) hd hdef h⟩
    · obtain ⟨v, x, h⟩ := completes_shift_outOfRange hr hw true hamount
      exact ⟨v, x, rrrStep_completes (op2 := .sha) hd hdef h⟩

end Sys2Proof.Machine

/-! ## Loads and stores: RM, RRM, SLS, SLI and SPLS (R240 to R276, R321 to R335) -/

namespace Sys2Proof.Machine

section Modes
variable {s : State} {rd rs1 : RegNum} {sum : Word} {o : Option Word} {n : Width} {ext : Extension}

/-- A load whose sum is known to be `sum`, in all four modes. -/
theorem load_inFourModes (hr : Ready s) (hd : MayUseRd s rd) (ho : o = some sum) :
    CompletesInFourModes s rs1 sum (fun m => loadStep rd rs1 m o n ext s) (fun ea => .load ea n ext rd) := by
  subst ho
  exact loadStep_completes hr hd

/-- A store whose sum is known to be `sum`, in all four modes. -/
theorem store_inFourModes (hr : Ready s) (hd : MayUseRd s rd) (ho : o = some sum) :
    CompletesInFourModes s rs1 sum (fun m => storeStep rd rs1 m o n s) (fun ea => .store ea n (s.x rd)) := by
  subst ho
  exact storeStep_completes hr hd

end Modes

/-! ### The sums -/

theorem rmSum_eq (rs1 : RegNum) (k : BitVec 16) (s : State) :
    rmSum rs1 k s = some (BitVec.ofInt 32 ((s.x rs1).toNat + k.toInt)) := congrArg some (add_signExtend _ k)

theorem splsSum_eq (rs1 : RegNum) (k : BitVec 10) (s : State) :
    splsSum rs1 k s = some (BitVec.ofInt 32 ((s.x rs1).toNat + k.toInt)) := congrArg some (add_signExtend _ k)

section Sums
variable (rs1 rs2 : RegNum) (s : State)

theorem rrmSum_add : rrmSum .add rs1 rs2 s = some (Spec.sum (s.x rs1) (s.x rs2) false) :=
  congrArg some (adder_r _ _ _)
theorem rrmSum_addc : rrmSum .addc rs1 rs2 s = some (Spec.sum (s.x rs1) (s.x rs2) s.flags.c) :=
  congrArg some (adder_r _ _ _)
theorem rrmSum_sub : rrmSum .sub rs1 rs2 s = some (Spec.sum (s.x rs1) (~~~s.x rs2) true) :=
  congrArg some (adder_r _ _ _)
theorem rrmSum_subb : rrmSum .subb rs1 rs2 s = some (Spec.sum (s.x rs1) (~~~s.x rs2) s.flags.c) :=
  congrArg some (adder_r _ _ _)
theorem rrmSum_and : rrmSum .and rs1 rs2 s = some (s.x rs1 &&& s.x rs2) := rfl
theorem rrmSum_or : rrmSum .or rs1 rs2 s = some (s.x rs1 ||| s.x rs2) := rfl
theorem rrmSum_xor : rrmSum .xor rs1 rs2 s = some (s.x rs1 ^^^ s.x rs2) := rfl

variable {rs2 s}

theorem rrmSum_sh_inRange (h : Spec.InShiftRange (s.x rs2)) :
    rrmSum .sh rs1 rs2 s = some (Spec.shifted (s.x rs1) (s.x rs2) false) :=
  congrArg (Option.map AluResult.r) (shift_inRange (s.x rs1) (s.x rs2) false h)
theorem rrmSum_sha_inRange (h : Spec.InShiftRange (s.x rs2)) :
    rrmSum .sha rs1 rs2 s = some (Spec.shifted (s.x rs1) (s.x rs2) true) :=
  congrArg (Option.map AluResult.r) (shift_inRange (s.x rs1) (s.x rs2) true h)
theorem rrmSum_sh_outOfRange (h : ¬ Spec.InShiftRange (s.x rs2)) : rrmSum .sh rs1 rs2 s = none :=
  congrArg (Option.map AluResult.r) (shift_outOfRange (s.x rs1) (s.x rs2) false h)
theorem rrmSum_sha_outOfRange (h : ¬ Spec.InShiftRange (s.x rs2)) : rrmSum .sha rs1 rs2 s = none :=
  congrArg (Option.map AluResult.r) (shift_outOfRange (s.x rs1) (s.x rs2) true h)

end Sums

/-! ### RM and SPLS -/

/-- Settles O46: both instructions at the sum of R241. -/
theorem rmLoadsAndStores : Obligations.RMLoadsAndStores := by
  unfold Obligations.RMLoadsAndStores
  intro s rd rs1 k hr hd sum
  exact ⟨load_inFourModes hr hd (rmSum_eq rs1 k s), store_inFourModes hr hd (rmSum_eq rs1 k s)⟩

/-- Settles O54: the six instructions at one sum. -/
theorem splsLoadsAndStores : Obligations.SPLSLoadsAndStores := by
  unfold Obligations.SPLSLoadsAndStores
  intro s rd rs1 k e hr hd sum
  have hsum := splsSum_eq rs1 k s
  exact ⟨load_inFourModes hr hd hsum, load_inFourModes hr hd hsum, load_inFourModes hr hd hsum,
    load_inFourModes hr hd hsum, store_inFourModes hr hd hsum, store_inFourModes hr hd hsum⟩

/-! ### RRM -/

/-- Settles O47: each row is a load at its own sum. -/
theorem rrmWordLoads : Obligations.RRMWordLoads := by
  unfold Obligations.RRMWordLoads
  intro p hp s rd rs1 rs2 j e hr hd
  simp only [List.mem_cons, List.not_mem_nil, or_false] at hp
  obtain rfl | rfl | rfl | rfl | rfl | rfl | rfl := hp
  · exact load_inFourModes hr hd (rrmSum_add rs1 rs2 s)
  · exact load_inFourModes hr hd (rrmSum_addc rs1 rs2 s)
  · exact load_inFourModes hr hd (rrmSum_sub rs1 rs2 s)
  · exact load_inFourModes hr hd (rrmSum_subb rs1 rs2 s)
  · exact load_inFourModes hr hd (rrmSum_and rs1 rs2 s)
  · exact load_inFourModes hr hd (rrmSum_or rs1 rs2 s)
  · exact load_inFourModes hr hd (rrmSum_xor rs1 rs2 s)

/-- The four part-word loads at one sum. -/
theorem partWordLoads {s : State} {rd rs1 : RegNum} {o : Option Word} {sum : Word} (hr : Ready s) (hd : MayUseRd s rd)
    (ho : o = some sum) :
    CompletesInFourModes s rs1 sum (fun m => loadStep rd rs1 m o .half .sign s) (fun ea => .load ea .half .sign rd) ∧
    CompletesInFourModes s rs1 sum (fun m => loadStep rd rs1 m o .half .zero s) (fun ea => .load ea .half .zero rd) ∧
    CompletesInFourModes s rs1 sum (fun m => loadStep rd rs1 m o .byte .sign s) (fun ea => .load ea .byte .sign rd) ∧
    CompletesInFourModes s rs1 sum (fun m => loadStep rd rs1 m o .byte .zero s) (fun ea => .load ea .byte .zero rd) :=
  ⟨load_inFourModes hr hd ho, load_inFourModes hr hd ho, load_inFourModes hr hd ho, load_inFourModes hr hd ho⟩

/-- Settles O48: each row is the part-word loads at its own sum. -/
theorem rrmPartWordLoads : Obligations.RRMPartWordLoads := by
  unfold Obligations.RRMPartWordLoads
  intro p hp s rd rs1 rs2 j hr hd
  simp only [List.mem_cons, List.not_mem_nil, or_false] at hp
  obtain rfl | rfl | rfl | rfl | rfl | rfl | rfl := hp
  · exact partWordLoads hr hd (rrmSum_add rs1 rs2 s)
  · exact partWordLoads hr hd (rrmSum_addc rs1 rs2 s)
  · exact partWordLoads hr hd (rrmSum_sub rs1 rs2 s)
  · exact partWordLoads hr hd (rrmSum_subb rs1 rs2 s)
  · exact partWordLoads hr hd (rrmSum_and rs1 rs2 s)
  · exact partWordLoads hr hd (rrmSum_or rs1 rs2 s)
  · exact partWordLoads hr hd (rrmSum_xor rs1 rs2 s)

/-- The stores of the three widths at one sum. -/
theorem storesOfAllWidths {s : State} {rd rs1 : RegNum} {o : Option Word} {sum : Word} (hr : Ready s)
    (hd : MayUseRd s rd) (ho : o = some sum) :
    CompletesInFourModes s rs1 sum (fun m => storeStep rd rs1 m o .word s) (fun ea => .store ea .word (s.x rd)) ∧
    CompletesInFourModes s rs1 sum (fun m => storeStep rd rs1 m o .half s) (fun ea => .store ea .half (s.x rd)) ∧
    CompletesInFourModes s rs1 sum (fun m => storeStep rd rs1 m o .byte s) (fun ea => .store ea .byte (s.x rd)) :=
  ⟨store_inFourModes hr hd ho, store_inFourModes hr hd ho, store_inFourModes hr hd ho⟩

/-- Settles O49: each row is the stores at its own sum. -/
theorem rrmStores : Obligations.RRMStores := by
  unfold Obligations.RRMStores
  intro p hp s rd rs1 rs2 j e hr hd
  simp only [List.mem_cons, List.not_mem_nil, or_false] at hp
  obtain rfl | rfl | rfl | rfl | rfl | rfl | rfl := hp
  · exact storesOfAllWidths hr hd (rrmSum_add rs1 rs2 s)
  · exact storesOfAllWidths hr hd (rrmSum_addc rs1 rs2 s)
  · exact storesOfAllWidths hr hd (rrmSum_sub rs1 rs2 s)
  · exact storesOfAllWidths hr hd (rrmSum_subb rs1 rs2 s)
  · exact storesOfAllWidths hr hd (rrmSum_and rs1 rs2 s)
  · exact storesOfAllWidths hr hd (rrmSum_or rs1 rs2 s)
  · exact storesOfAllWidths hr hd (rrmSum_xor rs1 rs2 s)

/-- Settles O50: the shift gives the sum. -/
theorem rrmShiftInRange : Obligations.RRMShiftInRange := by
  unfold Obligations.RRMShiftInRange
  intro p hp s rd rs1 rs2 y hr hd hb
  have hsh := rrmSum_sh_inRange rs1 hb
  have hsha := rrmSum_sha_inRange rs1 hb
  simp only [List.mem_cons, List.not_mem_nil, or_false] at hp
  obtain rfl | rfl := hp
  · exact ⟨load_inFourModes hr hd hsh, store_inFourModes hr hd hsh⟩
  · exact ⟨load_inFourModes hr hd hsha, store_inFourModes hr hd hsha⟩

/-- Without a sum: the mode that does not use it runs, the other three are refused (R276). -/
theorem load_withoutSum {s : State} {rd : RegNum} {o : Option Word} (hd : MayUseRd s rd) (ho : o = none) (rs1 : RegNum)
    (n : Width) (ext : Extension) :
    (Ready s → Completes s (loadStep rd rs1 .base o n ext s) none none (.load (s.x rs1) n ext rd) false) ∧
      ∀ m : AddrMode, m ≠ .base → loadStep rd rs1 m o n ext s = .refused .unspecifiedAddress := by
  have hrd := rdRefused_eq_false hd
  subst ho
  refine ⟨fun hr => ?_, fun m hm => ?_⟩
  · simp only [loadStep, hrd, addressUnspecified]
    exact completes_mem hr (fun _ _ h => by cases h)
  · simp [loadStep, hrd, addressUnspecified, hm]

theorem store_withoutSum {s : State} {rd : RegNum} {o : Option Word} (hd : MayUseRd s rd) (ho : o = none)
    (rs1 : RegNum) (n : Width) :
    (Ready s → Completes s (storeStep rd rs1 .base o n s) none none (.store (s.x rs1) n (s.x rd)) false) ∧
      ∀ m : AddrMode, m ≠ .base → storeStep rd rs1 m o n s = .refused .unspecifiedAddress := by
  have hrd := rdRefused_eq_false hd
  subst ho
  refine ⟨fun hr => ?_, fun m hm => ?_⟩
  · simp only [storeStep, hrd, addressUnspecified]
    exact completes_mem hr (fun _ _ h => by cases h)
  · simp [storeStep, hrd, addressUnspecified, hm]

/-- Settles O51: the shift gives no sum. -/
theorem rrmShiftOutOfRange : Obligations.RRMShiftOutOfRange := by
  unfold Obligations.RRMShiftOutOfRange
  intro p hp s rd rs1 rs2 y hd hb
  have hsh := rrmSum_sh_outOfRange rs1 hb
  have hsha := rrmSum_sha_outOfRange rs1 hb
  simp only [List.mem_cons, List.not_mem_nil, or_false] at hp
  obtain rfl | rfl := hp
  · obtain ⟨hload, hloadRefused⟩ := load_withoutSum hd hsh rs1 .word .sign
    obtain ⟨hstore, hstoreRefused⟩ := store_withoutSum hd hsh rs1 .word
    exact ⟨fun hr => ⟨hload hr, hstore hr⟩, fun m hm => ⟨hloadRefused m hm, hstoreRefused m hm⟩⟩
  · obtain ⟨hload, hloadRefused⟩ := load_withoutSum hd hsha rs1 .word .sign
    obtain ⟨hstore, hstoreRefused⟩ := store_withoutSum hd hsha rs1 .word
    exact ⟨fun hr => ⟨hload hr, hstore hr⟩, fun m hm => ⟨hloadRefused m hm, hstoreRefused m hm⟩⟩

/-! ### SLS and SLI -/

/-- A step that writes no register itself and leaves `ms` for the Memory stage. -/
theorem completes_leaving {s : State} {ms : MemOp} (hr : Ready s) :
    Completes s (timeStep s (memCompute none ms)) none none ms false :=
  completes_mem hr (fun _ _ h => by cases h)

/-- Settles O52: no base update, and the zero-extended address. -/
theorem slsLoadAndStore : Obligations.SLSLoadAndStore := by
  unfold Obligations.SLSLoadAndStore
  intro s rd a hr hd
  have hrd : ¬ rdRefused s.params rd = true := by simp [rdRefused_eq_false hd]
  have hload : exec (.ldSLS rd a) s = timeStep s (memCompute none (.load (slsAddr a) .word .sign rd)) := if_neg hrd
  have hstore : exec (.stSLS rd a) s = timeStep s (memCompute none (.store (slsAddr a) .word (s.x rd))) := if_neg hrd
  rw [BitVec.ofNat_toNat, hload, hstore]
  exact ⟨completes_leaving hr, completes_leaving hr⟩

/-- Settles O53: the constant is left for the load port. -/
theorem sliDelayedWrite : Obligations.SLIDelayedWrite := by
  unfold Obligations.SLIDelayedWrite
  intro s rd k hr
  have hexec : exec (.movSLI rd k) s = timeStep s (memCompute none (.imm (k.setWidth 32) rd)) := rfl
  rw [BitVec.ofNat_toNat, hexec]
  exact completes_leaving hr

/-! ### The restricted destinations -/

theorem rdRefused_eq_true {p : Params} {rd : RegNum} (hrd : rd = 2#5 ∨ rd = 31#5) (hp : p.rdRestriction = .refuse) :
    rdRefused p rd = true := by
  obtain rfl | rfl := hrd <;> simp [rdRefused, hp]

/-- Settles O56: RRR, loads and stores ask `rdRefused` before anything else; no other format has a restricted `Rd`. -/
theorem restrictedDestinationIsRefused : Obligations.RestrictedDestinationIsRefused := by
  unfold Obligations.RestrictedDestinationIsRefused
  intro i s rd hi hrd hp
  have hrefused : ∀ r, some r = some rd → rdRefused s.params r = true := by
    intro r hr
    rw [Option.some.inj hr]
    exact rdRefused_eq_true hrd hp
  cases i
  case putAdd | putAddc | putSub | putSubb | putAnd | putOr | putXor | putSh | putSha
      | ldRM | ldAddRRM | ldAddcRRM | ldSubRRM | ldSubbRRM | ldAndRRM | ldOrRRM | ldXorRRM | ldhAddRRM
      | ldhAddcRRM | ldhSubRRM | ldhSubbRRM | ldhAndRRM | ldhOrRRM | ldhXorRRM | uldhAddRRM | uldhAddcRRM
      | uldhSubRRM | uldhSubbRRM | uldhAndRRM | uldhOrRRM | uldhXorRRM | ldbAddRRM | ldbAddcRRM | ldbSubRRM
      | ldbSubbRRM | ldbAndRRM | ldbOrRRM | ldbXorRRM | uldbAddRRM | uldbAddcRRM | uldbSubRRM | uldbSubbRRM
      | uldbAndRRM | uldbOrRRM | uldbXorRRM | ldShRRM | ldShaRRM | ldhSPLS | uldhSPLS | ldbSPLS | uldbSPLS
      | stRM | stAddRRM | stAddcRRM | stSubRRM | stSubbRRM | stAndRRM | stOrRRM | stXorRRM | sthAddRRM
      | sthAddcRRM | sthSubRRM | sthSubbRRM | sthAndRRM | sthOrRRM | sthXorRRM | stbAddRRM | stbAddcRRM
      | stbSubRRM | stbSubbRRM | stbAndRRM | stbOrRRM | stbXorRRM | stShRRM | stShaRRM | sthSPLS | stbSPLS
      | ldSLS | stSLS =>
    exact if_pos (hrefused _ hi)
  all_goals cases hi

end Sys2Proof.Machine

/-! ## What the next step sees: shadows, and the branch after a subtraction (R161, R246, R292) -/

namespace Sys2Proof.Machine

/-! ### The load shadow -/

/-- Where the compute port does not write the register, the load port's value lands. -/
theorem lands_load_of_ne {cw : Option (RegNum × Word)} {r : RegNum} {v : Word} (h : ∀ u, cw ≠ some (r, u)) :
    lands cw (some (r, v)) r = some v := by
  rcases cw with _ | ⟨i, u⟩
  · rw [lands_none_some, if_pos rfl]
  · have hi : i ≠ r := by
      rintro rfl
      exact h u rfl
    rw [lands_some, if_neg hi, lands_none_some, if_pos rfl]

theorem lands_compute (r : RegNum) (v : Word) (lw : Option (RegNum × Word)) : lands (some (r, v)) lw r = some v := by
  rw [lands_some, if_pos rfl]

/-- A latched instruction that names a register other than `pc` writes it. -/
theorem LatchProduces.writes {s : State} {k : Compute} (h : LatchProduces s k) {i : Instr} {r : RegNum}
    (hi : s.computes i) (hr : i.computeDest = some r) (h2 : r ≠ 2#5) : ∃ v, k.cw = some (r, v) := by
  obtain ⟨w, hl, hd⟩ := hi
  obtain ⟨hbubble, -⟩ | ⟨j, hj, hp⟩ := h
  · rw [hl] at hbubble
    cases hbubble
  · obtain rfl := (State.computes_iff hl hd).1 hj
    exact (hp.always r hr).resolve_left h2

/-- Settles O55: the load's own step leaves the register, the next step's load port writes it, and a compute port of that
step that names it overrides the load port, with and without the load. -/
theorem loadHasOneShadow : Obligations.LoadHasOneShadow := by
  unfold Obligations.LoadHasOneShadow
  intro s t ea n ext rd h4 h27 hst hcur hload
  have hport := loadPort_load hload
  obtain ⟨k, hk, hp⟩ := step_runs hst
  refine ⟨fun hn => ?shadow, fun u htu => ⟨fun hdest => ?loaded, fun hdest u' htu' => ?overridden⟩⟩
  case shadow =>
    rw [State.x, State.x, hcur, (timeStep_effect hk).general rd h4 h27, lands_eq_none hp hn]
    rfl
  case loaded =>
    obtain ⟨k', hk', hp'⟩ := step_runs htu
    have hcw : ∀ v, k'.cw ≠ some (rd, v) := fun v hv => by
      obtain ⟨i, hi, hrd⟩ := hp'.names hv
      exact hdest i hi hrd
    have hread : readReg u t.cur rd = extend n ext (memRead t.mem ea n) := by
      rw [(timeStep_effect hk').general rd h4 h27, hport, lands_load_of_ne hcw]
      rfl
    refine ⟨hread ▸ hport, ?_⟩
    rintro rfl
    exact hread
  case overridden =>
    obtain ⟨i, hi, hrd⟩ := hdest
    obtain ⟨hr0, hr1, hr2, -⟩ := general_ne ⟨h4, h27⟩
    obtain ⟨r, hrefused, -⟩ | ⟨k', hp', hk', hk''⟩ := step_cases t
    · rw [hrefused] at htu
      cases htu
    · obtain ⟨v, hv⟩ := hp'.writes hi hrd hr2
      have hwith := (timeStep_effect (hk' ▸ htu)).general rd h4 h27
      have hwithout := (timeStep_effect (hk'' ▸ htu')).general rd h4 h27
      rw [hv, lands_compute] at hwith hwithout
      rw [withoutPending_cur] at hwithout
      exact hwith.trans hwithout.symm

/-! ### Branches -/

/-- What a branch did: the write of `pc` where the condition held. -/
theorem branchStep_effect {s t : State} {d : Cond} {target : Word} (h : branchStep d target s = .next t) :
    Effect s t (if d.holds s.flags then some (2#5, target) else none) none .idle false :=
  timeStep_effect h

/-- The code of a condition means the condition (R103). -/
theorem condition_code (d : Cond) (x : Flags) : Spec.condition d.code.toNat x = d.holds x := by
  cases d <;> rfl

/-- Reading a word ignores the two low bits of the address, which a program counter drops (R25, R64). -/
theorem memRead_pcValue (m : Memory) (a : Word) : memRead m (pcValue a) .word = memRead m a .word := by
  have halign : alignTo .word (pcValue a) = alignTo .word a := by
    simp only [alignTo, pcValue, BitVec.and_assoc, BitVec.and_self]
  exact memRead_congr halign (fun _ _ => rfl)

/-- With nothing pending the fetch meets no store. -/
theorem storeMeetsFetch_of_idle {s : State} (h : (s.ctx s.cur).ms = .idle) : storeMeetsFetch s = false := by
  simp [storeMeetsFetch, h]

/-- A taken branch redirects the fetch of the next step and no more (R292). -/
theorem taken_branch_shadow {s t u : State} {d : Cond} {target : Word} (htaken : d.holds s.flags = true)
    (hst : branchStep d target s = .next t) (hcur : t.cur = s.cur) (htu : step t = .next u) :
    (t.ctx t.cur).ir = .word (fetchedWord s) ∧ (t.ctx t.cur).pc = pcValue target ∧
      (u.ctx t.cur).ir = .word (fetchedWord t) ∧ fetchedWord t = memRead t.mem target .word := by
  have heff := branchStep_effect hst
  rw [htaken, if_pos rfl] at heff
  obtain ⟨k, hk, -⟩ := step_runs htu
  have hpc : (t.ctx t.cur).pc = pcValue target := by
    rw [hcur, heff.pc, lands_compute]
    rfl
  have hms : (t.ctx t.cur).ms = .idle := by rw [hcur, heff.ms]
  refine ⟨by rw [hcur, heff.ir], hpc, (timeStep_effect hk).ir, ?_⟩
  rw [fetchedWord_of_not_meets (storeMeetsFetch_of_idle hms), hpc, memRead_pcValue]

/-- Settles O59: every BR and every SBR is the branch of its condition. -/
theorem branchHasOneShadow : Obligations.BranchHasOneShadow := by
  unfold Obligations.BranchHasOneShadow
  intro s oneShadow
  change (∀ br ∈ Cond.inCodeOrder.map Cond.br, _) ∧ ∀ sbr ∈ Cond.inCodeOrder.map Cond.sbr, _
  refine ⟨fun br hbr k r => ?br, fun sbr hsbr rs1 rs3 => ?sbr⟩
  case br =>
    obtain ⟨d, -, rfl⟩ := List.mem_map.1 hbr
    intro hcond t u hst hcur htu
    rw [encode_br, condCode_encodeBR, condition_code] at hcond
    rw [exec_br, brStep, brTarget_eq] at hst
    exact taken_branch_shadow hcond hst hcur htu
  case sbr =>
    obtain ⟨d, -, rfl⟩ := List.mem_map.1 hsbr
    intro hcond t u hst hcur htu
    rw [encode_sbr, condCode_encodeSBR, condition_code] at hcond
    rw [exec_sbr, sbrStep, add_eq_sum] at hst
    exact taken_branch_shadow hcond hst hcur htu

/-! ### The flags of a subtraction (R161, R441) -/

section Subtraction
variable (a b : Word)

theorem not_toNat : (~~~b).toNat = 2 ^ 32 - 1 - b.toNat := BitVec.toNat_not

/-- `C` of a subtraction: no borrow. -/
theorem subFlags_c : (Spec.sumFlags a (~~~b) true).c = decide (b.toNat ≤ a.toNat) := by
  have hb := b.isLt
  simp only [Spec.sumFlags, Spec.flags, not_toNat, Bool.toNat_true, decide_eq_decide]
  omega

/-- `Z` of a subtraction: the operands are equal. -/
theorem subFlags_z : (Spec.sumFlags a (~~~b) true).z = decide (a = b) := by
  have ha := a.isLt
  have hb := b.isLt
  simp only [Spec.sumFlags, Spec.flags, Spec.sum, not_toNat, Bool.toNat_true, decide_eq_decide, BitVec.toNat_ofNat,
    ← BitVec.toNat_inj]
  omega

/-- `N` and `V` of a subtraction agree exactly where the first operand is not less, as signed numbers (D4). -/
theorem subFlags_n_eq_v : ((Spec.sumFlags a (~~~b) true).n == (Spec.sumFlags a (~~~b) true).v) =
    decide (b.toInt ≤ a.toInt) := by
  have ha := a.isLt
  have hb := b.isLt
  rw [Bool.eq_iff_iff]
  simp only [Spec.sumFlags, Spec.flags, Spec.sum, beq_iff_eq, decide_eq_decide, decide_eq_true_eq, BitVec.toNat_ofNat,
    BitVec.toInt_eq_toNat_cond, not_toNat, Bool.toNat_true]
  (repeat' split) <;> omega

/-! Each condition after a subtraction compares the two operands. -/

theorem formula_sub_unsigned (x : Flags) (hx : x = Spec.sumFlags a (~~~b) true) :
    Cond.formula .hi x = decide (b.toNat < a.toNat) ∧ Cond.formula .ls x = decide (a.toNat ≤ b.toNat) ∧
      Cond.formula .cc x = decide (a.toNat < b.toNat) ∧ Cond.formula .cs x = decide (b.toNat ≤ a.toNat) := by
  have hc := subFlags_c a b
  have hz := subFlags_z a b
  rw [← hx] at hc hz
  simp only [← BitVec.toNat_inj] at hz
  refine ⟨?_, ?_, ?_, ?_⟩ <;> rw [Bool.eq_iff_iff] <;>
    simp only [Cond.formula, hc, hz, Bool.and_eq_true, Bool.or_eq_true, Bool.not_eq_true', decide_eq_true_eq,
      decide_eq_false_iff_not] <;> omega

theorem formula_sub_equality (x : Flags) (hx : x = Spec.sumFlags a (~~~b) true) :
    Cond.formula .eq x = decide (a = b) ∧ Cond.formula .ne x = decide (a ≠ b) := by
  have hz := subFlags_z a b
  rw [← hx] at hz
  exact ⟨hz, (congrArg Bool.not hz).trans decide_not.symm⟩

theorem formula_sub_signed (x : Flags) (hx : x = Spec.sumFlags a (~~~b) true) :
    Cond.formula .ge x = decide (b.toInt ≤ a.toInt) ∧ Cond.formula .lt x = decide (a.toInt < b.toInt) ∧
      Cond.formula .gt x = decide (b.toInt < a.toInt) ∧ Cond.formula .le x = decide (a.toInt ≤ b.toInt) := by
  have hnv := subFlags_n_eq_v a b
  have hz := subFlags_z a b
  rw [← hx] at hnv hz
  simp only [← BitVec.toInt_inj] at hz
  refine ⟨?_, ?_, ?_, ?_⟩ <;> rw [Bool.eq_iff_iff] <;>
    simp only [Cond.formula, bne, hnv, hz, Bool.and_eq_true, Bool.or_eq_true, Bool.not_eq_true', decide_eq_true_eq,
      decide_eq_false_iff_not] <;> omega

end Subtraction

/-- A BR right behind `sub.f Rs1, Rs2, r0` branches on the flags of that subtraction. -/
theorem branch_after_subtraction {s t u : State} {rs1 rs2 : RegNum} {j : BitVec 5} {k : BitVec 23} {r : Bool} {d : Cond}
    {holds : Bool} (hst : exec (.subRR 0#5 rs1 true rs2 j) s = .next t) (hcur : t.cur = s.cur)
    (htu : exec (d.br k r) t = .next u)
    (hd : d.formula (Spec.sumFlags (s.x rs1) (~~~s.x rs2) true) = holds) :
    (u.ctx t.cur).pc = if holds then pcValue (Spec.branchTarget t k r) else (t.ctx t.cur).pc + 4#32 := by
  have hsub : exec (.subRR 0#5 rs1 true rs2 j) s =
      timeStep s (aluCompute s.tick 0#5 true s.flags.c (some (adder (s.x rs1) (~~~s.x rs2) true))) := rfl
  have heff := timeStep_effect (hsub ▸ hst)
  have hms : (t.ctx t.cur).ms = .idle := by rw [hcur, heff.ms]; rfl
  have hflags : t.flags = Spec.sumFlags (s.x rs1) (~~~s.x rs2) true := by
    rw [State.flags, hcur, heff.flags, ← flagsOf_adder _ _ _ s.flags.c]
    rfl
  rw [exec_br, brStep, brTarget_eq] at htu
  rw [(branchStep_effect htu).pc, loadPort_idle hms, d.holds_eq_formula, hflags, hd]
  cases holds
  · rfl
  · rfl

/-- Settles O41: each condition is a comparison by the three facts about the flags of a subtraction. -/
theorem branchAfterSubtractionCompares : Obligations.BranchAfterSubtractionCompares := by
  unfold Obligations.BranchAfterSubtractionCompares
  intro p hp s t u rs1 rs2 j k r hst hcur htu
  obtain ⟨hhi, hls, hcc, hcs⟩ := formula_sub_unsigned (s.x rs1) (s.x rs2) _ rfl
  obtain ⟨heq, hne⟩ := formula_sub_equality (s.x rs1) (s.x rs2) _ rfl
  obtain ⟨hge, hlt, hgt, hle⟩ := formula_sub_signed (s.x rs1) (s.x rs2) _ rfl
  simp only [List.mem_cons, List.not_mem_nil, or_false] at hp
  obtain rfl | rfl | rfl | rfl | rfl | rfl | rfl | rfl | rfl | rfl := hp
  · exact branch_after_subtraction (d := .hi) hst hcur htu hhi
  · exact branch_after_subtraction (d := .ls) hst hcur htu hls
  · exact branch_after_subtraction (d := .cc) hst hcur htu hcc
  · exact branch_after_subtraction (d := .cs) hst hcur htu hcs
  · exact branch_after_subtraction (d := .eq) hst hcur htu heq
  · exact branch_after_subtraction (d := .ne) hst hcur htu hne
  · exact branch_after_subtraction (d := .ge) hst hcur htu hge
  · exact branch_after_subtraction (d := .lt) hst hcur htu hlt
  · exact branch_after_subtraction (d := .gt) hst hcur htu hgt
  · exact branch_after_subtraction (d := .le) hst hcur htu hle

end Sys2Proof.Machine
